-- ==== Sys2Proof/Word.lean ====
section
/-! DEFINITION. The wire and register widths of the block (rule R6: `BYTE_W`, `WORD_W`; rule R7: byte and nibble). -/

namespace Sys2Proof

/-- A wire byte, 8 bits (rule R6, `BYTE_W`). -/
abbrev Byte := BitVec 8

/-- A nibble, 4 bits (rule R7). Also the width of `cmd_id` on the host command port (rule R24). -/
abbrev Nibble := BitVec 4

/-- A decoded word or short result, 16 bits (rule R6, `WORD_W`). -/
abbrev Word := BitVec 16

end Sys2Proof
end

