-- ==== Sys2Proof/Config.lean ====
section
/-! DEFINITION. The parameters of the block (rule R6): what spec/ leaves to a configuration. A value of type
`Config` is plain data and stands in `State.cfg`, so that a statement about every state holds for every value of
every parameter (decisions D4, D7, D9, D10, D23; log entry 2). The default values are in Sys2Proof/Decode.lean with
the other encoding tables, and what a configuration must meet is `Config.valid` in Sys2Proof/WellFormed.lean. -/

namespace Sys2Proof

/-- The wire rule of the 2-byte short field (rule R6 `SHORT_RULE`; decision D7; U2). -/
inductive ShortRule where
  /-- Two low nibbles, 8 data bits (the default, rules R50 and R65). -/
  | nibble8
  /-- Two whole bytes, 16 data bits (the reading decision D7 sets aside and lets a model expose). -/
  | byte16
  deriving DecidableEq, Repr

/-- The parameters of rule R6 that are not fixed by SV. -/
structure Config where
  /-- `MAX_MSG_LEN`, capacity of the receive buffer in bytes (decision D4). -/
  maxMsgLen : Nat
  /-- The nine outbound templates SV does not give (rule R47, decision D9). -/
  tFocusPos : List Byte
  tFocusMode : List Byte
  tPanTiltPos : List Byte
  tWbMode : List Byte
  tAeMode : List Byte
  tShutterPos : List Byte
  tIrisPos : List Byte
  tGainPos : List Byte
  tBrightPos : List Byte
  /-- The four white-balance keys SV does not give (rule R54, decision D10). -/
  wbAuto : Byte
  wbIndoor : Byte
  wbOutdoor : Byte
  wbOnePush : Byte
  /-- The five auto-exposure keys (rule R55, decision D10). -/
  aeAuto : Byte
  aeManual : Byte
  aeShutter : Byte
  aeIris : Byte
  aeBright : Byte
  /-- `SHORT_RULE` (decision D7). -/
  shortRule : ShortRule
  /-- `SETTLE_GENERIC` and `SETTLE_LONG` in milliseconds: read by no functional rule (rules R134, R141; D23). -/
  settleGeneric : Nat
  settleLong : Nat
  deriving DecidableEq, Repr

/-- The free bytes: what spec/ calls any value (the content of `buf` after reset: decision D20, U12). Nothing is known of
them; `State.free` counts how many were taken (log entry 7). -/
opaque Config.freeByte : Nat → Byte

end Sys2Proof
end

