-- ==== Sys2Proof/Syntax.lean ====
section
/-! DEFINITION. The operations of the block: one constructor of `Instr` per row of spec/opcode_table.json, with the
operands its rule gives it. A transport answer is an operand of the step that consumes it (rule R97). -/

namespace Sys2Proof

/-- The twelve commands of the catalog (rules R21, R46), in the order of their `cmd_id`. -/
inductive CmdId where
  | reset | clear | inqZoomPos | inqFocusPos | inqFocusMode | inqPanTiltPos | inqWbMode | inqAeMode
  | inqShutterPos | inqIrisPos | inqGainPos | inqBrightPos
  deriving DecidableEq, Repr

/-- The sub-kind `e` of a transport failure (rule R7; decision D27). -/
inductive TransportErr where
  | timeout | io
  deriving DecidableEq, Repr

/-- The transport's answer to a write (rules R7, R25). -/
inductive TxAnswer where
  | ok
  | fail (e : TransportErr)
  deriving DecidableEq, Repr

/-- The transport's answer to a read request (rules R7, R26). -/
inductive RxAnswer where
  | byte (b : Byte)
  | fail (e : TransportErr)
  deriving DecidableEq, Repr

/-- The operands `(a, t)` of `OPEN`: the answer to being acquired and, only when it is `OpenOk`, the write answer of
the forced `RESET` (rule R102). -/
inductive OpenAnswer where
  | ok (t : TxAnswer)
  | fail (e : TransportErr)
  deriving DecidableEq, Repr

/-- The message operand `m` of a decode function (the head of 40_codec.md): a bare sequence, whose bounds condition is
`o + n <= |m|`; a framed message, whose bounds condition is that of rule R31; or the receive buffer, which is the
framed message `buf[0 .. len-1]`. -/
inductive Source where
  | bare (m : List Byte)
  | framed (m : List Byte)
  | buffer
  deriving DecidableEq, Repr

/-- The formats of opcode_table.json that have a wire pattern (rule R59): the place a pattern is matched at. -/
inductive Format where
  | out5 | env | errDet | enumFocus | enumWb | enumAe | fieldWord | fieldShort | fieldByte
  deriving DecidableEq, Repr

/-- The operations of the block, one constructor per row of the opcode table. -/
inductive Instr where
  -- OUT5: the twelve catalog commands (rules R70 to R81)
  | reset
  | clear
  | inqZoomPos
  | inqFocusPos
  | inqFocusMode
  | inqPanTiltPos
  | inqWbMode
  | inqAeMode
  | inqShutterPos
  | inqIrisPos
  | inqGainPos
  | inqBrightPos
  -- ENV: byte 1 of a reply (rules R45, R83)
  | envAck (socket : Nibble)
  | envCompletion (socket : Nibble)
  | envError (cls socket : Nibble)
  -- ERRDET: byte 2 of an error-class reply (rules R52, R85); `hi` is the nibble rows 2 to 6 ignore
  | errCommand
  | errMessageLength (hi : Nibble)
  | errSyntax (hi : Nibble)
  | errBufferFull (hi : Nibble)
  | errCancel (hi : Nibble)
  | errAddress (hi : Nibble)
  | errUnknown (d : Byte)
  -- ENUM_FOCUS, ENUM_WB, ENUM_AE: byte 2 of the reply to a mode inquiry (rules R53, R54, R55)
  | focusAuto
  | focusManual
  | focusOther (b : Byte)
  | wbAuto
  | wbIndoor
  | wbOutdoor
  | wbOnePush
  | wbManual
  | wbOther (b : Byte)
  | aeAuto
  | aeManual
  | aeShutter
  | aeIris
  | aeBright
  | aeOther (b : Byte)
  -- FIELD: the layouts of a data field (rules R49, R50, R51); the operands are the field's data bits
  | fieldWord (a b c d : Nibble)
  | fieldShort (p q : Nibble)
  | fieldByte (v : Byte)
  -- OP: host operations and the steps of the sequencer (rules R91 to R105)
  | openSession (a : OpenAnswer)
  | closeSession
  | execute (id : Nibble)
  | start (c : CmdId) (t : TxAnswer)
  | settle
  | rx (a : RxAnswer)
  | finish
  -- OP: the codec functions (rules R61 to R66); operands are naturals so that out of range is representable
  | encodeByte (value width : Nat)
  | decodeByte (m : Source) (o : Nat)
  | decodeWord (m : Source) (o : Nat)
  | encodeWord (v : Nat)
  | decodeShort (m : Source) (o : Nat)
  | encodeShort (v : Nat)
  -- OP: the classifier functions (rules R83, R85) and the catalog functions (rule R69)
  | classifyEnvelope (e : Byte)
  | classifyError (d : Byte)
  | build (c : CmdId)
  | decodeReply (c : CmdId) (m : Source)
  deriving DecidableEq, Repr

end Sys2Proof
end

