-- ==== Sys2Proof/Decode.lean ====
section
/-! DEFINITION. The encodings (30_encoding.md): nibble helpers, the template table, the default configuration, the
decoder from bytes to instructions and the encoder back. A pattern is matched at a place (rule R59), so the decoder is
told the place, a `Format`. The rows of format `OP` have no wire pattern (rule R59) and are neither decoded nor
encoded. -/

namespace Sys2Proof

/-- `hi4(b) = b[7:4]` (rule R7). -/
def hi4 (b : Byte) : Nibble := b.extractLsb' 4 4

/-- `lo4(b) = b[3:0]` (rule R7). -/
def lo4 (b : Byte) : Nibble := b.extractLsb' 0 4

/-- The byte `{h, l}` (rule R7: concatenation, the first in the high bits). -/
def byteOf (h l : Nibble) : Byte := h ++ l

/-- `SENTINEL` (rules R6, R44). -/
def sentinel : Byte := 0xFF

/-- `ADDR_OUT` (rules R6, R42). -/
def addrOut : Byte := 0x81

/-- The message invariant of rule R44: non-empty, the final byte is the sentinel, and no other byte is. -/
def isMessage (m : List Byte) : Bool :=
  m.getLast? == some sentinel && m.dropLast.all (fun b => b != sentinel)

/-- The default of every parameter (rule R6). The nine templates and nine enum keys are from general knowledge, not
in the source (G1, G2 of 93_implementation_defined.md); PRESUMED, log entry 3. -/
def Config.default : Config where
  maxMsgLen := 16
  tFocusPos := [0x81, 0x09, 0x04, 0x48, 0xFF]
  tFocusMode := [0x81, 0x09, 0x04, 0x38, 0xFF]
  tPanTiltPos := [0x81, 0x09, 0x06, 0x12, 0xFF]
  tWbMode := [0x81, 0x09, 0x04, 0x35, 0xFF]
  tAeMode := [0x81, 0x09, 0x04, 0x39, 0xFF]
  tShutterPos := [0x81, 0x09, 0x04, 0x4A, 0xFF]
  tIrisPos := [0x81, 0x09, 0x04, 0x4B, 0xFF]
  tGainPos := [0x81, 0x09, 0x04, 0x4C, 0xFF]
  tBrightPos := [0x81, 0x09, 0x04, 0x4D, 0xFF]
  wbAuto := 0x00
  wbIndoor := 0x01
  wbOutdoor := 0x02
  wbOnePush := 0x03
  aeAuto := 0x00
  aeManual := 0x03
  aeShutter := 0x0A
  aeIris := 0x0B
  aeBright := 0x0D
  shortRule := .nibble8
  settleGeneric := 250
  settleLong := 1000

/-- `TEMPLATE[c]` (rule R47): three rows given by SV, nine parameters. -/
def template (cfg : Config) : CmdId → List Byte
  | .reset => [0x81, 0x01, 0x06, 0x05, 0xFF]
  | .clear => [0x81, 0x01, 0x00, 0x01, 0xFF]
  | .inqZoomPos => [0x81, 0x09, 0x04, 0x47, 0xFF]
  | .inqFocusPos => cfg.tFocusPos
  | .inqFocusMode => cfg.tFocusMode
  | .inqPanTiltPos => cfg.tPanTiltPos
  | .inqWbMode => cfg.tWbMode
  | .inqAeMode => cfg.tAeMode
  | .inqShutterPos => cfg.tShutterPos
  | .inqIrisPos => cfg.tIrisPos
  | .inqGainPos => cfg.tGainPos
  | .inqBrightPos => cfg.tBrightPos

/-- The command `cmd_id` names on the host command port (rule R46); 12 to 15 name none. -/
def CmdId.ofCode (id : Nibble) : Option CmdId :=
  match id.toNat with
  | 0 => some .reset
  | 1 => some .clear
  | 2 => some .inqZoomPos
  | 3 => some .inqFocusPos
  | 4 => some .inqFocusMode
  | 5 => some .inqPanTiltPos
  | 6 => some .inqWbMode
  | 7 => some .inqAeMode
  | 8 => some .inqShutterPos
  | 9 => some .inqIrisPos
  | 10 => some .inqGainPos
  | 11 => some .inqBrightPos
  | _ => none

/-- The `cmd_id` of a command (rule R46). -/
def CmdId.code : CmdId → Nibble
  | .reset => 0
  | .clear => 1
  | .inqZoomPos => 2
  | .inqFocusPos => 3
  | .inqFocusMode => 4
  | .inqPanTiltPos => 5
  | .inqWbMode => 6
  | .inqAeMode => 7
  | .inqShutterPos => 8
  | .inqIrisPos => 9
  | .inqGainPos => 10
  | .inqBrightPos => 11

/-- The twelve commands in the order of their `cmd_id` (rule R46). -/
def CmdId.all : List CmdId :=
  [.reset, .clear, .inqZoomPos, .inqFocusPos, .inqFocusMode, .inqPanTiltPos, .inqWbMode, .inqAeMode,
   .inqShutterPos, .inqIrisPos, .inqGainPos, .inqBrightPos]

/-- The row of format `OUT5` that stands for a command. -/
def CmdId.instr : CmdId → Instr
  | .reset => .reset
  | .clear => .clear
  | .inqZoomPos => .inqZoomPos
  | .inqFocusPos => .inqFocusPos
  | .inqFocusMode => .inqFocusMode
  | .inqPanTiltPos => .inqPanTiltPos
  | .inqWbMode => .inqWbMode
  | .inqAeMode => .inqAeMode
  | .inqShutterPos => .inqShutterPos
  | .inqIrisPos => .inqIrisPos
  | .inqGainPos => .inqGainPos
  | .inqBrightPos => .inqBrightPos

/-- Why bytes are rejected. -/
inductive DecodeError where
  /-- Fewer bytes than the format has. -/
  | truncated
  /-- Five bytes that are the template of no command (rule R47). -/
  | noCommand
  deriving DecidableEq, Repr

/-- Five bytes against the twelve templates, in the order of `cmd_id` (rules R42, R47). -/
def decodeOut5 (cfg : Config) (m : List Byte) : Option Instr :=
  (CmdId.all.find? (fun c => template cfg c == m)).map CmdId.instr

/-- Byte 1 of a reply (rules R45, R83; the rows of format `ENV`). -/
def decodeEnv (e : Byte) : Instr :=
  if hi4 e = 4 then .envAck (lo4 e)
  else if hi4 e = 5 then .envCompletion (lo4 e)
  else .envError (hi4 e) (lo4 e)

/-- Byte 2 of an error-class reply (rule R52; the rows of format `ERRDET` in their priority order). -/
def decodeErrDet (d : Byte) : Instr :=
  if d = 0x41 then .errCommand
  else if lo4 d = 1 then .errMessageLength (hi4 d)
  else if lo4 d = 2 then .errSyntax (hi4 d)
  else if lo4 d = 3 then .errBufferFull (hi4 d)
  else if lo4 d = 4 then .errCancel (hi4 d)
  else if lo4 d = 5 then .errAddress (hi4 d)
  else .errUnknown d

/-- Byte 2 of the reply to `INQ_FOCUS_MODE` (rule R53). -/
def decodeFocus (b : Byte) : Instr :=
  if b = 0x02 then .focusAuto else if b = 0x03 then .focusManual else .focusOther b

/-- Byte 2 of the reply to `INQ_WB_MODE` (rule R54). -/
def decodeWb (cfg : Config) (b : Byte) : Instr :=
  if b = cfg.wbAuto then .wbAuto
  else if b = cfg.wbIndoor then .wbIndoor
  else if b = cfg.wbOutdoor then .wbOutdoor
  else if b = cfg.wbOnePush then .wbOnePush
  else if b = 0x05 then .wbManual
  else .wbOther b

/-- Byte 2 of the reply to `INQ_AE_MODE` (rule R55). -/
def decodeAe (cfg : Config) (b : Byte) : Instr :=
  if b = cfg.aeAuto then .aeAuto
  else if b = cfg.aeManual then .aeManual
  else if b = cfg.aeShutter then .aeShutter
  else if b = cfg.aeIris then .aeIris
  else if b = cfg.aeBright then .aeBright
  else .aeOther b

/-- The decoder: the instruction the first bytes are at a place, and the bytes after it, or the reason it is rejected.
Total on any bytes. The high nibbles of a word or a short are ignored (rules R34, R49, R50). -/
def decode (cfg : Config) (f : Format) (bs : List Byte) : Except DecodeError (Instr × List Byte) :=
  match f, bs with
  | .out5, b0 :: b1 :: b2 :: b3 :: b4 :: rest =>
    match decodeOut5 cfg [b0, b1, b2, b3, b4] with
    | some i => .ok (i, rest)
    | none => .error .noCommand
  | .out5, _ => .error .truncated
  | .env, b :: rest => .ok (decodeEnv b, rest)
  | .env, [] => .error .truncated
  | .errDet, b :: rest => .ok (decodeErrDet b, rest)
  | .errDet, [] => .error .truncated
  | .enumFocus, b :: rest => .ok (decodeFocus b, rest)
  | .enumFocus, [] => .error .truncated
  | .enumWb, b :: rest => .ok (decodeWb cfg b, rest)
  | .enumWb, [] => .error .truncated
  | .enumAe, b :: rest => .ok (decodeAe cfg b, rest)
  | .enumAe, [] => .error .truncated
  | .fieldWord, b0 :: b1 :: b2 :: b3 :: rest => .ok (.fieldWord (lo4 b0) (lo4 b1) (lo4 b2) (lo4 b3), rest)
  | .fieldWord, _ => .error .truncated
  | .fieldShort, b0 :: b1 :: rest => .ok (.fieldShort (lo4 b0) (lo4 b1), rest)
  | .fieldShort, _ => .error .truncated
  | .fieldByte, b :: rest => .ok (.fieldByte b, rest)
  | .fieldByte, [] => .error .truncated

/-- The bytes of an instruction and the place they are matched at; `none` for a row of format `OP`, which has no wire
pattern (rule R59). The high nibbles of a word or a short are zero on encode (rules R34, R49, R50). -/
def encode (cfg : Config) : Instr → Option (Format × List Byte)
  | .reset => some (.out5, template cfg .reset)
  | .clear => some (.out5, template cfg .clear)
  | .inqZoomPos => some (.out5, template cfg .inqZoomPos)
  | .inqFocusPos => some (.out5, template cfg .inqFocusPos)
  | .inqFocusMode => some (.out5, template cfg .inqFocusMode)
  | .inqPanTiltPos => some (.out5, template cfg .inqPanTiltPos)
  | .inqWbMode => some (.out5, template cfg .inqWbMode)
  | .inqAeMode => some (.out5, template cfg .inqAeMode)
  | .inqShutterPos => some (.out5, template cfg .inqShutterPos)
  | .inqIrisPos => some (.out5, template cfg .inqIrisPos)
  | .inqGainPos => some (.out5, template cfg .inqGainPos)
  | .inqBrightPos => some (.out5, template cfg .inqBrightPos)
  | .envAck s => some (.env, [byteOf 4 s])
  | .envCompletion s => some (.env, [byteOf 5 s])
  | .envError c s => some (.env, [byteOf c s])
  | .errCommand => some (.errDet, [0x41])
  | .errMessageLength h => some (.errDet, [byteOf h 1])
  | .errSyntax h => some (.errDet, [byteOf h 2])
  | .errBufferFull h => some (.errDet, [byteOf h 3])
  | .errCancel h => some (.errDet, [byteOf h 4])
  | .errAddress h => some (.errDet, [byteOf h 5])
  | .errUnknown d => some (.errDet, [d])
  | .focusAuto => some (.enumFocus, [0x02])
  | .focusManual => some (.enumFocus, [0x03])
  | .focusOther b => some (.enumFocus, [b])
  | .wbAuto => some (.enumWb, [cfg.wbAuto])
  | .wbIndoor => some (.enumWb, [cfg.wbIndoor])
  | .wbOutdoor => some (.enumWb, [cfg.wbOutdoor])
  | .wbOnePush => some (.enumWb, [cfg.wbOnePush])
  | .wbManual => some (.enumWb, [0x05])
  | .wbOther b => some (.enumWb, [b])
  | .aeAuto => some (.enumAe, [cfg.aeAuto])
  | .aeManual => some (.enumAe, [cfg.aeManual])
  | .aeShutter => some (.enumAe, [cfg.aeShutter])
  | .aeIris => some (.enumAe, [cfg.aeIris])
  | .aeBright => some (.enumAe, [cfg.aeBright])
  | .aeOther b => some (.enumAe, [b])
  | .fieldWord a b c d => some (.fieldWord, [byteOf 0 a, byteOf 0 b, byteOf 0 c, byteOf 0 d])
  | .fieldShort p q => some (.fieldShort, [byteOf 0 p, byteOf 0 q])
  | .fieldByte v => some (.fieldByte, [v])
  | .openSession _ => none
  | .closeSession => none
  | .execute _ => none
  | .start _ _ => none
  | .settle => none
  | .rx _ => none
  | .finish => none
  | .encodeByte _ _ => none
  | .decodeByte _ _ => none
  | .decodeWord _ _ => none
  | .encodeWord _ => none
  | .decodeShort _ _ => none
  | .encodeShort _ => none
  | .classifyEnvelope _ => none
  | .classifyError _ => none
  | .build _ => none
  | .decodeReply _ _ => none

/-- The place a lone byte is read at when nothing says where it stands (log entry 6). The opcode table has rows of
five 8-bit formats and one byte value can match a row of each, so the row that fixes most bits is taken first, in the
table's order; the machine itself never needs this, since it always knows the place. -/
def placeOfByte (b : Byte) : Format :=
  if b = 0x41 then .errDet
  else if b = 0x02 ∨ b = 0x03 then .enumFocus
  else if b = 0x00 ∨ b = 0x01 ∨ b = 0x05 then .enumWb
  else if b = 0x0A ∨ b = 0x0B ∨ b = 0x0D then .enumAe
  else if hi4 b = 4 ∨ hi4 b = 5 then .env
  else if lo4 b = 1 ∨ lo4 b = 2 ∨ lo4 b = 3 ∨ lo4 b = 4 ∨ lo4 b = 5 then .errDet
  else .env

/-- Byte `k` from the top of an `n`-byte pattern: the table writes byte 0 leftmost (rule R59), so byte 0 holds the
most significant bits of the pattern read as one number. -/
def patternByte (n w k : Nat) : Byte := BitVec.ofNat 8 (w >>> (8 * (n - 1 - k)))

/-- The place and the bytes of a pattern of the opcode table: 40 bits are an outbound message, 32 a word field, 16 a
short field, 8 a lone byte. -/
def tableWord (nbits w : Nat) : Option (Format × List Byte) :=
  match nbits with
  | 40 => some (.out5, [patternByte 5 w 0, patternByte 5 w 1, patternByte 5 w 2, patternByte 5 w 3, patternByte 5 w 4])
  | 32 => some (.fieldWord, [patternByte 4 w 0, patternByte 4 w 1, patternByte 4 w 2, patternByte 4 w 3])
  | 16 => some (.fieldShort, [patternByte 2 w 0, patternByte 2 w 1])
  | 8 => some (placeOfByte (patternByte 1 w 0), [patternByte 1 w 0])
  | _ => none

/-- The instruction the decoder reads from a pattern of the opcode table, in the default configuration, whose
templates and keys are the ones the table lists. -/
def decodeTableWord (nbits w : Nat) : Option Instr :=
  match tableWord nbits w with
  | some (f, bs) =>
    match decode Config.default f bs with
    | .ok (i, _) => some i
    | .error _ => none
  | none => none

end Sys2Proof
end

