-- ==== Sys2Proof/WellFormed.lean ====
section
/-! DEFINITION. Which configurations and which instructions are well formed. A configuration that is not valid is
refused before it runs (rules R48, R54, R55; decision D4). -/

namespace Sys2Proof

/-- A template meets rule R48 (non-empty, last byte `0xFF`, no other byte `0xFF`, first byte `0x81`) and is 5 bytes
long (rule R42). -/
def templateOk (t : List Byte) : Bool :=
  t.length == 5 && t.head? == some addrOut && isMessage t

/-- The keys of the white-balance table (rule R54); `0x05` is fixed. -/
def wbKeys (cfg : Config) : List Byte := [cfg.wbAuto, cfg.wbIndoor, cfg.wbOutdoor, cfg.wbOnePush, 0x05]

/-- The keys of the auto-exposure table (rule R55). -/
def aeKeys (cfg : Config) : List Byte := [cfg.aeAuto, cfg.aeManual, cfg.aeShutter, cfg.aeIris, cfg.aeBright]

/-- What the spec asks of a configuration: `MAX_MSG_LEN >= 11` (D4), every template well formed (R48), the keys of a
table pairwise distinct (R54, R55). -/
def Config.valid (cfg : Config) : Bool :=
  decide (11 ≤ cfg.maxMsgLen) && CmdId.all.all (fun c => templateOk (template cfg c)) &&
    decide (wbKeys cfg).Nodup && decide (aeKeys cfg).Nodup

/-- No two commands have the same template, so that an outbound message names its command. The spec does not ask this
of a configuration (the block never decodes an outbound message); the round trip of format `OUT5` needs it. -/
def Config.templatesDistinct (cfg : Config) : Bool := decide (CmdId.all.map (template cfg)).Nodup

/-- The largest value `encode_short` is defined for (rule R66 for `NIBBLE8`; 16 bits for `BYTE16`). -/
def shortLimit (cfg : Config) : Nat :=
  match cfg.shortRule with
  | .nibble8 => 0xFF
  | .byte16 => 0xFFFF

/-- A framed operand is a message (rule R44). -/
def Source.wf : Source → Bool
  | .bare _ => true
  | .framed m => isMessage m
  | .buffer => true

/-- The operands of an instruction lie where its rule and its format put them: a default arm does not carry a byte an
earlier row matches (rule R52 to R55, R83), a `cmd_id` names a command (R46), an encoder's operand is in range (R61,
R64, R66). -/
def Instr.wf (cfg : Config) : Instr → Bool
  | .reset => true
  | .clear => true
  | .inqZoomPos => true
  | .inqFocusPos => true
  | .inqFocusMode => true
  | .inqPanTiltPos => true
  | .inqWbMode => true
  | .inqAeMode => true
  | .inqShutterPos => true
  | .inqIrisPos => true
  | .inqGainPos => true
  | .inqBrightPos => true
  | .envAck _ => true
  | .envCompletion _ => true
  | .envError c _ => c != 4 && c != 5
  | .errCommand => true
  | .errMessageLength h => h != 4
  | .errSyntax _ => true
  | .errBufferFull _ => true
  | .errCancel _ => true
  | .errAddress _ => true
  | .errUnknown d => ! [(1 : Nibble), 2, 3, 4, 5].contains (lo4 d)
  | .focusAuto => true
  | .focusManual => true
  | .focusOther b => b != 0x02 && b != 0x03
  | .wbAuto => true
  | .wbIndoor => true
  | .wbOutdoor => true
  | .wbOnePush => true
  | .wbManual => true
  | .wbOther b => ! (wbKeys cfg).contains b
  | .aeAuto => true
  | .aeManual => true
  | .aeShutter => true
  | .aeIris => true
  | .aeBright => true
  | .aeOther b => ! (aeKeys cfg).contains b
  | .fieldWord _ _ _ _ => true
  | .fieldShort _ _ => true
  | .fieldByte _ => true
  | .openSession _ => true
  | .closeSession => true
  | .execute id => (CmdId.ofCode id).isSome
  | .start _ _ => true
  | .settle => true
  | .rx _ => true
  | .finish => true
  | .encodeByte v _ => decide (v ≤ 0xFF)
  | .decodeByte m _ => m.wf
  | .decodeWord m _ => m.wf
  | .encodeWord v => decide (v ≤ 0xFFFF)
  | .decodeShort m _ => m.wf
  | .encodeShort v => decide (v ≤ shortLimit cfg)
  | .classifyEnvelope _ => true
  | .classifyError _ => true
  | .build _ => true
  | .decodeReply _ m => m.wf

end Sys2Proof
end

