-- ==== Sys2Proof/Machine/Buffer.lean ====
section
/-! DEFINITION. The receive buffer as a memory (10_state.md rule R14, 20_memory.md rule R29): bytes by offset, what it
holds after reset, reading and writing it. -/

namespace Sys2Proof.Machine

/-- Bytes by offset. The offsets that are listed are the ones that exist (`0 .. MAX_MSG_LEN-1`), and each holds a byte;
an offset that is not listed does not exist (log entry 7). -/
abbrev Memory := List Host.Cell

/-- The canonical form of a memory: offsets strictly rising. -/
abbrev Memory.wf (m : Memory) : Prop := m.Pairwise (fun x y => x.1 < y.1)

/-- The byte at an offset, or nothing where there is no such offset. -/
def Memory.read : Memory → Nat → Option Byte
  | [], _ => none
  | (a, b) :: m, o => if o = a then some b else Memory.read m o

/-- `MemWrite(o, 1, b)` (rule R7): `buf[o] <- b`, the list kept in rising order. -/
def Memory.write : Memory → Nat → Byte → Memory
  | [], o, b => [(o, b)]
  | (a, x) :: m, o, b =>
    if o < a then (o, b) :: (a, x) :: m
    else if o = a then (o, b) :: m
    else (a, x) :: Memory.write m o b

/-- The `n` bytes from offset `o` on, when all of them exist. -/
def Memory.readRange (m : Memory) (o : Nat) : Nat → Option (List Byte)
  | 0 => some []
  | n + 1 =>
    match m.read o, m.readRange (o + 1) n with
    | some b, some bs => some (b :: bs)
    | _, _ => none

/-- Bytes written one after the other from offset `o` on. -/
def Memory.writeBytes (m : Memory) (o : Nat) : List Byte → Memory
  | [] => m
  | b :: bs => Memory.writeBytes (m.write o b) (o + 1) bs

/-- Bytes laid out from offset `o` on. -/
def Memory.ofBytes (o : Nat) : List Byte → Memory
  | [] => []
  | b :: bs => (o, b) :: Memory.ofBytes (o + 1) bs

/-- `n` free bytes, from the `k`-th on. -/
def freeBytes (k : Nat) : Nat → List Byte
  | 0 => []
  | n + 1 => Config.freeByte k :: freeBytes (k + 1) n

/-- A buffer of `n` bytes as a reset leaves it: "any value" at every offset (rule R28, decision D20, U12; log
entry 7). `k` is the number of free bytes taken before. -/
def freshBuffer (k n : Nat) : Memory := Memory.ofBytes 0 (freeBytes k n)

end Sys2Proof.Machine
end

