-- ==== Sys2Proof/Machine/State.lean ====
section
/-! DEFINITION. The state of the block (10_state.md, rules R10 to R21), what stands outside it and is read or written
through its ports (rules R23 to R27), and the reasons a step stops. Plain data throughout. -/

namespace Sys2Proof.Machine

/-- Whether a session exists (rule R11). `opened` is the spec's `Open`. -/
inductive Life where
  | closed | opening | opened
  deriving DecidableEq, Repr

/-- Where the current transaction stands (rule R12). -/
inductive Phase where
  | idle | sent | receiving | completed | faulted
  deriving DecidableEq, Repr

/-- The envelope class a successful reply had (rule R17). -/
inductive RClass where
  | noClass | ack | completion
  deriving DecidableEq, Repr

/-- The result of `classify_envelope` (rule R83). -/
inductive EnvClass where
  | ack | completion | error
  deriving DecidableEq, Repr

/-- The closed set of error kinds (rules R21, R109). -/
inductive ErrKind where
  | messageLengthError | syntaxError | bufferFullError | cancelError | addressError | commandError
  | unknownError
  | transportError (e : TransportErr)
  | framingError
  deriving DecidableEq, Repr

/-- The decoded modes (rule R21). -/
inductive ModeVal where
  | unknown | auto | manual | indoor | outdoor | onePush | shutter | iris | bright
  deriving DecidableEq, Repr

/-- The outcome of the last transaction (rule R16); `none` is the spec's `None`: no outcome yet. -/
inductive Status where
  | none
  | ok
  | err (k : ErrKind)
  deriving DecidableEq, Repr

/-- What a reply recipe yields (rule R69): the result registers it names. With no field set it is `NoPayload`. -/
structure Payload where
  val0 : Option Word := Option.none
  val1 : Option Word := Option.none
  mode : Option ModeVal := Option.none
  deriving DecidableEq, Repr

/-- The value a combinational function returns. The spec's functions return values and it names no register for
them: this is the model's own (log entry 5). -/
inductive Ret where
  | none
  | bytes (m : List Byte)
  | byte (b : Byte)
  | word (v : Word)
  | cls (c : EnvClass)
  | kind (k : ErrKind)
  | payload (p : Payload)
  /-- The function raised this kind on a read out of bounds or an unmatched key. -/
  | raised (k : ErrKind)
  deriving DecidableEq, Repr

/-- A request on the host command port (rule R24); `id` is the 4-bit `cmd_id`. -/
inductive Request where
  | execute (id : Nibble)
  | openSession
  | closeSession
  deriving DecidableEq, Repr

/-- The transport's answer to being acquired (rule R97). -/
inductive AcquireAnswer where
  | ok
  | fail (e : TransportErr)
  deriving DecidableEq, Repr

/-- What can be put in front of the sequencer from outside (log entry 4): a pattern of the opcode table at its place,
an operation by name, or the reset event of rule R129. The model's own. -/
inductive Presented where
  | wire (f : Format) (bs : List Byte)
  | op (i : Instr)
  | hwReset
  deriving DecidableEq, Repr

/-- The state of the block, its configuration, and the two sides of its ports. -/
structure State where
  /-- The parameters of rule R6. No operation writes them (rules R22, R40). -/
  cfg : Config
  -- the registers of rule R10, all of them
  life : Life
  phase : Phase
  cmd : CmdId
  buf : Memory
  len : Nat
  status : Status
  rclass : RClass
  val0 : Word
  val1 : Word
  mode : ModeVal
  cFocus : ModeVal
  cWb : ModeVal
  cAe : ModeVal
  -- outside the block (rules R9, R23 to R26; log entry 4)
  /-- The requests the host will present, in order (rule R24). -/
  hostq : List Request
  /-- The transport's answers to being acquired, to writes and to read requests, in order. `rxq` holds the bytes the
  transport has and the block has not yet pulled (rule R23). -/
  acqq : List AcquireAnswer
  txq : List TxAnswer
  rxq : List RxAnswer
  /-- The messages presented on the transport write port, oldest first (rule R25). -/
  written : List (List Byte)
  /-- What is presented to the sequencer from outside. -/
  slot : Option Presented
  /-- The value the last combinational function returned. -/
  ret : Ret
  /-- How many free bytes were taken (log entry 7). The model's own. -/
  free : Nat
  deriving DecidableEq, Repr

/-- The machine stops with a fault. (An error kind of rule R109 is not one: it is a next state, rule R121.) -/
inductive Fault where
  /-- Raised by a read of the receive buffer at an offset past its capacity, which does not exist (rules R14, R29).
  SAFE: no state a run reaches raises it. -/
  | noSuchOffset
  deriving DecidableEq, Repr

/-- The model gives the operation no meaning in this state or for this operand. -/
inductive Refusal where
  /-- Raised by `exec` for an instruction without a meaning. No arm of this model does. SAFE. -/
  | notModelled (mnemonic : String)
  /-- Raised by the host operations and by `START` for a request the block does not accept (rules R105, R128; U6,
  U14): "a model *refuses* it". SAFE. -/
  | requestNotAccepted
  /-- Raised by a step, or by a reply pattern, whose precondition does not hold: `RX` outside `Receiving` (R90),
  `SETTLE` outside `Sent` (R99), `FINISH` with no stored sentinel (R100), a reply pattern that does not stand at its
  place in a finished frame (R59), a read of the receive buffer where `FINISH` does not read it (R36). SAFE. -/
  | notEnabled
  /-- Raised by `encode_byte`, `encode_word`, `encode_short` for an operand out of range (rules R61, R64, R66, R128;
  U5). SAFE. -/
  | operandOutOfRange
  /-- Raised by the fetch when the presented bytes are no pattern at their place. SAFE. -/
  | undecodable
  /-- Raised by the step when the configuration is not valid: "refused by the model before it runs" (rule R48). SAFE. -/
  | invalidConfiguration
  deriving DecidableEq, Repr

/-- The outcome of a step of this machine. -/
abbrev Result := Host.Outcome State Fault Refusal

/-- The machine right after reset (rules R28, R130): no session, no transaction, nothing presented to it. `buf`
holds free bytes (log entry 7); the parameters are at their defaults (log entry 3). -/
def State.reset : State where
  cfg := Config.default
  life := .closed
  phase := .idle
  cmd := .reset
  buf := freshBuffer 0 Config.default.maxMsgLen
  len := 0
  status := .none
  rclass := .noClass
  val0 := 0
  val1 := 0
  mode := .unknown
  cFocus := .unknown
  cWb := .unknown
  cAe := .unknown
  hostq := []
  acqq := []
  txq := []
  rxq := []
  written := []
  slot := none
  ret := .none
  free := Config.default.maxMsgLen

end Sys2Proof.Machine
end

