-- ==== Sys2Proof/Machine/Ops.lean ====
section
/-! DEFINITION. The shared operations over the buffer and the registers: the accumulated frame, storing a byte,
ending a transaction with an error kind (`raise`), committing a successful one, the reset event. -/

namespace Sys2Proof.Machine

/-- The bytes accumulated so far, `buf[0 .. len-1]` (rules R14, R15). -/
def State.frame (s : State) : Option (List Byte) := s.buf.readRange 0 s.len

/-- A phase is *resting* when it is `Idle`, `Completed` or `Faulted` (rule R105). -/
def Phase.resting : Phase → Bool
  | .idle => true
  | .sent => false
  | .receiving => false
  | .completed => true
  | .faulted => true

/-- `raise K`, the trap entry (rule R121). It saves no return point and goes to no handler, and there is no return
operation beside it: the block rests in `Faulted`, from which a request is accepted as from `Idle` (rule R123, through
`Phase.resting`). -/
def raise (k : ErrKind) (s : State) : State :=
  { s with
    phase := .faulted
    status := .err k
    life := if s.life = .opening then .closed else s.life }

/-- The `rclass` of a reply class that is not an error (rule R17). -/
def RClass.ofEnv : EnvClass → RClass
  | .ack => .ack
  | .completion => .completion
  | .error => .noClass

/-- The atomic commit at the end of `FINISH` (rule R100): `status`, `rclass`, the registers the recipe names, the
cache register of a mode inquiry (rule R106), `phase`, and `life` at the end of `OPEN` (rule R103). -/
def commit (cls : EnvClass) (p : Payload) (s : State) : State :=
  { s with
    status := .ok
    rclass := RClass.ofEnv cls
    val0 := p.val0.getD s.val0
    val1 := p.val1.getD s.val1
    mode := p.mode.getD s.mode
    cFocus := if s.cmd = .inqFocusMode then p.mode.getD s.mode else s.cFocus
    cWb := if s.cmd = .inqWbMode then p.mode.getD s.mode else s.cWb
    cAe := if s.cmd = .inqAeMode then p.mode.getD s.mode else s.cAe
    phase := .completed
    life := if s.life = .opening then .opened else s.life }

/-- The store half of `RX` (rule R91): `buf[len] <- b`, `len <- len + 1`. -/
def storeByte (b : Byte) (s : State) : State :=
  { s with buf := s.buf.write s.len b, len := s.len + 1 }

/-- The reset event (rule R129): every register to its reset value, whatever the state. The transport, the host and
what was written are outside the block and are not touched; `buf` holds any value (rule R28, log entry 7). -/
def resetEvent (s : State) : State :=
  { s with
    life := .closed
    phase := .idle
    cmd := .reset
    buf := freshBuffer s.free s.cfg.maxMsgLen
    free := s.free + s.cfg.maxMsgLen
    len := 0
    status := .none
    rclass := .noClass
    val0 := 0
    val1 := 0
    mode := .unknown
    cFocus := .unknown
    cWb := .unknown
    cAe := .unknown }

end Sys2Proof.Machine
end

