-- ==== Sys2Proof/Machine/Operands.lean ====
section
/-! DEFINITION. The operand forms: the message operand of a decode function with its bounds rule (rules R7, R31 and
the head of 40_codec.md), and the value a function returns. -/

namespace Sys2Proof.Machine

/-- A message a decode function can read: its bytes, and how many of them, from the first, are in bounds. -/
structure View where
  bytes : List Byte
  limit : Nat
  deriving DecidableEq, Repr

/-- A bare sequence: `o + n <= |m|`. -/
def View.bare (m : List Byte) : View := ⟨m, m.length⟩

/-- A framed message: `o + n <= len - 1`, every byte read strictly before the final byte (rule R31). -/
def View.framed (m : List Byte) : View := ⟨m, m.length - 1⟩

/-- `MemRead(o, n)` (rules R7, R31): in bounds the `n` bytes, otherwise `FramingError` and nothing read. -/
def View.read (v : View) (o n : Nat) : Except ErrKind (List Byte) :=
  if o + n ≤ v.limit then .ok ((v.bytes.drop o).take n) else .error .framingError

/-- A function's return value: the value, or the kind it raised (40_codec.md: the codec "raises nothing except
`FramingError` on an out-of-bounds read"). A call outside a transaction has no transaction to end (log entry 5). -/
def Ret.ofExcept {α : Type} (f : α → Ret) : Except ErrKind α → Ret
  | .ok x => f x
  | .error k => .raised k

/-- A combinational function's result goes to the return port and nowhere else: "No side effects" (rule R35). -/
def returning (r : Ret) (s : State) : State := { s with ret := r }

/-- The complete frame `FINISH` works on: phase `Receiving`, the byte just stored is the sentinel (rules R36, R92,
R100). -/
def withFrame (s : State) (k : List Byte → Result) : Result :=
  if s.phase = .receiving then
    match s.frame with
    | none => .fault .noSuchOffset
    | some m => if m.getLast? = some sentinel then k m else .refused .notEnabled
  else .refused .notEnabled

/-- A decode function applied to a message operand. The receive buffer is read where `FINISH` reads it and nowhere
else (rules R36, R39): it stands for the complete frame, a framed message. That a call by name is enabled there and
refused elsewhere is the model's choice (log entry 17). -/
def decodeWith (src : Source) (f : View → Ret) (s : State) : Result :=
  match src with
  | .bare m => .next (returning (f (.bare m)) s)
  | .framed m => .next (returning (f (.framed m)) s)
  | .buffer => withFrame s (fun m => .next (returning (f (.framed m)) s))

/-- Whether the host command port accepts a request (rule R105). -/
def State.accepts (s : State) : Request → Bool
  | .execute id => s.life == .opened && s.phase.resting && (CmdId.ofCode id).isSome
  | .openSession => s.life == .closed && s.phase.resting
  | .closeSession => (s.life == .opened || s.life == .closed) && s.phase.resting

end Sys2Proof.Machine
end

