-- ==== Sys2Proof/Machine/Codec.lean ====
section
/-! DEFINITION. The codec (40_codec.md): the nibble packer and unpacker, six functions, pure. -/

namespace Sys2Proof.Machine

/-- The word of four nibbles, most significant first: shifts 12, 8, 4, 0 (rules R33, R63). -/
def wordOfNibbles (a b c d : Nibble) : Word :=
  (a.zeroExtend 16 <<< 12) ||| (b.zeroExtend 16 <<< 8) ||| (c.zeroExtend 16 <<< 4) ||| d.zeroExtend 16

/-- The short of two nibbles, upper 8 bits zero (rules R50, R65). -/
def shortOfNibbles (p q : Nibble) : Word := (p.zeroExtend 16 <<< 4) ||| q.zeroExtend 16

/-- `encode_byte` on an 8-bit operand (rule R61). -/
def encodeByte (v : Byte) : List Byte := [v]

/-- `decode_byte(m, o)` (rule R62): the whole byte. -/
def decodeByte (m : View) (o : Nat) : Except ErrKind Byte :=
  match m.read o 1 with
  | .ok [b] => .ok b
  | .ok _ => .error .framingError
  | .error k => .error k

/-- `decode_word(m, o)` (rule R63): the low nibbles of four bytes. -/
def decodeWord (m : View) (o : Nat) : Except ErrKind Word :=
  match m.read o 4 with
  | .ok [b0, b1, b2, b3] => .ok (wordOfNibbles (lo4 b0) (lo4 b1) (lo4 b2) (lo4 b3))
  | .ok _ => .error .framingError
  | .error k => .error k

/-- `encode_word(v)` (rule R64): four bytes, high nibbles zero, most significant nibble first. -/
def encodeWord (v : Word) : List Byte :=
  [(v.extractLsb' 12 4).zeroExtend 8, (v.extractLsb' 8 4).zeroExtend 8,
   (v.extractLsb' 4 4).zeroExtend 8, (v.extractLsb' 0 4).zeroExtend 8]

/-- The value of a 2-byte short field by the wire rule in force (rule R65 and decision D7). -/
def shortOfBytes (r : ShortRule) (b0 b1 : Byte) : Word :=
  match r with
  | .nibble8 => shortOfNibbles (lo4 b0) (lo4 b1)
  | .byte16 => (b0.zeroExtend 16 <<< 8) ||| b1.zeroExtend 16

/-- `decode_short(m, o)` (rule R65). -/
def decodeShort (r : ShortRule) (m : View) (o : Nat) : Except ErrKind Word :=
  match m.read o 2 with
  | .ok [b0, b1] => .ok (shortOfBytes r b0 b1)
  | .ok _ => .error .framingError
  | .error k => .error k

/-- `encode_short(v)` for an operand the field can carry (rule R66): "Encode the reverse of the chosen decode rule". -/
def encodeShort (r : ShortRule) (v : Word) : List Byte :=
  match r with
  | .nibble8 => [(v.extractLsb' 4 4).zeroExtend 8, (v.extractLsb' 0 4).zeroExtend 8]
  | .byte16 => [v.extractLsb' 8 8, v.extractLsb' 0 8]

/-- `encode_byte(value, width)`: out of range is refused, never truncated (rule R61); `width` is ignored (N13, D21). -/
def execEncodeByte (value _width : Nat) (s : State) : Result :=
  if value ≤ 0xFF then .next (returning (.bytes (encodeByte (BitVec.ofNat 8 value))) s)
  else .refused .operandOutOfRange

/-- `decode_byte(m, o)` (rule R62). -/
def execDecodeByte (m : Source) (o : Nat) (s : State) : Result :=
  decodeWith m (fun v => .ofExcept .byte (decodeByte v o)) s

/-- `decode_word(m, o)` (rule R63). -/
def execDecodeWord (m : Source) (o : Nat) (s : State) : Result :=
  decodeWith m (fun v => .ofExcept .word (decodeWord v o)) s

/-- `encode_word(v)`: a value above `0xFFFF` is refused (rule R64). -/
def execEncodeWord (v : Nat) (s : State) : Result :=
  if v ≤ 0xFFFF then .next (returning (.bytes (encodeWord (BitVec.ofNat 16 v))) s)
  else .refused .operandOutOfRange

/-- `decode_short(m, o)` (rule R65). -/
def execDecodeShort (m : Source) (o : Nat) (s : State) : Result :=
  decodeWith m (fun v => .ofExcept .word (decodeShort s.cfg.shortRule v o)) s

/-- `encode_short(v)`: a value the field cannot carry is refused (rule R66). -/
def execEncodeShort (v : Nat) (s : State) : Result :=
  if v ≤ shortLimit s.cfg then .next (returning (.bytes (encodeShort s.cfg.shortRule (BitVec.ofNat 16 v))) s)
  else .refused .operandOutOfRange

end Sys2Proof.Machine
end

