-- ==== Sys2Proof/Machine/Catalog.lean ====
section
/-! DEFINITION. The command catalog (41_catalog.md): `kind`, `template`, `settle` and `recipe` of each command, as
data (rule R82), and the two functions built on it, `build` and `decode_reply` (rule R69). -/

namespace Sys2Proof.Machine

/-- The kind of a command (rule R69). -/
inductive Kind where
  | action | inquiry
  deriving DecidableEq, Repr

/-- The settle class of a command (rules R69, R134). -/
inductive SettleClass where
  | generic | long
  deriving DecidableEq, Repr

/-- A reply recipe (rule R69). -/
inductive Recipe where
  | noPayload
  /-- `val0 <- decode_word(buf, o)`. -/
  | word (o : Nat)
  /-- `val0 <- decode_word(buf, o)`, `val1 <- decode_word(buf, o')`, both or neither. -/
  | wordPair (o o' : Nat)
  /-- `val0 <- decode_short(buf, o)`. -/
  | short (o : Nat)
  /-- `mode <-` the table's value of `decode_byte(buf, o)`. -/
  | focusMode (o : Nat)
  | wbMode (o : Nat)
  | aeMode (o : Nat)
  deriving DecidableEq, Repr

/-- A catalog entry (rule R69). -/
structure Entry where
  kind : Kind
  template : List Byte
  settle : SettleClass
  recipe : Recipe
  deriving DecidableEq, Repr

/-- The twelve entries (rules R46, R70 to R81). -/
def catalog (cfg : Config) (c : CmdId) : Entry :=
  match c with
  | .reset => ⟨.action, template cfg .reset, .long, .noPayload⟩
  | .clear => ⟨.action, template cfg .clear, .long, .noPayload⟩
  | .inqZoomPos => ⟨.inquiry, template cfg .inqZoomPos, .generic, .word 2⟩
  | .inqFocusPos => ⟨.inquiry, template cfg .inqFocusPos, .generic, .word 2⟩
  | .inqFocusMode => ⟨.inquiry, template cfg .inqFocusMode, .generic, .focusMode 2⟩
  | .inqPanTiltPos => ⟨.inquiry, template cfg .inqPanTiltPos, .generic, .wordPair 2 6⟩
  | .inqWbMode => ⟨.inquiry, template cfg .inqWbMode, .generic, .wbMode 2⟩
  | .inqAeMode => ⟨.inquiry, template cfg .inqAeMode, .generic, .aeMode 2⟩
  | .inqShutterPos => ⟨.inquiry, template cfg .inqShutterPos, .generic, .short 4⟩
  | .inqIrisPos => ⟨.inquiry, template cfg .inqIrisPos, .generic, .short 4⟩
  | .inqGainPos => ⟨.inquiry, template cfg .inqGainPos, .generic, .short 4⟩
  | .inqBrightPos => ⟨.inquiry, template cfg .inqBrightPos, .generic, .short 4⟩

/-- The focus-mode table (rule R53). -/
def focusEnum (b : Byte) : Option ModeVal :=
  if b = 0x02 then some .auto else if b = 0x03 then some .manual else none

/-- The white-balance table `WB_ENUM` (rule R54). -/
def wbEnum (cfg : Config) (b : Byte) : Option ModeVal :=
  if b = cfg.wbAuto then some .auto
  else if b = cfg.wbIndoor then some .indoor
  else if b = cfg.wbOutdoor then some .outdoor
  else if b = cfg.wbOnePush then some .onePush
  else if b = 0x05 then some .manual
  else none

/-- The auto-exposure table `AE_ENUM` (rule R55). -/
def aeEnum (cfg : Config) (b : Byte) : Option ModeVal :=
  if b = cfg.aeAuto then some .auto
  else if b = cfg.aeManual then some .manual
  else if b = cfg.aeShutter then some .shutter
  else if b = cfg.aeIris then some .iris
  else if b = cfg.aeBright then some .bright
  else none

/-- A mode recipe: the byte is read before it is matched, so out of bounds comes before unmatched (rule R120). -/
def modeRecipe (table : Byte → Option ModeVal) (m : View) (o : Nat) : Except ErrKind Payload :=
  match decodeByte m o with
  | .error k => .error k
  | .ok b =>
    match table b with
    | some v => .ok { mode := some v }
    | none => .error .unknownError

/-- The recipes (rules R70 to R81). Nothing is committed here, so a recipe that raises has written nothing. -/
def runRecipe (cfg : Config) (r : Recipe) (m : View) : Except ErrKind Payload :=
  match r with
  | .noPayload => .ok {}
  | .word o =>
    match decodeWord m o with
    | .ok v => .ok { val0 := some v }
    | .error k => .error k
  | .wordPair o o' =>
    match decodeWord m o, decodeWord m o' with
    | .ok v, .ok v' => .ok { val0 := some v, val1 := some v' }
    | .error k, _ => .error k
    | .ok _, .error k => .error k
  | .short o =>
    match decodeShort cfg.shortRule m o with
    | .ok v => .ok { val0 := some v }
    | .error k => .error k
  | .focusMode o => modeRecipe focusEnum m o
  | .wbMode o => modeRecipe (wbEnum cfg) m o
  | .aeMode o => modeRecipe (aeEnum cfg) m o

/-- `build(c)` (rule R69): the template, with no operand substituted into it. -/
def build (cfg : Config) (c : CmdId) : List Byte := (catalog cfg c).template

/-- `decode_reply(c, buf, len)` (rule R69). -/
def decodeReply (cfg : Config) (c : CmdId) (m : View) : Except ErrKind Payload :=
  match (catalog cfg c).kind with
  | .action => .ok {}
  | .inquiry => runRecipe cfg (catalog cfg c).recipe m

/-- The least time in milliseconds between the write and the first read request (rules R99, R134). A lower bound in
time and nothing else: no step reads it (rule R141). -/
def settleTime (cfg : Config) (c : CmdId) : Nat :=
  match (catalog cfg c).settle with
  | .generic => cfg.settleGeneric
  | .long => cfg.settleLong

/-- `build(c)` as an operation: the message is returned, nothing is presented on the write port (rule R69). -/
def execBuild (c : CmdId) (s : State) : Result := .next (returning (.bytes (build s.cfg c)) s)

/-- `decode_reply(c, m)` as an operation: the payload is returned, or the kind the recipe raises (rule R69). -/
def execDecodeReply (c : CmdId) (m : Source) (s : State) : Result :=
  decodeWith m (fun v => .ofExcept .payload (decodeReply s.cfg c v)) s

end Sys2Proof.Machine
end

