-- ==== Sys2Proof/Machine/Classifier.lean ====
section
/-! DEFINITION. The response classifier and the error-code decoder (42_classifier.md). -/

namespace Sys2Proof.Machine

/-- `classify_envelope(e)` (rule R83): the high nibble decides; the socket is not interpreted (rule R88). -/
def classifyEnvelope (e : Byte) : EnvClass :=
  if hi4 e = 0x4 then .ack
  else if hi4 e = 0x5 then .completion
  else .error

/-- `classify_error(d)` (rule R85), in its priority order. -/
def classifyError (d : Byte) : ErrKind :=
  if d = 0x41 then .commandError
  else if d &&& 0x0F = 0x01 then .messageLengthError
  else if d &&& 0x0F = 0x02 then .syntaxError
  else if d &&& 0x0F = 0x03 then .bufferFullError
  else if d &&& 0x0F = 0x04 then .cancelError
  else if d &&& 0x0F = 0x05 then .addressError
  else .unknownError

/-- `classify_envelope` as an operation: the class is returned; "*Flags:* none here" (rule R83). -/
def execClassifyEnvelope (e : Byte) (s : State) : Result := .next (returning (.cls (classifyEnvelope e)) s)

/-- `classify_error` as an operation: the kind is returned; "the function raises nothing itself" (rule R85). -/
def execClassifyError (d : Byte) (s : State) : Result := .next (returning (.kind (classifyError d)) s)

end Sys2Proof.Machine
end

