-- ==== Sys2Proof/Machine/Session.lean ====
section
/-! DEFINITION. The framer's step `RX` (43_framer.md), the sequencer's steps `START`, `SETTLE`, `FINISH`, the session
operations `OPEN`, `CLOSE`, and `EXECUTE`, the whole transaction (44_session.md). -/

namespace Sys2Proof.Machine

/-- Steps 4 and 5 of a transaction once the reply is not an error (rule R100): the recipe into temporaries, then the
commit; an acknowledgement passes like a completion (rule R69). -/
def finishReply (cls : EnvClass) (m : List Byte) (s : State) : State :=
  match decodeReply s.cfg s.cmd (.framed m) with
  | .ok p => commit cls p s
  | .error k => raise k s

/-- `FINISH` on an error envelope (rules R84, R100): the detail byte must stand before the sentinel. -/
def finishError (m : List Byte) (s : State) : State :=
  if m.length < 4 then raise .framingError s
  else raise (classifyError (m.getD 2 0)) s

/-- `FINISH` on a complete frame (rule R100), its tests in the rule's order. -/
def finishFrame (m : List Byte) (s : State) : State :=
  if m.length < 3 then raise .framingError s
  else
    match classifyEnvelope (m.getD 1 0) with
    | .error => finishError m s
    | .ack => finishReply .ack m s
    | .completion => finishReply .completion m s

/-- `FINISH` in the state where `RX` has stored the sentinel (rule R100). -/
def finishStep (s : State) : Result := withFrame s (fun m => .next (finishFrame m s))

/-- `RX(a)` (rules R90 to R94). `FINISH` runs in the step that stores the sentinel (rule R92). -/
def rxStep (a : RxAnswer) (s : State) : Result :=
  if s.phase = .receiving then
    match a with
    | .fail e => .next (raise (.transportError e) s)
    | .byte b =>
      if s.len < s.cfg.maxMsgLen then
        if b = sentinel then finishStep (storeByte b s)
        else if s.len + 1 = s.cfg.maxMsgLen then .next (raise .framingError (storeByte b s))
        else .next (storeByte b s)
      else .refused .notEnabled
  else .refused .notEnabled

/-- The register writes of `START` and the message on the write port, before the transport answers (rule R98). -/
def beginCommand (c : CmdId) (s : State) : State :=
  { s with
    cmd := c
    len := 0
    status := .none
    rclass := .noClass
    val0 := 0
    val1 := 0
    mode := .unknown
    written := s.written ++ [build s.cfg c] }

/-- `START(c, t)` (rule R98). -/
def startCommand (c : CmdId) (t : TxAnswer) (s : State) : State :=
  match t with
  | .ok => { beginCommand c s with phase := .sent }
  | .fail e => raise (.transportError e) (beginCommand c s)

/-- `SETTLE` (rule R99): one untimed step. -/
def settlePhase (s : State) : State := { s with phase := .receiving }

/-- `OPEN(a, t)` (rule R102). -/
def openWith (a : OpenAnswer) (s : State) : State :=
  match a with
  | .fail e =>
    raise (.transportError e)
      { s with len := 0, rclass := .noClass, val0 := 0, val1 := 0, mode := .unknown }
  | .ok t =>
    startCommand .reset t
      { s with life := .opening, cFocus := .unknown, cWb := .unknown, cAe := .unknown }

/-- The `RX` steps of a transaction, one transport answer each, until the phase leaves `Receiving` or the transport
has no further answer (rules R89, R90). What is not consumed stays in the transport (rule R23). -/
def receive : List RxAnswer → State → Result
  | [], s => .next { s with rxq := [] }
  | a :: as, s =>
    match rxStep a { s with rxq := as } with
    | .next s' => if s'.phase = .receiving then receive as s' else .next s'
    | .fault f => .fault f
    | .refused r => .refused r

/-- One transaction (rule R96): `START`, `SETTLE`, `RX`..., `FINISH`, as far as the transport answers. With no answer
to the write, on which rules R97 and R98 are silent, nothing is done: not even the message is presented. The model's
choice (log entry 19). -/
def transact (c : CmdId) (s : State) : Result :=
  if s.accepts (.execute c.code) then
    match s.txq with
    | [] => .next s
    | .fail e :: ts => .next (startCommand c (.fail e) { s with txq := ts })
    | .ok :: ts => receive s.rxq (settlePhase (startCommand c .ok { s with txq := ts }))
  else .refused .requestNotAccepted

/-- `OPEN` (rules R102, R105). -/
def execOpen (a : OpenAnswer) (s : State) : Result :=
  if s.accepts .openSession then .next (openWith a s) else .refused .requestNotAccepted

/-- `CLOSE` (rules R104, R105): with `life = Closed` it is accepted and does nothing. -/
def execClose (s : State) : Result :=
  if s.accepts .closeSession then .next { s with life := .closed } else .refused .requestNotAccepted

/-- `EXECUTE id` (rules R96, R105): the transaction of the command `id` names; 12 to 15 name none. -/
def execExecute (id : Nibble) (s : State) : Result :=
  match CmdId.ofCode id with
  | some c => transact c s
  | none => .refused .requestNotAccepted

/-- `START(c, t)` (rule R98): the request is accepted, or it is the forced `RESET` of `OPEN`. -/
def execStart (c : CmdId) (t : TxAnswer) (s : State) : Result :=
  if s.accepts (.execute c.code) || (s.life == .opening && s.phase.resting && c == .reset) then
    .next (startCommand c t s)
  else .refused .requestNotAccepted

/-- `SETTLE` (rule R99). -/
def execSettle (s : State) : Result :=
  if s.phase = .sent then .next (settlePhase s) else .refused .notEnabled

/-- `RX(a)` (rules R90 to R94). -/
def execRx (a : RxAnswer) (s : State) : Result := rxStep a s

/-- `FINISH` (rule R100). -/
def execFinish (s : State) : Result := finishStep s

end Sys2Proof.Machine
end

