-- ==== Sys2Proof/Machine/Commands.lean ====
section
/-! DEFINITION. The twelve catalog commands (rows of format `OUT5`, 41_catalog.md): each is its whole transaction, with
its template, settle class and recipe taken from its catalog entry. -/

namespace Sys2Proof.Machine

/-- `RESET` (rule R70). -/
def execReset (s : State) : Result := transact .reset s

/-- `CLEAR` (rule R71). -/
def execClear (s : State) : Result := transact .clear s

/-- `INQ_ZOOM_POS` (rule R72). -/
def execInqZoomPos (s : State) : Result := transact .inqZoomPos s

/-- `INQ_FOCUS_POS` (rule R73). -/
def execInqFocusPos (s : State) : Result := transact .inqFocusPos s

/-- `INQ_FOCUS_MODE` (rule R74). -/
def execInqFocusMode (s : State) : Result := transact .inqFocusMode s

/-- `INQ_PANTILT_POS` (rule R75). -/
def execInqPanTiltPos (s : State) : Result := transact .inqPanTiltPos s

/-- `INQ_WB_MODE` (rule R76). -/
def execInqWbMode (s : State) : Result := transact .inqWbMode s

/-- `INQ_AE_MODE` (rule R77). -/
def execInqAeMode (s : State) : Result := transact .inqAeMode s

/-- `INQ_SHUTTER_POS` (rule R78). -/
def execInqShutterPos (s : State) : Result := transact .inqShutterPos s

/-- `INQ_IRIS_POS` (rule R79). -/
def execInqIrisPos (s : State) : Result := transact .inqIrisPos s

/-- `INQ_GAIN_POS` (rule R80). -/
def execInqGainPos (s : State) : Result := transact .inqGainPos s

/-- `INQ_BRIGHT_POS` (rule R81). -/
def execInqBrightPos (s : State) : Result := transact .inqBrightPos s

end Sys2Proof.Machine
end

