-- ==== Sys2Proof/Machine/Reply.lean ====
section
/-! DEFINITION. The reply patterns (rows of format `ENV`, `ERRDET`, `ENUM_FOCUS`, `ENUM_WB`, `ENUM_AE`, `FIELD`): what
the block does with a complete frame that has the pattern at its place (rule R59, log entry 8). `FINISH` is these: it
does on a frame what the pattern of the frame's deciding byte does. -/

namespace Sys2Proof.Machine

/-- The byte `b` stands at offset `o` of a complete frame, strictly before its sentinel (rule R31). -/
def atReplyByte (o : Nat) (b : Byte) (s : State) (k : List Byte → Result) : Result :=
  withFrame s (fun m => if o + 2 ≤ m.length ∧ m[o]? = some b then k m else .refused .notEnabled)

/-- The error-code patterns stand at byte 2 of an error-class reply (rules R52, R84): the transaction ends with the
pattern's kind (rule R121). -/
def atErrorDetail (d : Byte) (k : ErrKind) (s : State) : Result :=
  atReplyByte 2 d s (fun m =>
    if classifyEnvelope (m.getD 1 0) = .error then .next (raise k s) else .refused .notEnabled)

/-- The mode patterns stand at byte 2 of the reply to their inquiry, when the reply is not an error (rules R53 to R55,
R120): the outcome is a mode, which is committed (rules R100, R106), or `UnknownError`. -/
def atModeByte (c : CmdId) (b : Byte) (v : Option ModeVal) (s : State) : Result :=
  atReplyByte 2 b s (fun m =>
    if s.cmd = c ∧ classifyEnvelope (m.getD 1 0) ≠ .error then
      match v with
      | some v => .next (commit (classifyEnvelope (m.getD 1 0)) { mode := some v } s)
      | none => .next (raise .unknownError s)
    else .refused .notEnabled)

/-- `ENV_ACK` (rules R45, R83, R87): the reply is an acknowledgement; the recipe runs and its result is committed. -/
def execEnvAck (socket : Nibble) (s : State) : Result :=
  atReplyByte 1 (byteOf 4 socket) s (fun m => .next (finishReply .ack m s))

/-- `ENV_COMPLETION` (rules R45, R83): the reply is a completion; the recipe runs and its result is committed. -/
def execEnvCompletion (socket : Nibble) (s : State) : Result :=
  atReplyByte 1 (byteOf 5 socket) s (fun m => .next (finishReply .completion m s))

/-- `ENV_ERROR` (rules R45, R83, R84): the reply is an error; the detail byte is classified and its kind raised, or
`FramingError` when there is none. The row is the default arm, so `cls` is neither 4 nor 5. -/
def execEnvError (cls socket : Nibble) (s : State) : Result :=
  atReplyByte 1 (byteOf cls socket) s (fun m =>
    if cls = 4 ∨ cls = 5 then .refused .notEnabled else .next (finishError m s))

/-- `ERR_COMMAND` (rules R52, R115): tested before the low-nibble codes. -/
def execErrCommand (s : State) : Result := atErrorDetail 0x41 .commandError s

/-- `ERR_MESSAGE_LENGTH` (rules R52, R110): low nibble 1, and not `0x41`, which an earlier row matches. -/
def execErrMessageLength (hi : Nibble) (s : State) : Result :=
  if hi = 4 then .refused .notEnabled else atErrorDetail (byteOf hi 1) .messageLengthError s

/-- `ERR_SYNTAX` (rules R52, R111): low nibble 2, high nibble ignored. -/
def execErrSyntax (hi : Nibble) (s : State) : Result := atErrorDetail (byteOf hi 2) .syntaxError s

/-- `ERR_BUFFER_FULL` (rules R52, R112): low nibble 3, high nibble ignored. -/
def execErrBufferFull (hi : Nibble) (s : State) : Result := atErrorDetail (byteOf hi 3) .bufferFullError s

/-- `ERR_CANCEL` (rules R52, R113): low nibble 4, high nibble ignored. -/
def execErrCancel (hi : Nibble) (s : State) : Result := atErrorDetail (byteOf hi 4) .cancelError s

/-- `ERR_ADDRESS` (rules R52, R114): low nibble 5, high nibble ignored. -/
def execErrAddress (hi : Nibble) (s : State) : Result := atErrorDetail (byteOf hi 5) .addressError s

/-- `ERR_UNKNOWN` (rules R52, R116): the default arm, a byte no earlier row matches. -/
def execErrUnknown (d : Byte) (s : State) : Result :=
  if lo4 d = 1 ∨ lo4 d = 2 ∨ lo4 d = 3 ∨ lo4 d = 4 ∨ lo4 d = 5 then .refused .notEnabled
  else atErrorDetail d .unknownError s

/-- `FOCUS_AUTO` (rules R53, R74). -/
def execFocusAuto (s : State) : Result := atModeByte .inqFocusMode 0x02 (some .auto) s

/-- `FOCUS_MANUAL` (rules R53, R74). -/
def execFocusManual (s : State) : Result := atModeByte .inqFocusMode 0x03 (some .manual) s

/-- `FOCUS_OTHER` (rules R53, R74): "not silently defaulted". -/
def execFocusOther (b : Byte) (s : State) : Result :=
  if b = 0x02 ∨ b = 0x03 then .refused .notEnabled else atModeByte .inqFocusMode b none s

/-- `WB_AUTO` (rules R54, R76): the key is a parameter. -/
def execWbAuto (s : State) : Result := atModeByte .inqWbMode s.cfg.wbAuto (some .auto) s

/-- `WB_INDOOR` (rules R54, R76): the key is a parameter. -/
def execWbIndoor (s : State) : Result := atModeByte .inqWbMode s.cfg.wbIndoor (some .indoor) s

/-- `WB_OUTDOOR` (rules R54, R76): the key is a parameter. -/
def execWbOutdoor (s : State) : Result := atModeByte .inqWbMode s.cfg.wbOutdoor (some .outdoor) s

/-- `WB_ONEPUSH` (rules R54, R76): the key is a parameter. -/
def execWbOnePush (s : State) : Result := atModeByte .inqWbMode s.cfg.wbOnePush (some .onePush) s

/-- `WB_MANUAL` (rules R54, R76): the key `0x05` is given by SV. -/
def execWbManual (s : State) : Result := atModeByte .inqWbMode 0x05 (some .manual) s

/-- `WB_OTHER` (rules R54, R76): a byte that is no key of the table. -/
def execWbOther (b : Byte) (s : State) : Result :=
  if (wbKeys s.cfg).contains b then .refused .notEnabled else atModeByte .inqWbMode b none s

/-- `AE_AUTO` (rules R55, R77): the key is a parameter. -/
def execAeAuto (s : State) : Result := atModeByte .inqAeMode s.cfg.aeAuto (some .auto) s

/-- `AE_MANUAL` (rules R55, R77): the key is a parameter. -/
def execAeManual (s : State) : Result := atModeByte .inqAeMode s.cfg.aeManual (some .manual) s

/-- `AE_SHUTTER` (rules R55, R77): the key is a parameter. -/
def execAeShutter (s : State) : Result := atModeByte .inqAeMode s.cfg.aeShutter (some .shutter) s

/-- `AE_IRIS` (rules R55, R77): the key is a parameter. -/
def execAeIris (s : State) : Result := atModeByte .inqAeMode s.cfg.aeIris (some .iris) s

/-- `AE_BRIGHT` (rules R55, R77): the key is a parameter. -/
def execAeBright (s : State) : Result := atModeByte .inqAeMode s.cfg.aeBright (some .bright) s

/-- `AE_OTHER` (rules R55, R77): a byte that is no key of the table. -/
def execAeOther (b : Byte) (s : State) : Result :=
  if (aeKeys s.cfg).contains b then .refused .notEnabled else atModeByte .inqAeMode b none s

/-- `FIELD_WORD` (rule R49): `xxxxAAAA xxxxBBBB xxxxCCCC xxxxDDDD` is the word `AAAABBBBCCCCDDDD`. A layout, which
matches nothing (rule R59): the unpacked word is returned and no register changes. -/
def execFieldWord (a b c d : Nibble) (s : State) : Result := .next (returning (.word (wordOfNibbles a b c d)) s)

/-- `FIELD_SHORT` (rule R50): `xxxxPPPP xxxxQQQQ` is `00000000PPPPQQQQ`. -/
def execFieldShort (p q : Nibble) (s : State) : Result := .next (returning (.word (shortOfNibbles p q)) s)

/-- `FIELD_BYTE` (rule R51): all 8 bits significant. -/
def execFieldByte (v : Byte) (s : State) : Result := .next (returning (.byte v) s)

end Sys2Proof.Machine
end

