-- ==== Sys2Proof/Machine/Dispatch.lean ====
section
/-! DEFINITION. One arm per constructor of `Instr`. -/

namespace Sys2Proof.Machine

def exec (i : Instr) (s : State) : Host.Outcome State Fault Refusal :=
  match i with
  | .reset => Sys2Proof.Machine.execReset s
  | .clear => Sys2Proof.Machine.execClear s
  | .inqZoomPos => Sys2Proof.Machine.execInqZoomPos s
  | .inqFocusPos => Sys2Proof.Machine.execInqFocusPos s
  | .inqFocusMode => Sys2Proof.Machine.execInqFocusMode s
  | .inqPanTiltPos => Sys2Proof.Machine.execInqPanTiltPos s
  | .inqWbMode => Sys2Proof.Machine.execInqWbMode s
  | .inqAeMode => Sys2Proof.Machine.execInqAeMode s
  | .inqShutterPos => Sys2Proof.Machine.execInqShutterPos s
  | .inqIrisPos => Sys2Proof.Machine.execInqIrisPos s
  | .inqGainPos => Sys2Proof.Machine.execInqGainPos s
  | .inqBrightPos => Sys2Proof.Machine.execInqBrightPos s
  | .envAck socket => Sys2Proof.Machine.execEnvAck socket s
  | .envCompletion socket => Sys2Proof.Machine.execEnvCompletion socket s
  | .envError cls socket => Sys2Proof.Machine.execEnvError cls socket s
  | .errCommand => Sys2Proof.Machine.execErrCommand s
  | .errMessageLength hi => Sys2Proof.Machine.execErrMessageLength hi s
  | .errSyntax hi => Sys2Proof.Machine.execErrSyntax hi s
  | .errBufferFull hi => Sys2Proof.Machine.execErrBufferFull hi s
  | .errCancel hi => Sys2Proof.Machine.execErrCancel hi s
  | .errAddress hi => Sys2Proof.Machine.execErrAddress hi s
  | .errUnknown d => Sys2Proof.Machine.execErrUnknown d s
  | .focusAuto => Sys2Proof.Machine.execFocusAuto s
  | .focusManual => Sys2Proof.Machine.execFocusManual s
  | .focusOther b => Sys2Proof.Machine.execFocusOther b s
  | .wbAuto => Sys2Proof.Machine.execWbAuto s
  | .wbIndoor => Sys2Proof.Machine.execWbIndoor s
  | .wbOutdoor => Sys2Proof.Machine.execWbOutdoor s
  | .wbOnePush => Sys2Proof.Machine.execWbOnePush s
  | .wbManual => Sys2Proof.Machine.execWbManual s
  | .wbOther b => Sys2Proof.Machine.execWbOther b s
  | .aeAuto => Sys2Proof.Machine.execAeAuto s
  | .aeManual => Sys2Proof.Machine.execAeManual s
  | .aeShutter => Sys2Proof.Machine.execAeShutter s
  | .aeIris => Sys2Proof.Machine.execAeIris s
  | .aeBright => Sys2Proof.Machine.execAeBright s
  | .aeOther b => Sys2Proof.Machine.execAeOther b s
  | .fieldWord a b c d => Sys2Proof.Machine.execFieldWord a b c d s
  | .fieldShort p q => Sys2Proof.Machine.execFieldShort p q s
  | .fieldByte v => Sys2Proof.Machine.execFieldByte v s
  | .openSession a => Sys2Proof.Machine.execOpen a s
  | .closeSession => Sys2Proof.Machine.execClose s
  | .execute id => Sys2Proof.Machine.execExecute id s
  | .start c t => Sys2Proof.Machine.execStart c t s
  | .settle => Sys2Proof.Machine.execSettle s
  | .rx a => Sys2Proof.Machine.execRx a s
  | .finish => Sys2Proof.Machine.execFinish s
  | .encodeByte value width => Sys2Proof.Machine.execEncodeByte value width s
  | .decodeByte m o => Sys2Proof.Machine.execDecodeByte m o s
  | .decodeWord m o => Sys2Proof.Machine.execDecodeWord m o s
  | .encodeWord v => Sys2Proof.Machine.execEncodeWord v s
  | .decodeShort m o => Sys2Proof.Machine.execDecodeShort m o s
  | .encodeShort v => Sys2Proof.Machine.execEncodeShort v s
  | .classifyEnvelope e => Sys2Proof.Machine.execClassifyEnvelope e s
  | .classifyError d => Sys2Proof.Machine.execClassifyError d s
  | .build c => Sys2Proof.Machine.execBuild c s
  | .decodeReply c m => Sys2Proof.Machine.execDecodeReply c m s

end Sys2Proof.Machine
end

