-- ==== Sys2Proof/Machine/Fetch.lean ====
section
/-! DEFINITION. What the sequencer does next (log entry 4). The block has no program counter: `phase` plays its part
(rules R7, R12). What is presented from outside comes first; then the step the phase enables; in a resting phase, the
host's next request. An answer the step needs is taken from the transport; with no answer there is no step (rules R90,
R137; for what is presented in the slot, log entry 19). -/

namespace Sys2Proof.Machine

/-- What the sequencer selected. -/
inductive Fetched where
  /-- The instruction, and the state it runs in: what was presented, requested or answered has been taken. -/
  | run (i : Instr) (s : State)
  /-- No step is enabled: the host presents nothing, or the transport has not answered. -/
  | wait
  /-- The reset event (rule R129), and the state it is applied to. -/
  | reset (s : State)
  | refuse (r : Refusal)
  deriving DecidableEq, Repr

/-- What is presented from outside. Bytes are decoded at their place, and nothing may follow the pattern. What is
presented is taken out of the slot whatever it then does: a transaction that finds no answer to its write is so lost
without effect, where a request in `hostq` would wait. The spec is silent here; the model's choice (log entry 19). -/
def fetchPresented (p : Presented) (s : State) : Fetched :=
  match p with
  | .hwReset => .reset { s with slot := none }
  | .op i => .run i { s with slot := none }
  | .wire f bs =>
    match decode s.cfg f bs with
    | .ok (i, []) => .run i { s with slot := none }
    | .ok (_, _ :: _) => .refuse .undecodable
    | .error _ => .refuse .undecodable

/-- The host's request in a resting phase (rules R24, R105), with the transport's answers it needs (rule R97).
`EXECUTE` begins with `START` (rule R98). A request that is not accepted is refused (rule R105). -/
def fetchRequest (r : Request) (q : List Request) (s : State) : Fetched :=
  if s.accepts r then
    match r with
    | .closeSession => .run .closeSession { s with hostq := q }
    | .openSession =>
      match s.acqq, s.txq with
      | [], _ => .wait
      | .fail e :: as, _ => .run (.openSession (.fail e)) { s with hostq := q, acqq := as }
      | .ok :: _, [] => .wait
      | .ok :: as, t :: ts => .run (.openSession (.ok t)) { s with hostq := q, acqq := as, txq := ts }
    | .execute id =>
      match CmdId.ofCode id, s.txq with
      | some c, t :: ts => .run (.start c t) { s with hostq := q, txq := ts }
      | some _, [] => .wait
      | none, _ => .refuse .requestNotAccepted
  else .refuse .requestNotAccepted

/-- The sequencer's choice. -/
def fetch (s : State) : Fetched :=
  match s.slot with
  | some p => fetchPresented p s
  | none =>
    match s.phase with
    | .sent => .run .settle s
    | .receiving =>
      match s.rxq with
      | [] => .wait
      | a :: as => .run (.rx a) { s with rxq := as }
    | .idle | .completed | .faulted =>
      match s.hostq with
      | [] => .wait
      | r :: q => fetchRequest r q s

/-- A state in which the presented pattern has its place: a session and an answered write for an outbound message; a
complete frame, in phase `Receiving`, for a reply pattern. -/
def placeFor (f : Format) (bs : List Byte) (s : State) : State :=
  let framed (c : CmdId) (m : List Byte) : State :=
    { s with
      phase := .receiving
      cmd := c
      buf := s.buf.writeBytes 0 m
      len := m.length
      slot := some (.wire f bs) }
  match f with
  | .out5 => { s with life := .opened, phase := .idle, txq := .ok :: s.txq, slot := some (.wire f bs) }
  | .env => framed s.cmd (0x90 :: bs ++ [sentinel])
  | .errDet => framed s.cmd (0x90 :: 0x60 :: bs ++ [sentinel])
  | .enumFocus => framed .inqFocusMode (0x90 :: 0x50 :: bs ++ [sentinel])
  | .enumWb => framed .inqWbMode (0x90 :: 0x50 :: bs ++ [sentinel])
  | .enumAe => framed .inqAeMode (0x90 :: 0x50 :: bs ++ [sentinel])
  | .fieldWord => { s with slot := some (.wire f bs) }
  | .fieldShort => { s with slot := some (.wire f bs) }
  | .fieldByte => { s with slot := some (.wire f bs) }

end Sys2Proof.Machine
end

