-- ==== Sys2Proof/Machine/Step.lean ====
section
/-! DEFINITION. One step of the machine: the sequencer selects, `exec` runs. -/

namespace Sys2Proof.Machine

/-- One step. An invalid configuration is refused before anything runs (rule R48). With nothing to do the state stays
as it is (rule R137: the block waits). -/
def step (s : State) : Host.Outcome State Fault Refusal :=
  if s.cfg.valid then
    match fetch s with
    | .run i s' => exec i s'
    | .wait => .next s
    | .reset s' => .next (resetEvent s')
    | .refuse r => .refused r
  else .refused .invalidConfiguration

/-- `s` with a pattern of the opcode table presented to the sequencer, in a state that has a place for it (log entries
4 and 6). Bits that are no pattern leave an empty one, which the fetch refuses. -/
def State.withFetchWord (s : State) (nbits w : Nat) : State :=
  match tableWord nbits w with
  | some (f, bs) => placeFor f bs s
  | none => { s with slot := some (.wire .out5 []) }

end Sys2Proof.Machine
end

