-- ==== Sys2Proof/Machine/Flags.lean ====
section
/-! DEFINITION. `status` and `rclass` are the block's only condition flags (rules R16, R17), and no operation reads
them: they are for the host. Here is what the host reads: the result port (rule R27) with the binary codes of rule
R60, and the return value of `execute`. -/

namespace Sys2Proof.Machine

/-- Rule R60. -/
def Life.code : Life → Nat
  | .closed => 0
  | .opening => 1
  | .opened => 2

/-- Rule R60. -/
def Phase.code : Phase → Nat
  | .idle => 0
  | .sent => 1
  | .receiving => 2
  | .completed => 3
  | .faulted => 4

/-- Rule R60: the wire nibble that produces the class. -/
def RClass.code : RClass → Nat
  | .noClass => 0
  | .ack => 4
  | .completion => 5

/-- Rule R60: the code of the status; the kind stands beside it. -/
def Status.code : Status → Nat
  | .none => 0
  | .ok => 1
  | .err _ => 2

/-- The cause number (rules R60, R109). -/
def ErrKind.cause : ErrKind → Nat
  | .messageLengthError => 1
  | .syntaxError => 2
  | .bufferFullError => 3
  | .cancelError => 4
  | .addressError => 5
  | .commandError => 6
  | .unknownError => 7
  | .transportError .timeout => 8
  | .transportError .io => 9
  | .framingError => 10

/-- Rule R60. -/
def ModeVal.code : ModeVal → Nat
  | .unknown => 0
  | .auto => 1
  | .manual => 2
  | .indoor => 3
  | .outdoor => 4
  | .onePush => 5
  | .shutter => 6
  | .iris => 7
  | .bright => 8

/-- The registers readable by the host at any time (rule R27), in their binary codes (rule R60); `cause` is the code
beside an `Err` status. -/
structure ResultPort where
  life : Nat
  phase : Nat
  status : Nat
  cause : Option Nat
  rclass : Nat
  val0 : Word
  val1 : Word
  mode : Nat
  cFocus : Nat
  cWb : Nat
  cAe : Nat
  deriving DecidableEq, Repr

/-- What the host reads in a state (rule R27). `buf`, `len` and `cmd` are internal. -/
def State.resultPort (s : State) : ResultPort where
  life := s.life.code
  phase := s.phase.code
  status := s.status.code
  cause := match s.status with
    | .err k => some k.cause
    | _ => none
  rclass := s.rclass.code
  val0 := s.val0
  val1 := s.val1
  mode := s.mode.code
  cFocus := s.cFocus.code
  cWb := s.cWb.code
  cAe := s.cAe.code

/-- The result registers a recipe names (rules R18, R19, R69), read from the state. -/
def Recipe.named (r : Recipe) (s : State) : Payload :=
  match r with
  | .noPayload => {}
  | .word _ => { val0 := some s.val0 }
  | .wordPair _ _ => { val0 := some s.val0, val1 := some s.val1 }
  | .short _ => { val0 := some s.val0 }
  | .focusMode _ => { mode := some s.mode }
  | .wbMode _ => { mode := some s.mode }
  | .aeMode _ => { mode := some s.mode }

/-- The return value of `execute` (rule R27): "the tuple (`status`, and when `status = Ok` the registers the recipe
names)". -/
structure ReturnValue where
  status : Status
  payload : Payload
  deriving DecidableEq, Repr

/-- What `execute` returns, read in the state its transaction ends in: a view of the registers, which hold it until the
next `START` (rule R16, decision D16). -/
def State.returnValue (s : State) : ReturnValue where
  status := s.status
  payload := if s.status = .ok then (catalog s.cfg s.cmd).recipe.named s else {}

end Sys2Proof.Machine
end

