-- ==== Sys2Proof/Safety.lean ====
section
/-! DEFINITION. What a safe run is: the invariant of the block, in the terms the statements use. -/

namespace Sys2Proof.Machine

/-- The relations between the registers that hold at reset and that every step keeps. -/
structure State.Inv (s : State) : Prop where
  /-- The configuration is one the model runs (rule R48). -/
  cfgValid : s.cfg.valid = true
  /-- The buffer is in its canonical form and holds no offset past its capacity (rule R14). -/
  bufWf : s.buf.wf
  bufInside : ∀ c ∈ s.buf, c.1 < s.cfg.maxMsgLen
  /-- Every offset within the capacity holds a byte (rules R14, R29), so every accumulated byte is there. -/
  bufWhole : ∀ i < s.cfg.maxMsgLen, (s.buf.read i).isSome
  /-- `len` never exceeds `MAX_MSG_LEN` (rule R15). -/
  lenBound : s.len ≤ s.cfg.maxMsgLen
  /-- In `Sent` nothing was received (rule R98). -/
  sentEmpty : s.phase = .sent → s.len = 0
  /-- In `Receiving` there is room for a byte (rule R91) and no sentinel was stored (rules R92, R95). -/
  receivingRoom : s.phase = .receiving → s.len < s.cfg.maxMsgLen
  receivingOpen : s.phase = .receiving → ∀ i < s.len, s.buf.read i ≠ some sentinel
  /-- `phase` and `status` agree (rule R16). -/
  completedOk : s.phase = .completed ↔ s.status = .ok
  faultedErr : s.phase = .faulted ↔ ∃ k, s.status = .err k
  /-- `rclass` names a class exactly on success (rule R17). -/
  classOk : s.rclass ≠ .noClass ↔ s.status = .ok
  /-- No partial results (rules R18, R19). -/
  noPartial : s.status ≠ .ok → s.val0 = 0 ∧ s.val1 = 0 ∧ s.mode = .unknown
  /-- While `life = Opening` the forced `RESET` runs, and nothing else (rule R103). -/
  openingReset : s.life = .opening → (s.phase = .sent ∨ s.phase = .receiving) ∧ s.cmd = .reset
  /-- A transaction runs only in a session (rules R98, R105). -/
  busySession : s.phase = .sent ∨ s.phase = .receiving → s.life ≠ .closed

/-- A step that does not stop with a fault. -/
def stepSafe (s : State) : Prop := ∀ f, step s ≠ .fault f

end Sys2Proof.Machine
end

