-- ==== Sys2Proof/Certificates/Slice0/Obligations.lean ====
section
/-! DEFINITION. The statements about the model. A clause that rests on a decision of spec/92_eei_decisions.md names it.
An equality `exec i s = .next { s with … }` gives the result, that the instruction completes, and its frame: every
field of the state that the braces do not name is unchanged. -/

open Sys2Proof Sys2Proof.Machine

/-! ### Encodings -/

/-- Patterns written out from the opcode table's `encoding` strings and rules R47, R49, R50, R52 to R55 decode to the
instruction they stand for. The templates other than RESET, CLEAR and INQ_ZOOM_POS and the keys other than `0x02`,
`0x03` (focus) and `0x05` (white balance) are defaults (log entry 3). -/
def Obligations.PatternsDecodeToTheirRows : Prop :=
  decode Config.default .out5 [0b10000001, 0b00000001, 0b00000110, 0b00000101, 0b11111111] = .ok (.reset, []) ∧
  decode Config.default .out5 [0b10000001, 0b00000001, 0b00000000, 0b00000001, 0b11111111] = .ok (.clear, []) ∧
  decode Config.default .out5 [0b10000001, 0b00001001, 0b00000100, 0b01000111, 0b11111111] = .ok (.inqZoomPos, []) ∧
  decode Config.default .out5 [0b10000001, 0b00001001, 0b00000110, 0b00010010, 0b11111111] = .ok (.inqPanTiltPos, []) ∧
  decode Config.default .env [0b01000001] = .ok (.envAck 1, []) ∧
  decode Config.default .env [0b01011111] = .ok (.envCompletion 15, []) ∧
  decode Config.default .env [0b01100000] = .ok (.envError 6 0, []) ∧
  decode Config.default .errDet [0b01000001] = .ok (.errCommand, []) ∧
  decode Config.default .errDet [0b11110001] = .ok (.errMessageLength 15, []) ∧
  decode Config.default .errDet [0b01000010] = .ok (.errSyntax 4, []) ∧
  decode Config.default .errDet [0b10011001] = .ok (.errUnknown 0x99, []) ∧
  decode Config.default .enumFocus [0b00000010] = .ok (.focusAuto, []) ∧
  decode Config.default .enumFocus [0b00010010] = .ok (.focusOther 0x12, []) ∧
  decode Config.default .enumWb [0b00000101] = .ok (.wbManual, []) ∧
  decode Config.default .enumAe [0b00001010] = .ok (.aeShutter, []) ∧
  decode Config.default .fieldWord [0b00011010, 0b00101011, 0b00111100, 0b01001101] =
    .ok (.fieldWord 0xA 0xB 0xC 0xD, []) ∧
  decode Config.default .fieldShort [0b00000001, 0b00000101] = .ok (.fieldShort 1 5, []) ∧
  decode Config.default .fieldByte [0b10100010] = .ok (.fieldByte 0xA2, [])

/-- Decode and encode agree: for every instruction that has a wire pattern, in every valid configuration whose
templates differ, the decoder reads the instruction back from its bytes, whatever follows them. -/
def Obligations.DecodeInvertsEncode : Prop :=
  ∀ (cfg : Config) (i : Instr) (f : Format) (bs rest : List Byte),
    cfg.valid = true → cfg.templatesDistinct = true → i.wf cfg = true → encode cfg i = some (f, bs) →
      decode cfg f (bs ++ rest) = .ok (i, rest)

/-- The other direction, where one byte is the whole pattern: every one of the 256 bytes decodes at every such place,
to a well-formed instruction whose encoding is that byte (the default arms leave nothing out, rule R56). -/
def Obligations.EveryByteDecodesAndEncodesBack : Prop :=
  ∀ (cfg : Config) (f : Format) (b : Byte) (rest : List Byte),
    f = .env ∨ f = .errDet ∨ f = .enumFocus ∨ f = .enumWb ∨ f = .enumAe ∨ f = .fieldByte →
      ∃ i, decode cfg f (b :: rest) = .ok (i, rest) ∧ i.wf cfg = true ∧ encode cfg i = some (f, [b])

/-- The constraints every template must meet (rule R48), for every command and every configuration the model runs, and
the refusal of a configuration that breaks them. -/
def Obligations.TemplatesMeetTheirConstraintsOrAreRefused : Prop :=
  (∀ (cfg : Config) (c : CmdId), cfg.valid = true →
      template cfg c ≠ [] ∧ (template cfg c).getLast? = some 0xFF ∧
      (∀ b ∈ (template cfg c).dropLast, b ≠ 0xFF) ∧ (template cfg c).head? = some 0x81) ∧
  (∀ (s : State) (c : CmdId),
      template s.cfg c = [] ∨ (template s.cfg c).getLast? ≠ some 0xFF ∨
      (∃ b ∈ (template s.cfg c).dropLast, b = 0xFF) ∨ (template s.cfg c).head? ≠ some 0x81 →
        step s = .refused .invalidConfiguration)

/-! ### Reset -/

/-- The values of rules R28 and R130 (decision D20), and what the block accepts then: `OPEN`, and `CLOSE`, which does
nothing. The buffer has its capacity of bytes, of which nothing is said (log entry 7). -/
def Obligations.ResetStateAndWhatItAccepts : Prop :=
  State.reset.life = .closed ∧ State.reset.phase = .idle ∧ State.reset.cmd.code = 0 ∧ State.reset.len = 0 ∧
  State.reset.status = .none ∧ State.reset.rclass = .noClass ∧ State.reset.val0 = 0 ∧ State.reset.val1 = 0 ∧
  State.reset.mode = .unknown ∧ State.reset.cFocus = .unknown ∧ State.reset.cWb = .unknown ∧
  State.reset.cAe = .unknown ∧
  (∀ o, (State.reset.buf.read o).isSome ↔ o < State.reset.cfg.maxMsgLen) ∧
  (∀ r, State.reset.accepts r = true ↔ r = .openSession ∨ r = .closeSession) ∧
  exec .closeSession State.reset = .next State.reset

/-- The reset event (rule R129, decision D20) puts every register to its reset value from any state; it consumes no
transport answer, presents nothing on the write port, and leaves the transport and the host alone. The model's choices:
the event is presented in the slot and taken as a step, and `ret` stays (log entry 12); the buffer, which R28 leaves
unspecified, holds free bytes (log entry 7). -/
def Obligations.ResetEventInAnyState : Prop :=
  ∀ s : State, s.cfg.valid = true → s.slot = some .hwReset →
    step s = .next
      { State.reset with
        cfg := s.cfg, hostq := s.hostq, acqq := s.acqq, txq := s.txq, rxq := s.rxq, written := s.written,
        slot := none, ret := s.ret, buf := freshBuffer s.free s.cfg.maxMsgLen, free := s.free + s.cfg.maxMsgLen }

/-! ### The codec -/

/-- `encode_byte` (rule R61): one raw byte, whatever `width`; out of range is refused (decision D21). -/
def Obligations.EncodeByteReturnsTheByteOrRefuses : Prop :=
  ∀ (v w : Nat) (s : State),
    (v ≤ 255 → exec (.encodeByte v w) s = .next { s with ret := .bytes [BitVec.ofNat 8 v] }) ∧
    (255 < v → exec (.encodeByte v w) s = .refused .operandOutOfRange)

/-- `decode_byte` (rule R62) on a bare message, a framed message and the complete frame in the receive buffer, which is a
framed message: the whole byte in bounds, `FramingError` out of bounds. The model's choices: called by name, outside a
transaction, the function returns the kind it raises and no register changes (log entry 5), and a call by name on the
receive buffer is enabled where `FINISH` reads it (log entry 17). -/
def Obligations.DecodeByteReturnsTheWholeByte : Prop :=
  ∀ (m : List Byte) (o : Nat) (s : State),
    (∀ b, m[o]? = some b → exec (.decodeByte (.bare m) o) s = .next { s with ret := .byte b }) ∧
    (m.length < o + 1 → exec (.decodeByte (.bare m) o) s = .next { s with ret := .raised .framingError }) ∧
    (∀ b, m[o]? = some b → o + 1 ≤ m.length - 1 →
      exec (.decodeByte (.framed m) o) s = .next { s with ret := .byte b }) ∧
    (m.length - 1 < o + 1 → exec (.decodeByte (.framed m) o) s = .next { s with ret := .raised .framingError }) ∧
    (s.phase = .receiving → s.frame = some m → m.getLast? = some 0xFF →
      exec (.decodeByte .buffer o) s = exec (.decodeByte (.framed m) o) s)

/-- `decode_word` (rule R63, byte order of rule R33): the low nibbles of four bytes shifted 12, 8, 4, 0, on a bare
message, a framed message and the complete frame in the receive buffer; `FramingError` when any of the four is out of
bounds. The model's choices: called by name, the function returns the kind it raises and no register changes (log entry
5), and a call by name on the receive buffer is enabled where `FINISH` reads it (log entry 17). -/
def Obligations.DecodeWordUnpacksFourLowNibbles : Prop :=
  ∀ (m : List Byte) (o : Nat) (s : State),
    (∀ b0 b1 b2 b3, m[o]? = some b0 → m[o + 1]? = some b1 → m[o + 2]? = some b2 → m[o + 3]? = some b3 →
      let w : Word := ((b0 &&& 0x0F).zeroExtend 16 <<< 12) ||| ((b1 &&& 0x0F).zeroExtend 16 <<< 8) |||
        ((b2 &&& 0x0F).zeroExtend 16 <<< 4) ||| (b3 &&& 0x0F).zeroExtend 16
      exec (.decodeWord (.bare m) o) s = .next { s with ret := .word w } ∧
      (o + 4 ≤ m.length - 1 → exec (.decodeWord (.framed m) o) s = .next { s with ret := .word w })) ∧
    (m.length < o + 4 → exec (.decodeWord (.bare m) o) s = .next { s with ret := .raised .framingError }) ∧
    (m.length - 1 < o + 4 → exec (.decodeWord (.framed m) o) s = .next { s with ret := .raised .framingError }) ∧
    (s.phase = .receiving → s.frame = some m → m.getLast? = some 0xFF →
      exec (.decodeWord .buffer o) s = exec (.decodeWord (.framed m) o) s)

/-- `encode_word` (rule R64, decision D8): four bytes, high nibbles zero, most significant nibble first; above
`0xFFFF` refused. -/
def Obligations.EncodeWordPacksFourNibbles : Prop :=
  ∀ (v : Nat) (s : State),
    (v ≤ 0xFFFF → ∀ b0 b1 b2 b3 : Byte, b0.toNat = v / 4096 → b1.toNat = v / 256 % 16 → b2.toNat = v / 16 % 16 →
      b3.toNat = v % 16 → exec (.encodeWord v) s = .next { s with ret := .bytes [b0, b1, b2, b3] }) ∧
    (0xFFFF < v → exec (.encodeWord v) s = .refused .operandOutOfRange)

/-- `decode_short` (rule R65) on a bare message, a framed message and the complete frame in the receive buffer: with
`NIBBLE8` (decision D7) two low nibbles; with `BYTE16` (the reading D7 sets aside) two whole bytes; `FramingError` out of
bounds. And the layout of rule R50, which is that of D7 (log entry 10): high nibbles ignored on decode and zero on
encode; run, it returns the value it lays out (log entry 8). The model's choices: called by name, `decode_short` returns
the kind it raises and no register changes (log entry 5), and a call by name on the receive buffer is enabled where
`FINISH` reads it (log entry 17). -/
def Obligations.DecodeShortUnpacksItsTwoBytes : Prop :=
  ∀ (m : List Byte) (o : Nat) (s : State),
    (∀ p q, m[o]? = some p → m[o + 1]? = some q →
      let w : Word := match s.cfg.shortRule with
        | .nibble8 => ((p &&& 0x0F).zeroExtend 16 <<< 4) ||| (q &&& 0x0F).zeroExtend 16
        | .byte16 => (p.zeroExtend 16 <<< 8) ||| q.zeroExtend 16
      exec (.decodeShort (.bare m) o) s = .next { s with ret := .word w } ∧
      (o + 2 ≤ m.length - 1 → exec (.decodeShort (.framed m) o) s = .next { s with ret := .word w })) ∧
    (m.length < o + 2 → exec (.decodeShort (.bare m) o) s = .next { s with ret := .raised .framingError }) ∧
    (m.length - 1 < o + 2 → exec (.decodeShort (.framed m) o) s = .next { s with ret := .raised .framingError }) ∧
    (s.phase = .receiving → s.frame = some m → m.getLast? = some 0xFF →
      exec (.decodeShort .buffer o) s = exec (.decodeShort (.framed m) o) s) ∧
    (∀ p q h0 h1 : Nibble,
      decode s.cfg .fieldShort [h0 ++ p, h1 ++ q] = .ok (.fieldShort p q, []) ∧
      encode s.cfg (.fieldShort p q) = some (.fieldShort, [(0 : Nibble) ++ p, (0 : Nibble) ++ q]) ∧
      exec (.fieldShort p q) s = .next { s with ret := .word ((0 : Byte) ++ (p ++ q)) })

/-- `encode_short` (rule R66, decision D7): with `NIBBLE8` the two nibbles of a value up to `0xFF`, above it refused;
with `BYTE16` the two bytes of a 16-bit value (the model's reverse of the set-aside reading, log entry 10). -/
def Obligations.EncodeShortPacksItsTwoBytes : Prop :=
  ∀ (v : Nat) (s : State),
    (s.cfg.shortRule = .nibble8 →
      (v ≤ 0xFF → exec (.encodeShort v) s =
        .next { s with ret := .bytes [BitVec.ofNat 8 (v / 16), BitVec.ofNat 8 (v % 16)] }) ∧
      (0xFF < v → exec (.encodeShort v) s = .refused .operandOutOfRange)) ∧
    (s.cfg.shortRule = .byte16 →
      (v ≤ 0xFFFF → exec (.encodeShort v) s =
        .next { s with ret := .bytes [BitVec.ofNat 8 (v / 256), BitVec.ofNat 8 (v % 256)] }) ∧
      (0xFFFF < v → exec (.encodeShort v) s = .refused .operandOutOfRange))

/-- The laws (a) to (g) of rule R68, over the short rule `NIBBLE8`. -/
def Obligations.CodecLaws : Prop :=
  (∀ v : Word, decodeWord (.bare (encodeWord v)) 0 = .ok v) ∧
  (∀ a b c d h0 h1 h2 h3 : Nibble,
    decodeWord (.bare [byteOf h0 a, byteOf h1 b, byteOf h2 c, byteOf h3 d]) 0 = .ok (a ++ b ++ c ++ d)) ∧
  (∀ b0 b1 b2 b3 c0 c1 c2 c3 : Byte,
    lo4 b0 = lo4 c0 → lo4 b1 = lo4 c1 → lo4 b2 = lo4 c2 → lo4 b3 = lo4 c3 →
      decodeWord (.bare [b0, b1, b2, b3]) 0 = decodeWord (.bare [c0, c1, c2, c3]) 0) ∧
  (∀ b0 b1 b2 b3 : Byte, ∃ w, decodeWord (.bare [b0, b1, b2, b3]) 0 = .ok w ∧
    encodeWord w = [byteOf 0 (lo4 b0), byteOf 0 (lo4 b1), byteOf 0 (lo4 b2), byteOf 0 (lo4 b3)] ∧
    (encodeWord w = [b0, b1, b2, b3] ↔ hi4 b0 = 0 ∧ hi4 b1 = 0 ∧ hi4 b2 = 0 ∧ hi4 b3 = 0)) ∧
  (∀ v : Word, v.toNat ≤ 0xFF → decodeShort .nibble8 (.bare (encodeShort .nibble8 v)) 0 = .ok v) ∧
  (∀ p q : Byte, decodeShort .nibble8 (.bare [p, q]) 0 = decodeWord (.bare [0, 0, p, q]) 0) ∧
  (∀ v : Byte, decodeByte (.bare (encodeByte v)) 0 = .ok v)

/-- The nibble-packed word (rule R49): on decode the high nibbles are ignored and byte `k` gives bits `15-4k : 12-4k`;
on encode the high nibbles are zero. The scalar byte is the whole byte (rule R51). That a layout, run, returns its value
and changes no register is the model's reading (log entry 8). -/
def Obligations.WordAndByteLayoutsUnpackTheirBits : Prop :=
  ∀ (s : State),
    (∀ a b c d h0 h1 h2 h3 : Nibble,
      decode s.cfg .fieldWord [h0 ++ a, h1 ++ b, h2 ++ c, h3 ++ d] = .ok (.fieldWord a b c d, []) ∧
      encode s.cfg (.fieldWord a b c d) =
        some (.fieldWord, [(0 : Nibble) ++ a, (0 : Nibble) ++ b, (0 : Nibble) ++ c, (0 : Nibble) ++ d]) ∧
      exec (.fieldWord a b c d) s = .next { s with ret := .word (a ++ b ++ c ++ d) }) ∧
    (∀ v : Byte, decode s.cfg .fieldByte [v] = .ok (.fieldByte v, []) ∧
      encode s.cfg (.fieldByte v) = some (.fieldByte, [v]) ∧
      exec (.fieldByte v) s = .next { s with ret := .byte v })

/-! ### The classifier and the catalog -/

/-- `classify_envelope` (rule R83). -/
def Obligations.ClassifyEnvelopeByHighNibble : Prop :=
  ∀ (e : Byte) (s : State),
    (e.toNat / 16 = 4 → exec (.classifyEnvelope e) s = .next { s with ret := .cls .ack }) ∧
    (e.toNat / 16 = 5 → exec (.classifyEnvelope e) s = .next { s with ret := .cls .completion }) ∧
    (e.toNat / 16 ≠ 4 → e.toNat / 16 ≠ 5 → exec (.classifyEnvelope e) s = .next { s with ret := .cls .error })

/-- `classify_error` (rule R85): `0x41` first, then the low nibble, else unknown. -/
def Obligations.ClassifyErrorInPriorityOrder : Prop :=
  ∀ (d : Byte) (s : State),
    exec (.classifyError d) s = .next { s with ret := .kind (
      if d.toNat = 0x41 then .commandError
      else match d.toNat % 16 with
        | 1 => .messageLengthError
        | 2 => .syntaxError
        | 3 => .bufferFullError
        | 4 => .cancelError
        | 5 => .addressError
        | _ => .unknownError) }

/-- `build` (rule R69): the template of the command, with the three SV gives byte for byte (rule R47); nothing is
presented on the write port. -/
def Obligations.BuildReturnsTheTemplate : Prop :=
  ∀ (c : CmdId) (s : State),
    exec (.build c) s = .next { s with ret := .bytes (template s.cfg c) } ∧
    exec (.build .reset) s = .next { s with ret := .bytes [0x81, 0x01, 0x06, 0x05, 0xFF] } ∧
    exec (.build .clear) s = .next { s with ret := .bytes [0x81, 0x01, 0x00, 0x01, 0xFF] } ∧
    exec (.build .inqZoomPos) s = .next { s with ret := .bytes [0x81, 0x09, 0x04, 0x47, 0xFF] }

/-- `decode_reply` (rule R69) with the recipes that yield no mode (rules R70 to R73, R75, R78 to R81), on a framed reply:
what it yields, and `FramingError` for a frame shorter than the recipe needs (rule R57); and on the complete frame in the
receive buffer. The shorts are read by the short rule of the configuration (decision D7). The model's choices: called by
name, the function returns the kind the recipe raises and no register changes (log entry 5), and a call by name on the
receive buffer is enabled where `FINISH` reads it (log entry 17). -/
def Obligations.DecodeReplyYieldsPositions : Prop :=
  ∀ (a e b2 b3 b4 b5 b6 b7 b8 b9 : Byte) (x m : List Byte) (s : State),
    let w (p q r t : Byte) : Word := lo4 p ++ lo4 q ++ lo4 r ++ lo4 t
    (∀ c, c = .reset ∨ c = .clear → exec (.decodeReply c (.framed m)) s = .next { s with ret := .payload {} }) ∧
    (∀ c, c = .inqZoomPos ∨ c = .inqFocusPos →
      exec (.decodeReply c (.framed (a :: e :: b2 :: b3 :: b4 :: b5 :: x ++ [0xFF]))) s =
        .next { s with ret := .payload { val0 := some (w b2 b3 b4 b5) } } ∧
      (m.length < 7 → exec (.decodeReply c (.framed m)) s = .next { s with ret := .raised .framingError })) ∧
    (exec (.decodeReply .inqPanTiltPos
        (.framed (a :: e :: b2 :: b3 :: b4 :: b5 :: b6 :: b7 :: b8 :: b9 :: x ++ [0xFF]))) s =
      .next { s with ret := .payload { val0 := some (w b2 b3 b4 b5), val1 := some (w b6 b7 b8 b9) } }) ∧
    (m.length < 11 → exec (.decodeReply .inqPanTiltPos (.framed m)) s =
      .next { s with ret := .raised .framingError }) ∧
    (∀ c, c = .inqShutterPos ∨ c = .inqIrisPos ∨ c = .inqGainPos ∨ c = .inqBrightPos →
      (s.cfg.shortRule = .nibble8 →
        exec (.decodeReply c (.framed (a :: e :: b2 :: b3 :: b4 :: b5 :: x ++ [0xFF]))) s =
          .next { s with ret := .payload { val0 := some ((0 : Byte) ++ (lo4 b4 ++ lo4 b5)) } }) ∧
      (s.cfg.shortRule = .byte16 →
        exec (.decodeReply c (.framed (a :: e :: b2 :: b3 :: b4 :: b5 :: x ++ [0xFF]))) s =
          .next { s with ret := .payload { val0 := some (b4 ++ b5) } }) ∧
      (m.length < 7 → exec (.decodeReply c (.framed m)) s = .next { s with ret := .raised .framingError })) ∧
    (s.phase = .receiving → s.frame = some m → m.getLast? = some 0xFF →
      ∀ c, exec (.decodeReply c .buffer) s = exec (.decodeReply c (.framed m)) s)

/-- `decode_reply` (rule R69) with the mode recipes (rules R74, R76, R77): the table's mode for each key (rules R53 to
R55), `UnknownError` for any other byte, `FramingError` for a frame too short to hold it (rule R57). The model's choice:
called by name, the function returns the kind the recipe raises and no register changes (log entry 5). -/
def Obligations.DecodeReplyYieldsModes : Prop :=
  ∀ (a e b : Byte) (x m : List Byte) (s : State), s.cfg.valid = true →
    let reply (c : CmdId) := exec (.decodeReply c (.framed (a :: e :: b :: x ++ [0xFF]))) s
    (∀ c, c = .inqFocusMode ∨ c = .inqWbMode ∨ c = .inqAeMode →
      m.length < 4 → exec (.decodeReply c (.framed m)) s = .next { s with ret := .raised .framingError }) ∧
    (∀ v, (b, v) ∈ [((0x02 : Byte), ModeVal.auto), (0x03, .manual)] →
      reply .inqFocusMode = .next { s with ret := .payload { mode := some v } }) ∧
    (b ∉ [(0x02 : Byte), 0x03] → reply .inqFocusMode = .next { s with ret := .raised .unknownError }) ∧
    (∀ v, (b, v) ∈ [(s.cfg.wbAuto, ModeVal.auto), (s.cfg.wbIndoor, .indoor), (s.cfg.wbOutdoor, .outdoor),
        (s.cfg.wbOnePush, .onePush), (0x05, .manual)] →
      reply .inqWbMode = .next { s with ret := .payload { mode := some v } }) ∧
    (b ∉ [s.cfg.wbAuto, s.cfg.wbIndoor, s.cfg.wbOutdoor, s.cfg.wbOnePush, 0x05] →
      reply .inqWbMode = .next { s with ret := .raised .unknownError }) ∧
    (∀ v, (b, v) ∈ [(s.cfg.aeAuto, ModeVal.auto), (s.cfg.aeManual, .manual), (s.cfg.aeShutter, .shutter),
        (s.cfg.aeIris, .iris), (s.cfg.aeBright, .bright)] →
      reply .inqAeMode = .next { s with ret := .payload { mode := some v } }) ∧
    (b ∉ [s.cfg.aeAuto, s.cfg.aeManual, s.cfg.aeShutter, s.cfg.aeIris, s.cfg.aeBright] →
      reply .inqAeMode = .next { s with ret := .raised .unknownError })

/-! ### The reply patterns -/

/-- `ENV_ACK` and `ENV_COMPLETION` at byte 1 of a complete frame (rules R69, R83, R87): the error classifier is not
consulted; the recipe runs; its payload is committed in one step with the class (rule R100, decisions D12, D14), or its
kind raised (rule R121). That the rows are operations, run on the frame as the arms of `FINISH`, is the model's reading
(log entry 8). -/
def Obligations.AckAndCompletionRunTheRecipe : Prop :=
  ∀ (s : State) (m : List Byte) (socket : Nibble) (i : Instr) (e : Byte) (cls : RClass),
    (i = .envAck socket ∧ e = (4 : Nibble) ++ socket ∧ cls = .ack) ∨
      (i = .envCompletion socket ∧ e = (5 : Nibble) ++ socket ∧ cls = .completion) →
    s.phase = .receiving → s.frame = some m → m.getLast? = some 0xFF → 3 ≤ m.length → m[1]? = some e →
      (∀ p, decodeReply s.cfg s.cmd (.framed m) = .ok p →
        exec i s = .next { s with
          phase := .completed, status := .ok, rclass := cls
          val0 := p.val0.getD s.val0, val1 := p.val1.getD s.val1, mode := p.mode.getD s.mode
          cFocus := if s.cmd = .inqFocusMode then p.mode.getD s.mode else s.cFocus
          cWb := if s.cmd = .inqWbMode then p.mode.getD s.mode else s.cWb
          cAe := if s.cmd = .inqAeMode then p.mode.getD s.mode else s.cAe
          life := if s.life = .opening then .opened else s.life }) ∧
      (∀ k, decodeReply s.cfg s.cmd (.framed m) = .error k →
        exec i s = .next { s with
          phase := .faulted, status := .err k, life := if s.life = .opening then .closed else s.life })

/-- `ENV_ERROR` at byte 1 of a complete frame (rules R83, R84): with a detail byte before the sentinel its kind is
raised, without one `FramingError` (decision D6); no decoding, and only what `raise` writes (rule R121). That the row is
an operation, run on the frame as the error arm of `FINISH`, is the model's reading (log entry 8). -/
def Obligations.ErrorEnvelopeRaises : Prop :=
  ∀ (s : State) (m : List Byte) (cls socket : Nibble), cls ≠ 4 → cls ≠ 5 →
    s.phase = .receiving → s.frame = some m → m.getLast? = some 0xFF → 3 ≤ m.length →
    m[1]? = some (cls ++ socket : Byte) →
      (m.length = 3 → exec (.envError cls socket) s = .next { s with
        phase := .faulted, status := .err .framingError
        life := if s.life = .opening then .closed else s.life }) ∧
      (∀ d, 4 ≤ m.length → m[2]? = some d → exec (.envError cls socket) s = .next { s with
        phase := .faulted, status := .err (classifyError d)
        life := if s.life = .opening then .closed else s.life })

/-- The seven error-code rows at byte 2 of an error-class frame (rules R52, R110 to R116): `FINISH` raises the row's kind,
for any command, and writes only what `raise` writes (rule R121), and the row does the same. That a row is an operation,
run on the frame, is the model's reading (log entry 8). -/
def Obligations.ErrorDetailRowsRaiseTheirKinds : Prop :=
  ∀ (s : State) (m : List Byte) (e d : Byte) (i : Instr) (k : ErrKind),
    (i = .errCommand ∧ d = 0x41 ∧ k = .commandError) ∨
    (∃ hi : Nibble,
      (i = .errMessageLength hi ∧ hi ≠ 4 ∧ d = hi ++ (1 : Nibble) ∧ k = .messageLengthError) ∨
      (i = .errSyntax hi ∧ d = hi ++ (2 : Nibble) ∧ k = .syntaxError) ∨
      (i = .errBufferFull hi ∧ d = hi ++ (3 : Nibble) ∧ k = .bufferFullError) ∨
      (i = .errCancel hi ∧ d = hi ++ (4 : Nibble) ∧ k = .cancelError) ∨
      (i = .errAddress hi ∧ d = hi ++ (5 : Nibble) ∧ k = .addressError)) ∨
    (i = .errUnknown d ∧ (d.toNat % 16 = 0 ∨ 6 ≤ d.toNat % 16) ∧ k = .unknownError) →
    s.phase = .receiving → s.frame = some m → m.getLast? = some 0xFF → 4 ≤ m.length →
    m[1]? = some e → e.toNat / 16 ≠ 4 → e.toNat / 16 ≠ 5 → m[2]? = some d →
      exec i s = .next { s with
        phase := .faulted, status := .err k, life := if s.life = .opening then .closed else s.life } ∧
      exec .finish s = exec i s

/-- The focus-mode rows (rule R53) at byte 2 of the reply to `INQ_FOCUS_MODE`, and `FINISH` on that reply: `0x02` is
`Auto`, `0x03` is `Manual`; any other byte raises `UnknownError` and leaves `mode` and `c_focus` alone. The commit (rules
R74, R100, R103, R106), also on an acknowledgement, rests on decisions D12, D14 and D17 (log entry 11); that the row is
run on the frame is log entry 8. -/
def Obligations.FocusRowsCommitOrRaise : Prop :=
  ∀ (s : State) (m : List Byte) (e b : Byte) (cls : RClass),
    s.phase = .receiving → s.frame = some m → m.getLast? = some 0xFF → 4 ≤ m.length → s.cmd = .inqFocusMode →
    m[1]? = some e → (e.toNat / 16 = 4 ∧ cls = .ack ∨ e.toNat / 16 = 5 ∧ cls = .completion) → m[2]? = some b →
      (∀ i v, (i, b, v) ∈ [(Instr.focusAuto, (0x02 : Byte), ModeVal.auto), (.focusManual, 0x03, .manual)] →
        exec i s = .next { s with
          phase := .completed, status := .ok, rclass := cls, mode := v, cFocus := v
          life := if s.life = .opening then .opened else s.life } ∧
        exec .finish s = exec i s) ∧
      (b ≠ 0x02 → b ≠ 0x03 →
        exec (.focusOther b) s = .next { s with
          phase := .faulted, status := .err .unknownError
          life := if s.life = .opening then .closed else s.life } ∧
        exec .finish s = exec (.focusOther b) s)

/-- The white-balance and auto-exposure rows at byte 2 of the reply to their inquiry (rules R54, R55, R76, R77): a key
commits its mode to `mode` and to the inquiry's cache register (rule R106); a byte that is no key raises `UnknownError`
and leaves `mode` and the cache alone. The keys are parameters (decision D10), but for `0x05`. The commit, also on an
acknowledgement, rests on decisions D12, D14 and D17 (log entry 11); that the rows are run on the frame is log entry
8. -/
def Obligations.WbAndAeRowsCommitOrRaise : Prop :=
  ∀ (s : State) (m : List Byte) (e b : Byte) (cls : RClass),
    s.phase = .receiving → s.frame = some m → m.getLast? = some 0xFF → 4 ≤ m.length →
    m[1]? = some e → (e.toNat / 16 = 4 ∧ cls = .ack ∨ e.toNat / 16 = 5 ∧ cls = .completion) → m[2]? = some b →
      (s.cmd = .inqWbMode →
        (∀ i v, (i, b, v) ∈ [(Instr.wbAuto, s.cfg.wbAuto, ModeVal.auto), (.wbIndoor, s.cfg.wbIndoor, .indoor),
            (.wbOutdoor, s.cfg.wbOutdoor, .outdoor), (.wbOnePush, s.cfg.wbOnePush, .onePush),
            (.wbManual, 0x05, .manual)] →
          exec i s = .next { s with
            phase := .completed, status := .ok, rclass := cls, mode := v, cWb := v
            life := if s.life = .opening then .opened else s.life }) ∧
        (b ∉ wbKeys s.cfg → exec (.wbOther b) s = .next { s with
            phase := .faulted, status := .err .unknownError
            life := if s.life = .opening then .closed else s.life })) ∧
      (s.cmd = .inqAeMode →
        (∀ i v, (i, b, v) ∈ [(Instr.aeAuto, s.cfg.aeAuto, ModeVal.auto), (.aeManual, s.cfg.aeManual, .manual),
            (.aeShutter, s.cfg.aeShutter, .shutter), (.aeIris, s.cfg.aeIris, .iris),
            (.aeBright, s.cfg.aeBright, .bright)] →
          exec i s = .next { s with
            phase := .completed, status := .ok, rclass := cls, mode := v, cAe := v
            life := if s.life = .opening then .opened else s.life }) ∧
        (b ∉ aeKeys s.cfg → exec (.aeOther b) s = .next { s with
            phase := .faulted, status := .err .unknownError
            life := if s.life = .opening then .closed else s.life }))

/-- `FINISH` is the reply patterns: on a complete frame with an envelope byte it does what the pattern of that byte
does; an error envelope with a detail byte does what the pattern of the detail byte does; and a mode inquiry whose
reply is not an error does what the pattern of the mode byte does. `FINISH` is rule R100; what the rows do, run on a
frame, is the model's reading (log entry 8), and this is its test. -/
def Obligations.FinishRunsTheDecodedPatterns : Prop :=
  ∀ (s : State) (m : List Byte) (e : Byte),
    s.phase = .receiving → s.frame = some m → m.getLast? = some 0xFF → 3 ≤ m.length → m[1]? = some e →
      exec .finish s = exec (decodeEnv e) s ∧
      (∀ d, 4 ≤ m.length → m[2]? = some d →
        (hi4 e ≠ 4 → hi4 e ≠ 5 → exec .finish s = exec (decodeErrDet d) s) ∧
        (hi4 e = 4 ∨ hi4 e = 5 →
          (s.cmd = .inqFocusMode → exec .finish s = exec (decodeFocus d) s) ∧
          (s.cmd = .inqWbMode → exec .finish s = exec (decodeWb s.cfg d) s) ∧
          (s.cmd = .inqAeMode → exec .finish s = exec (decodeAe s.cfg d) s)))

/-- Where a step or a pattern stops by name (the model's own, log entries 9 and 17): outside `Receiving`; before the
sentinel is stored, for everything that reads the buffer (rules R36, R39); a pattern that is not the byte at its place
in the frame; an error-code pattern in a reply that is no error; a mode pattern in a reply that is an error or is not
its inquiry's. -/
def Obligations.PatternsOutsideTheirPlaceAreNotEnabled : Prop :=
  ∀ (s : State) (i : Instr),
    let readsBuffer : Prop := i = .finish ∨
      (∃ f b, encode s.cfg i = some (f, [b]) ∧ f ∈ [Format.env, .errDet, .enumFocus, .enumWb, .enumAe]) ∨
      (∃ o, i = .decodeByte .buffer o ∨ i = .decodeWord .buffer o ∨ i = .decodeShort .buffer o) ∨
      (∃ c, i = .decodeReply c .buffer)
    (s.phase ≠ .receiving → (∃ a, i = .rx a) ∨ readsBuffer → exec i s = .refused .notEnabled) ∧
    (∀ m, s.frame = some m → m.getLast? ≠ some 0xFF → readsBuffer → exec i s = .refused .notEnabled) ∧
    (∀ m f b, s.phase = .receiving → s.frame = some m → m.getLast? = some 0xFF → encode s.cfg i = some (f, [b]) →
      (f = .env → m[1]? ≠ some b → exec i s = .refused .notEnabled) ∧
      (f ∈ [Format.errDet, .enumFocus, .enumWb, .enumAe] → m[2]? ≠ some b → exec i s = .refused .notEnabled) ∧
      (∀ e, m[1]? = some e →
        (f = .errDet → hi4 e = 4 ∨ hi4 e = 5 → exec i s = .refused .notEnabled) ∧
        (f ∈ [Format.enumFocus, .enumWb, .enumAe] → hi4 e ≠ 4 → hi4 e ≠ 5 → exec i s = .refused .notEnabled)) ∧
      (f = .enumFocus → s.cmd ≠ .inqFocusMode → exec i s = .refused .notEnabled) ∧
      (f = .enumWb → s.cmd ≠ .inqWbMode → exec i s = .refused .notEnabled) ∧
      (f = .enumAe → s.cmd ≠ .inqAeMode → exec i s = .refused .notEnabled))

/-! ### The steps of the sequencer -/

/-- `OPEN` (rule R102, decision D17), from `life = Closed` and a resting phase, in its three outcomes. -/
def Obligations.OpenAcquiresAndStartsReset : Prop :=
  ∀ (s : State), s.life = .closed → s.phase.resting = true →
    (∀ e, exec (.openSession (.fail e)) s = .next { s with
      len := 0, rclass := .noClass, val0 := 0, val1 := 0, mode := .unknown
      phase := .faulted, status := .err (.transportError e) }) ∧
    exec (.openSession (.ok .ok)) s = .next { s with
      life := .opening, cFocus := .unknown, cWb := .unknown, cAe := .unknown
      cmd := .reset, len := 0, status := .none, rclass := .noClass, val0 := 0, val1 := 0, mode := .unknown
      written := s.written ++ [[0x81, 0x01, 0x06, 0x05, 0xFF]], phase := .sent } ∧
    (∀ e, exec (.openSession (.ok (.fail e))) s = .next { s with
      cFocus := .unknown, cWb := .unknown, cAe := .unknown
      cmd := .reset, len := 0, rclass := .noClass, val0 := 0, val1 := 0, mode := .unknown
      written := s.written ++ [[0x81, 0x01, 0x06, 0x05, 0xFF]]
      phase := .faulted, status := .err (.transportError e) })

/-- `CLOSE` (rule R104, decision D18): accepted in a resting phase with `life` `Open` or `Closed`; it writes `life` and
no other register, and with `life = Closed` it does nothing. -/
def Obligations.CloseWritesOnlyLife : Prop :=
  ∀ (s : State), s.phase.resting = true →
    (s.life = .opened → exec .closeSession s = .next { s with life := .closed }) ∧
    (s.life = .closed → exec .closeSession s = .next s)

/-- `START` (rule R98, decisions D14 and D19), for an accepted request and for the forced `RESET` of `OPEN`: the
registers it writes, the message it presents, and its two outcomes. -/
def Obligations.StartLatchesClearsAndWrites : Prop :=
  ∀ (c : CmdId) (s : State), s.phase.resting = true →
    s.life = .opened ∨ (s.life = .opening ∧ c = .reset) →
      exec (.start c .ok) s = .next { s with
        cmd := c, len := 0, status := .none, rclass := .noClass, val0 := 0, val1 := 0, mode := .unknown
        written := s.written ++ [template s.cfg c], phase := .sent } ∧
      (∀ e, exec (.start c (.fail e)) s = .next { s with
        cmd := c, len := 0, rclass := .noClass, val0 := 0, val1 := 0, mode := .unknown
        written := s.written ++ [template s.cfg c]
        phase := .faulted, status := .err (.transportError e)
        life := if s.life = .opening then .closed else s.life })

/-- `SETTLE` (rule R99, decision D23): `Sent` to `Receiving` and nothing else; in any other phase it is not enabled. -/
def Obligations.SettleOnlyEntersReceiving : Prop :=
  ∀ (s : State),
    (s.phase = .sent → exec .settle s = .next { s with phase := .receiving }) ∧
    (s.phase ≠ .sent → exec .settle s = .refused .notEnabled)

/-- `RX` of a byte that is not the sentinel (rules R91, R93 with decision D4): it is stored at offset `len`, every
other offset reads as before, and the phase stays, unless the buffer is now full: then `FramingError`. -/
def Obligations.RxStoresAByteOrOverflows : Prop :=
  ∀ (b : Byte) (s : State), b ≠ 0xFF → s.phase = .receiving → s.len < s.cfg.maxMsgLen →
    ∃ buf : Memory, buf.read s.len = some b ∧ (∀ o, o ≠ s.len → buf.read o = s.buf.read o) ∧
      (s.len + 1 < s.cfg.maxMsgLen →
        exec (.rx (.byte b)) s = .next { s with buf := buf, len := s.len + 1 }) ∧
      (s.len + 1 = s.cfg.maxMsgLen →
        exec (.rx (.byte b)) s = .next { s with
          buf := buf, len := s.len + 1, phase := .faulted, status := .err .framingError
          life := if s.life = .opening then .closed else s.life })

/-- `RX` of the sentinel (rule R92): it is stored like any other byte and `FINISH` runs in the same step, on the frame
that ends with it. -/
def Obligations.RxOfTheSentinelFinishes : Prop :=
  ∀ (s : State) (m : List Byte), s.phase = .receiving → s.len < s.cfg.maxMsgLen → s.frame = some m →
    ∃ (buf : Memory) (t : State), buf.read s.len = some 0xFF ∧ (∀ o, o ≠ s.len → buf.read o = s.buf.read o) ∧
      State.frame { s with buf := buf, len := s.len + 1 } = some (m ++ [0xFF]) ∧
      exec (.rx (.byte 0xFF)) s = .next t ∧ exec .finish { s with buf := buf, len := s.len + 1 } = .next t ∧
      (t.phase = .completed ∨ t.phase = .faulted) ∧ t.rxq = s.rxq ∧ t.buf = buf ∧ t.len = s.len + 1

/-- `RX` of a transport failure (rules R94, R117): `TransportError`, with the partial frame kept and never
classified. -/
def Obligations.RxFailureRaisesTransportError : Prop :=
  ∀ (e : TransportErr) (s : State), s.phase = .receiving →
    exec (.rx (.fail e)) s = .next { s with
      phase := .faulted, status := .err (.transportError e)
      life := if s.life = .opening then .closed else s.life }

/-- `FINISH` (rule R100, decisions D5 and D6), its tests in the rule's order: too short, an error envelope without and
with a detail byte, a recipe that raises, and the commit with its cache update (rule R106); and what `execute` then
returns (rule R27): the status, and on success exactly what the recipe decoded. -/
def Obligations.FinishInTheOrderOfItsTests : Prop :=
  ∀ (s : State) (m : List Byte), s.phase = .receiving → s.frame = some m → m.getLast? = some 0xFF →
    let fault (k : ErrKind) : State := { s with
      phase := .faulted, status := .err k, life := if s.life = .opening then .closed else s.life }
    (∀ k, (fault k).returnValue = ⟨.err k, {}⟩) ∧
    (m.length < 3 → exec .finish s = .next (fault .framingError)) ∧
    (∀ e, 3 ≤ m.length → m[1]? = some e → e.toNat / 16 ≠ 4 → e.toNat / 16 ≠ 5 →
      (m.length < 4 → exec .finish s = .next (fault .framingError)) ∧
      (∀ d, 4 ≤ m.length → m[2]? = some d → exec .finish s = .next (fault (classifyError d)))) ∧
    (∀ e cls, 3 ≤ m.length → m[1]? = some e →
      (e.toNat / 16 = 4 ∧ cls = RClass.ack) ∨ (e.toNat / 16 = 5 ∧ cls = RClass.completion) →
      (∀ k, decodeReply s.cfg s.cmd (.framed m) = .error k → exec .finish s = .next (fault k)) ∧
      (∀ p, decodeReply s.cfg s.cmd (.framed m) = .ok p →
        ∃ t : State, exec .finish s = .next t ∧ t.returnValue = ⟨.ok, p⟩ ∧ t = { s with
          phase := .completed, status := .ok, rclass := cls
          val0 := p.val0.getD s.val0, val1 := p.val1.getD s.val1, mode := p.mode.getD s.mode
          cFocus := if s.cmd = .inqFocusMode then p.mode.getD s.mode else s.cFocus
          cWb := if s.cmd = .inqWbMode then p.mode.getD s.mode else s.cWb
          cAe := if s.cmd = .inqAeMode then p.mode.getD s.mode else s.cAe
          life := if s.life = .opening then .opened else s.life }))

/-- Which requests are accepted (rule R105, decisions D15 and D26): a request outside the table is refused, and none of
the refused ones is given an error kind. -/
def Obligations.RequestsOutsideTheTableAreRefused : Prop :=
  ∀ (s : State),
    (∀ id : Nibble, ¬ (s.life = .opened ∧ s.phase.resting = true ∧ id.toNat ≤ 11) →
      exec (.execute id) s = .refused .requestNotAccepted) ∧
    (∀ a, ¬ (s.life = .closed ∧ s.phase.resting = true) →
      exec (.openSession a) s = .refused .requestNotAccepted) ∧
    (¬ ((s.life = .opened ∨ s.life = .closed) ∧ s.phase.resting = true) →
      exec .closeSession s = .refused .requestNotAccepted) ∧
    (s.slot = none → s.cfg.valid = true → s.phase.resting = true → ∀ r q, s.hostq = r :: q →
      s.accepts r = false → step s = .refused .requestNotAccepted)

/-! ### Whole transactions -/

/-- A transaction reads exactly one frame (rules R92, R95, R96; decision D11): when the session is open and resting, the
write is answered `TxOk`, and the transport holds bytes that are not the sentinel, a sentinel, and then `rest`, the
transaction ends as `FINISH` (rule R100) on exactly the frame up to that sentinel, and `rest` is left in the
transport. -/
def Obligations.TransactionReadsOneFrame : Prop :=
  ∀ (c : CmdId) (s : State) (q : List TxAnswer) (pre : List Byte) (rest : List RxAnswer),
    s.life = .opened → s.phase.resting = true → s.txq = .ok :: q → (∀ b ∈ pre, b ≠ 0xFF) →
    pre.length + 1 ≤ s.cfg.maxMsgLen → s.rxq = (pre ++ [0xFF]).map .byte ++ rest →
      ∃ (buf : Memory) (t : State),
        exec c.instr s = .next t ∧ exec (.execute c.code) s = .next t ∧
        buf.readRange 0 (pre.length + 1) = some (pre ++ [0xFF]) ∧
        (∀ o, pre.length + 1 ≤ o → buf.read o = s.buf.read o) ∧
        exec .finish { s with
          txq := q, rxq := rest, written := s.written ++ [template s.cfg c], cmd := c
          buf := buf, len := pre.length + 1, phase := .receiving, status := .none, rclass := .noClass
          val0 := 0, val1 := 0, mode := .unknown } = .next t ∧
        t.rxq = rest ∧ t.buf = buf ∧ t.len = pre.length + 1

/-- `RESET` and `CLEAR` (rules R70, R71): the bytes sent, and on an acknowledgement or a completion of any length
`status = Ok` with no payload. -/
def Obligations.ActionTransactionsSucceed : Prop :=
  ∀ (s : State) (q : List TxAnswer) (a e : Byte) (x : List Byte) (rest : List RxAnswer) (cls : RClass),
    s.life = .opened → s.phase.resting = true → s.txq = .ok :: q →
    (∀ b ∈ a :: e :: x, b ≠ 0xFF) → x.length + 3 ≤ s.cfg.maxMsgLen →
    s.rxq = (a :: e :: x ++ [0xFF]).map .byte ++ rest →
    (e.toNat / 16 = 4 ∧ cls = .ack ∨ e.toNat / 16 = 5 ∧ cls = .completion) →
      ∀ i c m, (i, c, m) ∈ [(Instr.reset, CmdId.reset, [(0x81 : Byte), 0x01, 0x06, 0x05, 0xFF]),
          (.clear, .clear, [0x81, 0x01, 0x00, 0x01, 0xFF])] →
        ∃ buf : Memory,
          exec i s = .next { s with
            txq := q, rxq := rest, written := s.written ++ [m], cmd := c
            buf := buf, len := x.length + 3, phase := .completed, status := .ok, rclass := cls
            val0 := 0, val1 := 0, mode := .unknown } ∧
          buf.readRange 0 (x.length + 3) = some (a :: e :: x ++ [0xFF]) ∧
          (∀ o, x.length + 3 ≤ o → buf.read o = s.buf.read o)

/-- `INQ_ZOOM_POS` and `INQ_FOCUS_POS` (rules R72, R73): a reply of at least 7 bytes that is not an error gives `val0`,
the word at offset 2. -/
def Obligations.WordInquiriesDeliverTheirPosition : Prop :=
  ∀ (s : State) (q : List TxAnswer) (a e b2 b3 b4 b5 : Byte) (x : List Byte) (rest : List RxAnswer) (cls : RClass),
    s.life = .opened → s.phase.resting = true → s.txq = .ok :: q →
    (∀ b ∈ a :: e :: b2 :: b3 :: b4 :: b5 :: x, b ≠ 0xFF) → x.length + 7 ≤ s.cfg.maxMsgLen →
    s.rxq = (a :: e :: b2 :: b3 :: b4 :: b5 :: x ++ [0xFF]).map .byte ++ rest →
    (e.toNat / 16 = 4 ∧ cls = .ack ∨ e.toNat / 16 = 5 ∧ cls = .completion) →
      ∀ i c m, (i, c, m) ∈ [(Instr.inqZoomPos, CmdId.inqZoomPos, [(0x81 : Byte), 0x09, 0x04, 0x47, 0xFF]),
          (.inqFocusPos, .inqFocusPos, s.cfg.tFocusPos)] →
        ∃ buf : Memory,
          exec i s = .next { s with
            txq := q, rxq := rest, written := s.written ++ [m], cmd := c
            buf := buf, len := x.length + 7, phase := .completed, status := .ok, rclass := cls
            val0 := ((b2 &&& 0x0F).zeroExtend 16 <<< 12) ||| ((b3 &&& 0x0F).zeroExtend 16 <<< 8) |||
              ((b4 &&& 0x0F).zeroExtend 16 <<< 4) ||| (b5 &&& 0x0F).zeroExtend 16
            val1 := 0, mode := .unknown } ∧
          buf.readRange 0 (x.length + 7) = some (a :: e :: b2 :: b3 :: b4 :: b5 :: x ++ [0xFF]) ∧
          (∀ o, x.length + 7 ≤ o → buf.read o = s.buf.read o)

/-- `INQ_PANTILT_POS` (rule R75): a reply of at least 11 bytes gives both words, pan at offset 2 and tilt at offset 6;
one of 7 to 10 bytes gives `FramingError` and neither ("both or neither"). -/
def Obligations.PanTiltDeliversBothOrNeither : Prop :=
  ∀ (s : State) (q : List TxAnswer) (a e b2 b3 b4 b5 : Byte) (x : List Byte) (rest : List RxAnswer) (cls : RClass),
    s.life = .opened → s.phase.resting = true → s.txq = .ok :: q →
    (∀ b ∈ a :: e :: b2 :: b3 :: b4 :: b5 :: x, b ≠ 0xFF) → x.length + 7 ≤ s.cfg.maxMsgLen →
    s.rxq = (a :: e :: b2 :: b3 :: b4 :: b5 :: x ++ [0xFF]).map .byte ++ rest →
    (e.toNat / 16 = 4 ∧ cls = .ack ∨ e.toNat / 16 = 5 ∧ cls = .completion) →
      ∃ buf : Memory,
        buf.readRange 0 (x.length + 7) = some (a :: e :: b2 :: b3 :: b4 :: b5 :: x ++ [0xFF]) ∧
        (∀ o, x.length + 7 ≤ o → buf.read o = s.buf.read o) ∧
        (∀ b6 b7 b8 b9 y, x = b6 :: b7 :: b8 :: b9 :: y →
          exec .inqPanTiltPos s = .next { s with
            txq := q, rxq := rest, written := s.written ++ [s.cfg.tPanTiltPos], cmd := .inqPanTiltPos
            buf := buf, len := x.length + 7, phase := .completed, status := .ok, rclass := cls
            val0 := ((b2 &&& 0x0F).zeroExtend 16 <<< 12) ||| ((b3 &&& 0x0F).zeroExtend 16 <<< 8) |||
              ((b4 &&& 0x0F).zeroExtend 16 <<< 4) ||| (b5 &&& 0x0F).zeroExtend 16
            val1 := ((b6 &&& 0x0F).zeroExtend 16 <<< 12) ||| ((b7 &&& 0x0F).zeroExtend 16 <<< 8) |||
              ((b8 &&& 0x0F).zeroExtend 16 <<< 4) ||| (b9 &&& 0x0F).zeroExtend 16
            mode := .unknown }) ∧
        (x.length < 4 →
          exec .inqPanTiltPos s = .next { s with
            txq := q, rxq := rest, written := s.written ++ [s.cfg.tPanTiltPos], cmd := .inqPanTiltPos
            buf := buf, len := x.length + 7, phase := .faulted, status := .err .framingError, rclass := .noClass
            val0 := 0, val1 := 0, mode := .unknown })

/-- `INQ_SHUTTER_POS`, `INQ_IRIS_POS`, `INQ_GAIN_POS`, `INQ_BRIGHT_POS` (rules R78 to R81): a reply of at least 7 bytes
gives `val0`, the short at offset 4 by the short rule of the configuration (decision D7); offsets 2 and 3 are not
read. -/
def Obligations.ShortInquiriesDeliverTheirPosition : Prop :=
  ∀ (s : State) (q : List TxAnswer) (a e b2 b3 b4 b5 : Byte) (x : List Byte) (rest : List RxAnswer) (cls : RClass),
    s.life = .opened → s.phase.resting = true → s.txq = .ok :: q →
    (∀ b ∈ a :: e :: b2 :: b3 :: b4 :: b5 :: x, b ≠ 0xFF) → x.length + 7 ≤ s.cfg.maxMsgLen →
    s.rxq = (a :: e :: b2 :: b3 :: b4 :: b5 :: x ++ [0xFF]).map .byte ++ rest →
    (e.toNat / 16 = 4 ∧ cls = .ack ∨ e.toNat / 16 = 5 ∧ cls = .completion) →
      ∀ i c m, (i, c, m) ∈ [(Instr.inqShutterPos, CmdId.inqShutterPos, s.cfg.tShutterPos),
          (.inqIrisPos, .inqIrisPos, s.cfg.tIrisPos), (.inqGainPos, .inqGainPos, s.cfg.tGainPos),
          (.inqBrightPos, .inqBrightPos, s.cfg.tBrightPos)] →
        ∃ buf : Memory,
          exec i s = .next { s with
            txq := q, rxq := rest, written := s.written ++ [m], cmd := c
            buf := buf, len := x.length + 7, phase := .completed, status := .ok, rclass := cls
            val0 := match s.cfg.shortRule with
              | .nibble8 => ((b4 &&& 0x0F).zeroExtend 16 <<< 4) ||| (b5 &&& 0x0F).zeroExtend 16
              | .byte16 => (b4.zeroExtend 16 <<< 8) ||| b5.zeroExtend 16
            val1 := 0, mode := .unknown } ∧
          buf.readRange 0 (x.length + 7) = some (a :: e :: b2 :: b3 :: b4 :: b5 :: x ++ [0xFF]) ∧
          (∀ o, x.length + 7 ≤ o → buf.read o = s.buf.read o)

/-- `INQ_FOCUS_MODE`, `INQ_WB_MODE`, `INQ_AE_MODE` (rules R74, R76, R77): a reply whose byte 2 is a key of the table
gives `mode` and the inquiry's cache register; any other byte gives `UnknownError`, with `mode` `Unknown` and the cache
as it was. The keys other than the two of focus mode and `0x05` are parameters (decision D10). -/
def Obligations.ModeInquiriesDeliverTheirMode : Prop :=
  ∀ (s : State) (q : List TxAnswer) (a e b : Byte) (x : List Byte) (rest : List RxAnswer) (cls : RClass),
    s.cfg.valid = true →
    s.life = .opened → s.phase.resting = true → s.txq = .ok :: q →
    (∀ y ∈ a :: e :: b :: x, y ≠ 0xFF) → x.length + 4 ≤ s.cfg.maxMsgLen →
    s.rxq = (a :: e :: b :: x ++ [0xFF]).map .byte ++ rest →
    (e.toNat / 16 = 4 ∧ cls = .ack ∨ e.toNat / 16 = 5 ∧ cls = .completion) →
      ∃ buf : Memory,
        buf.readRange 0 (x.length + 4) = some (a :: e :: b :: x ++ [0xFF]) ∧
        (∀ o, x.length + 4 ≤ o → buf.read o = s.buf.read o) ∧
        let done (c : CmdId) (m : List Byte) : State := { s with
          txq := q, rxq := rest, written := s.written ++ [m], cmd := c
          buf := buf, len := x.length + 4, phase := .completed, status := .ok, rclass := cls
          val0 := 0, val1 := 0 }
        let failed (c : CmdId) (m : List Byte) : State := { s with
          txq := q, rxq := rest, written := s.written ++ [m], cmd := c
          buf := buf, len := x.length + 4, phase := .faulted, status := .err .unknownError, rclass := .noClass
          val0 := 0, val1 := 0, mode := .unknown }
        (∀ v, (b, v) ∈ [((0x02 : Byte), ModeVal.auto), (0x03, .manual)] →
          exec .inqFocusMode s = .next { done .inqFocusMode s.cfg.tFocusMode with mode := v, cFocus := v }) ∧
        (b ∉ [(0x02 : Byte), 0x03] → exec .inqFocusMode s = .next (failed .inqFocusMode s.cfg.tFocusMode)) ∧
        (∀ v, (b, v) ∈ [(s.cfg.wbAuto, ModeVal.auto), (s.cfg.wbIndoor, .indoor), (s.cfg.wbOutdoor, .outdoor),
            (s.cfg.wbOnePush, .onePush), (0x05, .manual)] →
          exec .inqWbMode s = .next { done .inqWbMode s.cfg.tWbMode with mode := v, cWb := v }) ∧
        (b ∉ [s.cfg.wbAuto, s.cfg.wbIndoor, s.cfg.wbOutdoor, s.cfg.wbOnePush, 0x05] →
          exec .inqWbMode s = .next (failed .inqWbMode s.cfg.tWbMode)) ∧
        (∀ v, (b, v) ∈ [(s.cfg.aeAuto, ModeVal.auto), (s.cfg.aeManual, .manual), (s.cfg.aeShutter, .shutter),
            (s.cfg.aeIris, .iris), (s.cfg.aeBright, .bright)] →
          exec .inqAeMode s = .next { done .inqAeMode s.cfg.tAeMode with mode := v, cAe := v }) ∧
        (b ∉ [s.cfg.aeAuto, s.cfg.aeManual, s.cfg.aeShutter, s.cfg.aeIris, s.cfg.aeBright] →
          exec .inqAeMode s = .next (failed .inqAeMode s.cfg.tAeMode))

/-- Every command, when the reply is an error of at least 4 bytes (rules R70 to R85, R121): the device's kind, no
decoding, no result and no cache register written ("no partial results", "no state mutation"). -/
def Obligations.ErrorRepliesFaultEveryCommand : Prop :=
  ∀ (c : CmdId) (s : State) (q : List TxAnswer) (a e d : Byte) (x : List Byte) (rest : List RxAnswer),
    s.life = .opened → s.phase.resting = true → s.txq = .ok :: q →
    (∀ b ∈ a :: e :: d :: x, b ≠ 0xFF) → x.length + 4 ≤ s.cfg.maxMsgLen →
    s.rxq = (a :: e :: d :: x ++ [0xFF]).map .byte ++ rest → e.toNat / 16 ≠ 4 → e.toNat / 16 ≠ 5 →
      ∃ buf : Memory,
        exec c.instr s = .next { s with
          txq := q, rxq := rest, written := s.written ++ [template s.cfg c], cmd := c
          buf := buf, len := x.length + 4, phase := .faulted, status := .err (classifyError d), rclass := .noClass
          val0 := 0, val1 := 0, mode := .unknown } ∧
        buf.readRange 0 (x.length + 4) = some (a :: e :: d :: x ++ [0xFF]) ∧
        (∀ o, x.length + 4 ≤ o → buf.read o = s.buf.read o)

/-- A reply that is no frame. The transport fails (rules R94, R117; "not a hang and not a misclassified empty
response"): whatever was received, a `TransportError`, and what follows the failure stays in the transport. The buffer
fills with no sentinel (rule R93, decision D4): `FramingError`, and no further byte is requested. -/
def Obligations.RepliesThatAreNoFrameFault : Prop :=
  ∀ (c : CmdId) (s : State) (q : List TxAnswer) (pre : List Byte) (rest : List RxAnswer),
    s.life = .opened → s.phase.resting = true → s.txq = .ok :: q → (∀ b ∈ pre, b ≠ 0xFF) →
      let faulted (k : ErrKind) (q' : List RxAnswer) (buf : Memory) : State := { s with
        txq := q, rxq := q', written := s.written ++ [template s.cfg c], cmd := c
        buf := buf, len := pre.length, phase := .faulted, status := .err k, rclass := .noClass
        val0 := 0, val1 := 0, mode := .unknown }
      (∀ e, pre.length < s.cfg.maxMsgLen → s.rxq = pre.map .byte ++ .fail e :: rest →
        ∃ buf : Memory, exec c.instr s = .next (faulted (.transportError e) rest buf) ∧
          buf.readRange 0 pre.length = some pre ∧ (∀ o, pre.length ≤ o → buf.read o = s.buf.read o)) ∧
      (pre ≠ [] → pre.length = s.cfg.maxMsgLen → s.rxq = pre.map .byte ++ rest →
        ∃ buf : Memory, exec c.instr s = .next (faulted .framingError rest buf) ∧
          buf.readRange 0 pre.length = some pre ∧ (∀ o, pre.length ≤ o → buf.read o = s.buf.read o))

/-- A transaction goes as far as the transport lets it: a write it refuses ends `EXECUTE` at once, with nothing read
(rule R98, decision D19); with no answer to the write nothing happens (log entry 19); when the answers to the read
requests run out it stays in `Receiving` with what it received (rules R97, R137; log entries 1 and 4). -/
def Obligations.TransactionStopsWhereTheTransportDoes : Prop :=
  ∀ (c : CmdId) (s : State), s.life = .opened → s.phase.resting = true →
    exec (.execute c.code) s = exec c.instr s ∧
    (∀ e q, s.txq = .fail e :: q → exec c.instr s = .next { s with
      txq := q, written := s.written ++ [template s.cfg c], cmd := c, len := 0, phase := .faulted
      status := .err (.transportError e), rclass := .noClass, val0 := 0, val1 := 0, mode := .unknown }) ∧
    (s.txq = [] → exec c.instr s = .next s) ∧
    (∀ (q : List TxAnswer) (pre : List Byte), s.txq = .ok :: q → (∀ b ∈ pre, b ≠ 0xFF) →
      pre.length < s.cfg.maxMsgLen → s.rxq = pre.map .byte →
        ∃ buf : Memory,
          exec c.instr s = .next { s with
            txq := q, rxq := [], written := s.written ++ [template s.cfg c], cmd := c
            buf := buf, len := pre.length, phase := .receiving, status := .none, rclass := .noClass
            val0 := 0, val1 := 0, mode := .unknown } ∧
          buf.readRange 0 pre.length = some pre ∧ (∀ o, pre.length ≤ o → buf.read o = s.buf.read o))

/-- The 12 commands and `EXECUTE` are their steps: an accepted request at the head of the host's queue, run by the
machine step by step, comes to what the whole transaction comes to (rule R96; the two forms are log entry 1). -/
def Obligations.ExecuteIsTheRunOfItsSteps : Prop :=
  ∀ (c : CmdId) (s : State) (q : List Request),
    s.cfg.valid = true → s.slot = none → s.accepts (.execute c.code) = true →
    s.hostq = .execute c.code :: q → s.txq ≠ [] →
      ∃ k, Sys2Proof.core.run k s = exec c.instr { s with hostq := q } ∧
        exec (.execute c.code) { s with hostq := q } = exec c.instr { s with hostq := q }

/-! ### The machine as a whole -/

/-- A step runs the selected instruction: a presented pattern that decodes at its place, an operation presented by
name, `SETTLE` in `Sent`, `RX` of the transport's next answer in `Receiving`, and in a resting phase the host's next
request, with the transport's answers it needs. What is presented in the slot, and that it comes first, is the model's
choice, as are the queues of the ports (log entry 4). -/
def Obligations.StepRunsTheSelectedInstruction : Prop :=
  ∀ (s : State), s.cfg.valid = true →
    (∀ f bs i, s.slot = some (.wire f bs) → decode s.cfg f bs = .ok (i, []) →
      step s = exec i { s with slot := none }) ∧
    (∀ i, s.slot = some (.op i) → step s = exec i { s with slot := none }) ∧
    (s.slot = none →
      (s.phase = .sent → step s = exec .settle s) ∧
      (∀ a as, s.phase = .receiving → s.rxq = a :: as → step s = exec (.rx a) { s with rxq := as }) ∧
      (∀ c q t ts, s.phase.resting = true → s.life = .opened → s.hostq = .execute (CmdId.code c) :: q →
        s.txq = t :: ts → step s = exec (.start c t) { s with hostq := q, txq := ts }) ∧
      (∀ q e as, s.phase.resting = true → s.life = .closed → s.hostq = .openSession :: q →
        s.acqq = .fail e :: as → step s = exec (.openSession (.fail e)) { s with hostq := q, acqq := as }) ∧
      (∀ q as t ts, s.phase.resting = true → s.life = .closed → s.hostq = .openSession :: q →
        s.acqq = .ok :: as → s.txq = t :: ts →
          step s = exec (.openSession (.ok t)) { s with hostq := q, acqq := as, txq := ts }) ∧
      (∀ q, s.phase.resting = true → s.life ≠ .opening → s.hostq = .closeSession :: q →
        step s = exec .closeSession { s with hostq := q }))

/-- With nothing presented and no answer there is no step (rules R90, R137): in `Receiving` without an answer, and in a
resting phase without a request, the state stays as it is. -/
def Obligations.WaitingChangesNothing : Prop :=
  ∀ (s : State), s.cfg.valid = true → s.slot = none →
    (s.phase = .receiving ∧ s.rxq = [] ∨ s.phase.resting = true ∧ s.hostq = []) → step s = .next s

/-- The invariant holds right after reset. -/
def Obligations.InvariantHoldsAtReset : Prop := State.reset.Inv

/-- The invariant is kept by every step, whatever is presented, requested or answered: the buffer keeps its canonical
form and a byte at each offset of its capacity, `len` its bound, no sentinel stands in a frame being received (rules
R14, R15, R29, R91 to R95), `phase` and `status` agree (R16), no partial results (R17 to R19), only the forced `RESET`
while opening (R103). -/
def Obligations.EveryStepKeepsTheInvariant : Prop :=
  ∀ s s' : State, s.Inv → step s = .next s' → s'.Inv

/-- From a state that meets the invariant no step reads the buffer at an offset that does not exist (rules R14, R29). -/
def Obligations.NoStepFromTheInvariantFaults : Prop :=
  ∀ s : State, s.Inv → stepSafe s

/-- The phase table (rule R101, decisions D16 and D19): every transition a step of the block itself can make. -/
def Obligations.PhaseTransitionsAreTheTable : Prop :=
  ∀ s s' : State, s.slot = none → step s = .next s' →
    s' = s ∨
    (s.phase.resting = true ∧ s.life = .opened ∧ (∃ id q, s.hostq = .execute id :: q) ∧
      ((∃ ts, s.txq = .ok :: ts) ∧ s'.phase = .sent ∨ (∃ e ts, s.txq = .fail e :: ts) ∧ s'.phase = .faulted)) ∨
    (s.phase.resting = true ∧ s.life = .closed ∧ (∃ q, s.hostq = .openSession :: q) ∧
      ((∃ e as, s.acqq = .fail e :: as) ∧ s'.phase = .faulted ∨
        (∃ as ts, s.acqq = .ok :: as ∧ s.txq = .ok :: ts) ∧ s'.phase = .sent ∨
        (∃ as e ts, s.acqq = .ok :: as ∧ s.txq = .fail e :: ts) ∧ s'.phase = .faulted)) ∨
    (s.phase.resting = true ∧ (∃ q, s.hostq = .closeSession :: q) ∧ s'.phase = s.phase) ∨
    (s.phase = .sent ∧ s'.phase = .receiving) ∨
    (s.phase = .receiving ∧
      ((∃ b as, s.rxq = .byte b :: as ∧ b ≠ 0xFF ∧ s'.len < s.cfg.maxMsgLen) ∧ s'.phase = .receiving ∨
        (∃ b as, s.rxq = .byte b :: as ∧ b ≠ 0xFF ∧ s'.len = s.cfg.maxMsgLen) ∧ s'.phase = .faulted ∨
        (∃ as, s.rxq = .byte 0xFF :: as) ∧
          (s'.phase = .completed ∧ s'.status = .ok ∨ s'.phase = .faulted ∧ ∃ k, s'.status = .err k) ∨
        (∃ e as, s.rxq = .fail e :: as) ∧ s'.phase = .faulted))

/-- The legal transitions of `life` (rule R11, decision D17), and what makes each: `Closed` to `Opening` by `OPEN`,
`Opening` to `Open` when the forced `RESET` commits, `Opening` to `Closed` when it faults, `Open` to `Closed` by
`CLOSE`; no other. -/
def Obligations.LifeTransitionsAreTheLegalOnes : Prop :=
  ∀ s s' : State, s.slot = none → step s = .next s' →
    s'.life = s.life ∨
    (s.life = .closed ∧ s'.life = .opening ∧ (∃ q, s.hostq = .openSession :: q) ∧ s'.phase = .sent) ∨
    (s.life = .opening ∧ s'.life = .opened ∧ s'.phase = .completed) ∨
    (s.life = .opening ∧ s'.life = .closed ∧ s'.phase = .faulted) ∨
    (s.life = .opened ∧ s'.life = .closed ∧ (∃ q, s.hostq = .closeSession :: q))

/-- What `raise` does not write (rule R121): a step that faults while receiving writes `phase`, `status`, `life` when
it was `Opening`, the byte it stored, and nothing else. -/
def Obligations.AFaultWhileReceivingWritesNothingElse : Prop :=
  ∀ s s' : State, s.slot = none → s.phase = .receiving → step s = .next s' → s'.phase = .faulted →
    ∃ (k : ErrKind) (a : RxAnswer), s.rxq = a :: s'.rxq ∧
      s' = { s with
        rxq := s'.rxq, buf := s'.buf, len := s'.len, phase := .faulted, status := .err k
        life := if s.life = .opening then .closed else s.life } ∧
      (∀ o, o ≠ s.len → s'.buf.read o = s.buf.read o) ∧
      ((∃ b, a = .byte b ∧ s'.buf.read s.len = some b ∧ s'.len = s.len + 1) ∨
        (∃ e, a = .fail e ∧ k = .transportError e ∧ s'.buf = s.buf ∧ s'.len = s.len))

/-- The soft cache (rules R20, R106): a cache register changes only when its own inquiry commits, and then to the mode
just decoded, or when `OPEN` acquires the transport, and then to `Unknown`. -/
def Obligations.CacheIsWrittenByItsOwnInquiryOnly : Prop :=
  ∀ s s' : State, s.slot = none → step s = .next s' →
    let byOpen : Prop := s.phase.resting = true ∧ ∃ q as, s.hostq = .openSession :: q ∧ s.acqq = .ok :: as
    (s'.cFocus ≠ s.cFocus → (s.cmd = .inqFocusMode ∧ s'.status = .ok ∧ s'.cFocus = s'.mode) ∨
      (byOpen ∧ s'.cFocus = .unknown)) ∧
    (s'.cWb ≠ s.cWb → (s.cmd = .inqWbMode ∧ s'.status = .ok ∧ s'.cWb = s'.mode) ∨
      (byOpen ∧ s'.cWb = .unknown)) ∧
    (s'.cAe ≠ s.cAe → (s.cmd = .inqAeMode ∧ s'.status = .ok ∧ s'.cAe = s'.mode) ∨
      (byOpen ∧ s'.cAe = .unknown))

/-- The transport is a source with its own memory, never flushed (rules R23, R26, R92, R107): with nothing presented in
the slot, a step takes at most the next read answer, and that only in `Receiving`; and it writes at most one message,
from a resting phase, the template of the command it latches (rules R25, R98). -/
def Obligations.OneAnswerReadAndOneMessageWritten : Prop :=
  ∀ s s' : State, s.slot = none → step s = .next s' →
    (s'.rxq = s.rxq ∨ s.phase = .receiving ∧ ∃ a, s.rxq = a :: s'.rxq) ∧
    (s'.written = s.written ∨
      s.phase.resting = true ∧ s'.written = s.written ++ [template s.cfg s'.cmd])

/-- The catalog and every other parameter are read-only (rules R22, R40): no instruction and no step changes the
configuration. -/
def Obligations.NoOperationWritesTheConfiguration : Prop :=
  (∀ (i : Instr) (s s' : State), exec i s = .next s' → s'.cfg = s.cfg) ∧
  (∀ s s' : State, step s = .next s' → s'.cfg = s.cfg)

/-- Every transaction ends (rule R142): in `Receiving`, with the transport answering every read request, after at most
as many steps as the buffer has room for. -/
def Obligations.ReceivingEndsWithinTheBuffer : Prop :=
  ∀ s : State, s.Inv → s.slot = none → s.phase = .receiving → s.cfg.maxMsgLen - s.len ≤ s.rxq.length →
    ∃ k ≤ s.cfg.maxMsgLen - s.len, ∃ t : State,
      Sys2Proof.core.run k s = .next t ∧ (t.phase = .completed ∨ t.phase = .faulted)

/-- The address byte and the socket are read by nothing (rules R88, R138; decision D24): two replies that differ in
byte 0 and in the low nibble of byte 1 leave the block in the same state, but for the buffer that holds them. -/
def Obligations.AddressAndSocketDoNotMatter : Prop :=
  ∀ (s : State) (buf : Memory) (a a' e e' : Byte) (x : List Byte),
    s.phase = .receiving → s.frame = some (a :: e :: x) → State.frame { s with buf := buf } = some (a' :: e' :: x) →
    x.getLast? = some 0xFF → hi4 e = hi4 e' →
      ∃ t : State, exec .finish s = .next t ∧ exec .finish { s with buf := buf } = .next { t with buf := buf }

/-- The high nibble of a data byte carries nothing (rules R34, R139): for a position inquiry whose reply is not an
error, two replies whose data bytes agree in their low nibbles leave the block in the same state, but for the buffer
that holds them. For the shorts this is the rule `NIBBLE8` (decision D7). -/
def Obligations.HighNibblesOfPositionsDoNotMatter : Prop :=
  ∀ (s : State) (buf : Memory) (a e : Byte) (x y : List Byte),
    s.phase = .receiving → s.frame = some (a :: e :: x ++ [0xFF]) →
    State.frame { s with buf := buf } = some (a :: e :: y ++ [0xFF]) →
    hi4 e = 4 ∨ hi4 e = 5 → x.map lo4 = y.map lo4 →
    (s.cmd = .inqZoomPos ∨ s.cmd = .inqFocusPos ∨ s.cmd = .inqPanTiltPos ∨
      s.cfg.shortRule = .nibble8 ∧ (s.cmd = .inqShutterPos ∨ s.cmd = .inqIrisPos ∨ s.cmd = .inqGainPos ∨
        s.cmd = .inqBrightPos)) →
      ∃ t : State, exec .finish s = .next t ∧ exec .finish { s with buf := buf } = .next { t with buf := buf }

/-- The result port (rule R27) carries the codes of rule R60 (decision D22) in its ten registers, with the cause beside an
`Err`; and the return value of `execute` is the status and, when it is `Ok`, the registers the command's recipe names
(rules R27, R70 to R81). -/
def Obligations.ResultPortShowsTheCodes : Prop :=
  ∀ (s : State) (k : ErrKind),
    (s.status = .none → s.resultPort.status = 0 ∧ s.resultPort.cause = none) ∧
    (s.status = .ok → s.resultPort.status = 1 ∧ s.resultPort.cause = none) ∧
    (s.status = .err k → s.resultPort.status = 2 ∧ s.resultPort.cause = some (match k with
      | .messageLengthError => 1 | .syntaxError => 2 | .bufferFullError => 3 | .cancelError => 4
      | .addressError => 5 | .commandError => 6 | .unknownError => 7
      | .transportError .timeout => 8 | .transportError .io => 9 | .framingError => 10)) ∧
    s.resultPort.life = (match s.life with | .closed => 0 | .opening => 1 | .opened => 2) ∧
    s.resultPort.phase = (match s.phase with
      | .idle => 0 | .sent => 1 | .receiving => 2 | .completed => 3 | .faulted => 4) ∧
    s.resultPort.rclass = (match s.rclass with | .noClass => 0 | .ack => 4 | .completion => 5) ∧
    s.resultPort.val0 = s.val0 ∧ s.resultPort.val1 = s.val1 ∧
    (∀ (v : ModeVal) (n : Nat),
      (v, n) ∈ [(ModeVal.unknown, 0), (.auto, 1), (.manual, 2), (.indoor, 3), (.outdoor, 4), (.onePush, 5),
          (.shutter, 6), (.iris, 7), (.bright, 8)] →
        (s.mode = v → s.resultPort.mode = n) ∧ (s.cFocus = v → s.resultPort.cFocus = n) ∧
        (s.cWb = v → s.resultPort.cWb = n) ∧ (s.cAe = v → s.resultPort.cAe = n)) ∧
    (s.status ≠ .ok → s.returnValue = ⟨s.status, {}⟩) ∧
    (s.status = .ok → s.returnValue = ⟨.ok, match s.cmd with
      | .reset | .clear => {}
      | .inqPanTiltPos => { val0 := some s.val0, val1 := some s.val1 }
      | .inqFocusMode | .inqWbMode | .inqAeMode => { mode := some s.mode }
      | .inqZoomPos | .inqFocusPos | .inqShutterPos | .inqIrisPos | .inqGainPos | .inqBrightPos =>
        { val0 := some s.val0 }⟩)
end

