-- ==== Sys2Proof/Laws/Encoding.lean ====
section
/-! SUPPORT. The laws of the encodings: a byte and its nibbles, what a valid configuration has, the classes by nibble. -/

namespace Sys2Proof

@[simp] theorem hi4_byteOf (h l : Nibble) : hi4 (byteOf h l) = h := by
  revert h l
  decide +kernel

@[simp] theorem lo4_byteOf (h l : Nibble) : lo4 (byteOf h l) = l := by
  revert h l
  decide +kernel

/-- A byte is its two nibbles (rule R7). -/
@[simp] theorem byteOf_hi4_lo4 (b : Byte) : byteOf (hi4 b) (lo4 b) = b := by
  revert b
  decide +kernel

theorem hi4_eq_iff (b : Byte) (n : Nibble) : hi4 b = n ↔ b.toNat / 16 = n.toNat := by
  revert b n
  decide +kernel

theorem lo4_eq_iff (b : Byte) (n : Nibble) : lo4 b = n ↔ b.toNat % 16 = n.toNat := by
  revert b n
  decide +kernel

/-- Every template of a valid configuration meets its constraints (rule R48). -/
theorem Config.valid_templateOk {cfg : Config} (h : cfg.valid = true) (c : CmdId) :
    templateOk (template cfg c) = true := by
  simp only [Config.valid, Bool.and_eq_true, List.all_eq_true] at h
  exact h.1.1.2 c (by cases c <;> decide)

theorem Config.valid_length_template {cfg : Config} (h : cfg.valid = true) (c : CmdId) :
    (template cfg c).length = 5 := by
  have := Config.valid_templateOk h c
  simp only [templateOk, Bool.and_eq_true, beq_iff_eq] at this
  exact this.1.1

/-- The capacity of a valid configuration (decision D4). -/
theorem Config.valid_maxMsgLen {cfg : Config} (h : cfg.valid = true) : 11 ≤ cfg.maxMsgLen := by
  simp only [Config.valid, Bool.and_eq_true, decide_eq_true_eq] at h
  exact h.1.1.1

/-- The keys of the two tables with parameters are distinct (rules R54, R55). -/
theorem Config.valid_wbKeys {cfg : Config} (h : cfg.valid = true) : (wbKeys cfg).Nodup := by
  simp only [Config.valid, Bool.and_eq_true, decide_eq_true_eq] at h
  exact h.1.2

theorem Config.valid_aeKeys {cfg : Config} (h : cfg.valid = true) : (aeKeys cfg).Nodup := by
  simp only [Config.valid, Bool.and_eq_true, decide_eq_true_eq] at h
  exact h.2

namespace Machine

theorem classifyEnvelope_ack {e : Byte} (h : hi4 e = 4) : classifyEnvelope e = .ack := by simp [classifyEnvelope, h]

theorem classifyEnvelope_completion {e : Byte} (h : hi4 e = 5) : classifyEnvelope e = .completion := by
  simp [classifyEnvelope, h]

theorem classifyEnvelope_error {e : Byte} (h4 : hi4 e ≠ 4) (h5 : hi4 e ≠ 5) : classifyEnvelope e = .error := by
  unfold classifyEnvelope
  rw [if_neg h4, if_neg h5]

end Machine

end Sys2Proof
end

