-- ==== Sys2Proof/Laws/Memory.lean ====
section
/-! SUPPORT. The laws of the receive buffer: read after write, canonical form, the accumulated frame. -/

namespace Sys2Proof.Machine

@[simp] theorem Memory.read_nil (o : Nat) : Memory.read [] o = none := rfl

theorem Memory.read_write_same (m : Memory) (o : Nat) (b : Byte) : (m.write o b).read o = some b := by
  induction m with
  | nil => simp [Memory.write, Memory.read]
  | cons c m ih =>
    obtain ⟨a, x⟩ := c
    unfold Memory.write
    split
    · simp [Memory.read]
    · split
      · simp [Memory.read]
      · simp [Memory.read, *]

theorem Memory.read_write_other (m : Memory) {o o' : Nat} (b : Byte) (h : o' ≠ o) :
    (m.write o b).read o' = m.read o' := by
  induction m with
  | nil => simp [Memory.write, Memory.read, h]
  | cons c m ih =>
    obtain ⟨a, x⟩ := c
    unfold Memory.write
    split
    · simp [Memory.read, h]
    · split
      · rename_i _ h2
        subst h2
        simp [Memory.read, h]
      · simp [Memory.read, ih]

/-- Every cell of a written memory is the new one or an old one. -/
theorem Memory.mem_write {m : Memory} {o : Nat} {b : Byte} {c : Host.Cell} (h : c ∈ m.write o b) :
    c = (o, b) ∨ c ∈ m := by
  induction m with
  | nil => simpa [Memory.write] using h
  | cons d m ih =>
    obtain ⟨a, x⟩ := d
    unfold Memory.write at h
    split at h
    · simpa using h
    · split at h
      · rcases List.mem_cons.mp h with h | h
        · exact .inl h
        · exact .inr (List.mem_cons_of_mem _ h)
      · rcases List.mem_cons.mp h with h | h
        · exact .inr (by simp [h])
        · rcases ih h with h | h
          · exact .inl h
          · exact .inr (List.mem_cons_of_mem _ h)

/-- A write keeps the canonical form. -/
theorem Memory.write_wf {m : Memory} (o : Nat) (b : Byte) (h : m.wf) : (m.write o b).wf := by
  induction m with
  | nil => simp [Memory.write]
  | cons d m ih =>
    obtain ⟨a, x⟩ := d
    obtain ⟨h1, h2⟩ := List.pairwise_cons.mp h
    unfold Memory.write
    split
    · rename_i hlt
      refine List.pairwise_cons.mpr ⟨fun c hc => ?_, h⟩
      rcases List.mem_cons.mp hc with rfl | hc
      · exact hlt
      · exact Nat.lt_trans hlt (h1 c hc)
    · split
      · rename_i _ heq
        subst heq
        exact List.pairwise_cons.mpr ⟨h1, h2⟩
      · refine List.pairwise_cons.mpr ⟨fun c hc => ?_, ih h2⟩
        rcases Memory.mem_write hc with rfl | hc
        · simp only
          omega
        · exact h1 c hc

/-- A range that a write does not touch reads as before. -/
theorem Memory.readRange_write_other (m : Memory) (b : Byte) (n : Nat) :
    ∀ o k, (∀ i, o ≤ i → i < o + n → i ≠ k) → (m.write k b).readRange o n = m.readRange o n := by
  induction n with
  | zero => intros; rfl
  | succ n ih =>
    intro o k h
    simp only [Memory.readRange]
    rw [Memory.read_write_other m b (h o (Nat.le_refl o) (by omega)),
      ih (o + 1) k (fun i h1 h2 => h i (by omega) (by omega))]

/-- A range one longer is the range and the byte after it. -/
theorem Memory.readRange_succ (m : Memory) (n : Nat) :
    ∀ o, m.readRange o (n + 1) =
      match m.readRange o n, m.read (o + n) with
      | some bs, some b => some (bs ++ [b])
      | _, _ => none := by
  induction n with
  | zero =>
    intro o
    simp only [Memory.readRange, Nat.add_zero]
    cases m.read o <;> rfl
  | succ n ih =>
    intro o
    rw [Memory.readRange, ih (o + 1)]
    simp only [Memory.readRange]
    rw [show o + 1 + n = o + (n + 1) by omega]
    cases m.read o <;> cases m.readRange (o + 1) n <;> cases m.read (o + (n + 1)) <;> simp

theorem Memory.readRange_length {m : Memory} {n : Nat} :
    ∀ {o bs}, m.readRange o n = some bs → bs.length = n := by
  induction n with
  | zero => intro o bs h; simp [Memory.readRange] at h; simp [← h]
  | succ n ih =>
    intro o bs h
    simp only [Memory.readRange] at h
    split at h
    · rename_i _ h2
      cases h
      simp [ih h2]
    · cases h

/-- The bytes of a range are those read one by one. -/
theorem Memory.readRange_getElem? {m : Memory} {n : Nat} :
    ∀ {o bs}, m.readRange o n = some bs → ∀ i, i < n → bs[i]? = m.read (o + i) := by
  induction n with
  | zero => intro o bs _ i hi; omega
  | succ n ih =>
    intro o bs h i hi
    simp only [Memory.readRange] at h
    split at h
    · rename_i _ _ h1 h2
      cases h
      cases i with
      | zero => simp [h1]
      | succ i =>
        rw [List.getElem?_cons_succ, ih h2 i (by omega)]
        congr 1
        omega
    · cases h

/-- A range is readable exactly when each of its bytes is. -/
theorem Memory.readRange_isSome {m : Memory} {n : Nat} :
    ∀ {o}, (∀ i < n, (m.read (o + i)).isSome) → (m.readRange o n).isSome := by
  induction n with
  | zero => intros; rfl
  | succ n ih =>
    intro o h
    simp only [Memory.readRange]
    have h0 := h 0 (by omega)
    have h1 := @ih (o + 1) (fun i hi => by
      have := h (i + 1) (by omega)
      rwa [show o + (i + 1) = o + 1 + i by omega] at this)
    obtain ⟨b, hb⟩ := Option.isSome_iff_exists.mp h0
    obtain ⟨bs, hbs⟩ := Option.isSome_iff_exists.mp h1
    rw [Nat.add_zero] at hb
    simp [hb, hbs]

/-- Storing the next byte appends it to the frame (rules R14, R91). -/
theorem frame_storeByte {s : State} {m : List Byte} (b : Byte) (h : s.frame = some m) :
    (storeByte b s).frame = some (m ++ [b]) := by
  unfold State.frame at h ⊢
  show (s.buf.write s.len b).readRange 0 (s.len + 1) = _
  rw [Memory.readRange_succ, Nat.zero_add, Memory.read_write_same,
    Memory.readRange_write_other _ _ _ 0 s.len (by intro i _ hi; omega), h]

theorem frame_length {s : State} {m : List Byte} (h : s.frame = some m) : m.length = s.len :=
  Memory.readRange_length h

/-- Writing bytes one after the other keeps the canonical form. -/
theorem Memory.writeBytes_wf {m : Memory} (o : Nat) (bs : List Byte) (h : m.wf) : (m.writeBytes o bs).wf := by
  induction bs generalizing m o with
  | nil => exact h
  | cons b bs ih => exact ih (o + 1) (Memory.write_wf o b h)

/-- Bytes laid out from an offset on are in canonical form, past that offset. -/
theorem Memory.ofBytes_ge {o : Nat} {bs : List Byte} {c : Host.Cell} (h : c ∈ Memory.ofBytes o bs) : o ≤ c.1 := by
  induction bs generalizing o with
  | nil => simp [Memory.ofBytes] at h
  | cons b bs ih =>
    rcases List.mem_cons.mp h with rfl | h
    · exact Nat.le_refl _
    · exact Nat.le_of_succ_le (ih h)

theorem Memory.ofBytes_wf (o : Nat) (bs : List Byte) : (Memory.ofBytes o bs).wf := by
  induction bs generalizing o with
  | nil => exact List.Pairwise.nil
  | cons b bs ih => exact List.pairwise_cons.mpr ⟨fun c hc => Memory.ofBytes_ge hc, ih (o + 1)⟩

/-- Reading bytes laid out from an offset on. -/
theorem Memory.read_ofBytes (o i : Nat) (bs : List Byte) : (Memory.ofBytes o bs).read (o + i) = bs[i]? := by
  induction bs generalizing o i with
  | nil => rfl
  | cons b bs ih =>
    cases i with
    | zero => simp [Memory.ofBytes, Memory.read]
    | succ i =>
      have h : o + (i + 1) = o + 1 + i := by omega
      simp [Memory.ofBytes, Memory.read, h, ih, show o + 1 + i ≠ o by omega]

/-- The cells of bytes laid out from an offset on lie before the offset past the last. -/
theorem Memory.ofBytes_lt {o : Nat} {bs : List Byte} {c : Host.Cell} (h : c ∈ Memory.ofBytes o bs) :
    c.1 < o + bs.length := by
  induction bs generalizing o with
  | nil => simp [Memory.ofBytes] at h
  | cons b bs ih =>
    have hl : (b :: bs).length = bs.length + 1 := rfl
    rcases List.mem_cons.mp h with rfl | h
    · simp only [hl]; omega
    · have := ih h; omega

@[simp] theorem freeBytes_length (k n : Nat) : (freeBytes k n).length = n := by
  induction n generalizing k with
  | zero => rfl
  | succ n ih => simp [freeBytes, ih]

/-- A buffer after reset: in canonical form, and exactly its offsets exist, each with a byte. -/
theorem freshBuffer_wf (k n : Nat) : (freshBuffer k n).wf := Memory.ofBytes_wf 0 _

theorem freshBuffer_inside {k n : Nat} {c : Host.Cell} (h : c ∈ freshBuffer k n) : c.1 < n := by
  simpa using Memory.ofBytes_lt h

theorem freshBuffer_isSome (k n o : Nat) : ((freshBuffer k n).read o).isSome ↔ o < n := by
  have h := Memory.read_ofBytes 0 o (freeBytes k n)
  rw [Nat.zero_add] at h
  simp [freshBuffer, h]

/-- The buffer at reset is in canonical form. -/
theorem State.reset_buf_wf : State.reset.buf.wf := freshBuffer_wf _ _

/-- A write within a whole buffer leaves it whole. -/
theorem Memory.write_whole {m : Memory} {n : Nat} (o : Nat) (b : Byte) (h : ∀ i < n, (m.read i).isSome) :
    ∀ i < n, ((m.write o b).read i).isSome := by
  intro i hi
  by_cases hio : i = o
  · subst hio; simp [Memory.read_write_same]
  · rw [Memory.read_write_other m b hio]; exact h i hi

/-- The accumulated bytes of a whole buffer are there (rule R14). -/
theorem frame_isSome {s : State} (hl : s.len ≤ s.cfg.maxMsgLen)
    (h : ∀ i < s.cfg.maxMsgLen, (s.buf.read i).isSome) : s.frame.isSome :=
  Memory.readRange_isSome (fun i hi => by simpa using h i (by omega))

end Sys2Proof.Machine
end

