-- ==== Sys2Proof/Laws/State.lean ====
section
/-! SUPPORT. One lemma per field of State and per shared update of it. -/

namespace Sys2Proof.Machine

/-- `build` is the template table (rules R47, R69). -/
@[simp] theorem build_eq (cfg : Config) (c : CmdId) : build cfg c = template cfg c := by cases c <;> rfl

@[simp] theorem raise_cfg (k : ErrKind) (s : State) :
    (raise k s).cfg = s.cfg := rfl
@[simp] theorem raise_life (k : ErrKind) (s : State) :
    (raise k s).life = if s.life = .opening then .closed else s.life := rfl
@[simp] theorem raise_phase (k : ErrKind) (s : State) :
    (raise k s).phase = .faulted := rfl
@[simp] theorem raise_cmd (k : ErrKind) (s : State) :
    (raise k s).cmd = s.cmd := rfl
@[simp] theorem raise_buf (k : ErrKind) (s : State) :
    (raise k s).buf = s.buf := rfl
@[simp] theorem raise_len (k : ErrKind) (s : State) :
    (raise k s).len = s.len := rfl
@[simp] theorem raise_status (k : ErrKind) (s : State) :
    (raise k s).status = .err k := rfl
@[simp] theorem raise_rclass (k : ErrKind) (s : State) :
    (raise k s).rclass = s.rclass := rfl
@[simp] theorem raise_val0 (k : ErrKind) (s : State) :
    (raise k s).val0 = s.val0 := rfl
@[simp] theorem raise_val1 (k : ErrKind) (s : State) :
    (raise k s).val1 = s.val1 := rfl
@[simp] theorem raise_mode (k : ErrKind) (s : State) :
    (raise k s).mode = s.mode := rfl
@[simp] theorem raise_cFocus (k : ErrKind) (s : State) :
    (raise k s).cFocus = s.cFocus := rfl
@[simp] theorem raise_cWb (k : ErrKind) (s : State) :
    (raise k s).cWb = s.cWb := rfl
@[simp] theorem raise_cAe (k : ErrKind) (s : State) :
    (raise k s).cAe = s.cAe := rfl
@[simp] theorem raise_hostq (k : ErrKind) (s : State) :
    (raise k s).hostq = s.hostq := rfl
@[simp] theorem raise_acqq (k : ErrKind) (s : State) :
    (raise k s).acqq = s.acqq := rfl
@[simp] theorem raise_txq (k : ErrKind) (s : State) :
    (raise k s).txq = s.txq := rfl
@[simp] theorem raise_rxq (k : ErrKind) (s : State) :
    (raise k s).rxq = s.rxq := rfl
@[simp] theorem raise_written (k : ErrKind) (s : State) :
    (raise k s).written = s.written := rfl
@[simp] theorem raise_slot (k : ErrKind) (s : State) :
    (raise k s).slot = s.slot := rfl
@[simp] theorem raise_ret (k : ErrKind) (s : State) :
    (raise k s).ret = s.ret := rfl
@[simp] theorem raise_free (k : ErrKind) (s : State) :
    (raise k s).free = s.free := rfl

@[simp] theorem commit_cfg (cls : EnvClass) (p : Payload) (s : State) :
    (commit cls p s).cfg = s.cfg := rfl
@[simp] theorem commit_life (cls : EnvClass) (p : Payload) (s : State) :
    (commit cls p s).life = if s.life = .opening then .opened else s.life := rfl
@[simp] theorem commit_phase (cls : EnvClass) (p : Payload) (s : State) :
    (commit cls p s).phase = .completed := rfl
@[simp] theorem commit_cmd (cls : EnvClass) (p : Payload) (s : State) :
    (commit cls p s).cmd = s.cmd := rfl
@[simp] theorem commit_buf (cls : EnvClass) (p : Payload) (s : State) :
    (commit cls p s).buf = s.buf := rfl
@[simp] theorem commit_len (cls : EnvClass) (p : Payload) (s : State) :
    (commit cls p s).len = s.len := rfl
@[simp] theorem commit_status (cls : EnvClass) (p : Payload) (s : State) :
    (commit cls p s).status = .ok := rfl
@[simp] theorem commit_rclass (cls : EnvClass) (p : Payload) (s : State) :
    (commit cls p s).rclass = RClass.ofEnv cls := rfl
@[simp] theorem commit_val0 (cls : EnvClass) (p : Payload) (s : State) :
    (commit cls p s).val0 = p.val0.getD s.val0 := rfl
@[simp] theorem commit_val1 (cls : EnvClass) (p : Payload) (s : State) :
    (commit cls p s).val1 = p.val1.getD s.val1 := rfl
@[simp] theorem commit_mode (cls : EnvClass) (p : Payload) (s : State) :
    (commit cls p s).mode = p.mode.getD s.mode := rfl
@[simp] theorem commit_cFocus (cls : EnvClass) (p : Payload) (s : State) :
    (commit cls p s).cFocus = if s.cmd = .inqFocusMode then p.mode.getD s.mode else s.cFocus := rfl
@[simp] theorem commit_cWb (cls : EnvClass) (p : Payload) (s : State) :
    (commit cls p s).cWb = if s.cmd = .inqWbMode then p.mode.getD s.mode else s.cWb := rfl
@[simp] theorem commit_cAe (cls : EnvClass) (p : Payload) (s : State) :
    (commit cls p s).cAe = if s.cmd = .inqAeMode then p.mode.getD s.mode else s.cAe := rfl
@[simp] theorem commit_hostq (cls : EnvClass) (p : Payload) (s : State) :
    (commit cls p s).hostq = s.hostq := rfl
@[simp] theorem commit_acqq (cls : EnvClass) (p : Payload) (s : State) :
    (commit cls p s).acqq = s.acqq := rfl
@[simp] theorem commit_txq (cls : EnvClass) (p : Payload) (s : State) :
    (commit cls p s).txq = s.txq := rfl
@[simp] theorem commit_rxq (cls : EnvClass) (p : Payload) (s : State) :
    (commit cls p s).rxq = s.rxq := rfl
@[simp] theorem commit_written (cls : EnvClass) (p : Payload) (s : State) :
    (commit cls p s).written = s.written := rfl
@[simp] theorem commit_slot (cls : EnvClass) (p : Payload) (s : State) :
    (commit cls p s).slot = s.slot := rfl
@[simp] theorem commit_ret (cls : EnvClass) (p : Payload) (s : State) :
    (commit cls p s).ret = s.ret := rfl
@[simp] theorem commit_free (cls : EnvClass) (p : Payload) (s : State) :
    (commit cls p s).free = s.free := rfl

@[simp] theorem storeByte_cfg (b : Byte) (s : State) :
    (storeByte b s).cfg = s.cfg := rfl
@[simp] theorem storeByte_life (b : Byte) (s : State) :
    (storeByte b s).life = s.life := rfl
@[simp] theorem storeByte_phase (b : Byte) (s : State) :
    (storeByte b s).phase = s.phase := rfl
@[simp] theorem storeByte_cmd (b : Byte) (s : State) :
    (storeByte b s).cmd = s.cmd := rfl
@[simp] theorem storeByte_buf (b : Byte) (s : State) :
    (storeByte b s).buf = s.buf.write s.len b := rfl
@[simp] theorem storeByte_len (b : Byte) (s : State) :
    (storeByte b s).len = s.len + 1 := rfl
@[simp] theorem storeByte_status (b : Byte) (s : State) :
    (storeByte b s).status = s.status := rfl
@[simp] theorem storeByte_rclass (b : Byte) (s : State) :
    (storeByte b s).rclass = s.rclass := rfl
@[simp] theorem storeByte_val0 (b : Byte) (s : State) :
    (storeByte b s).val0 = s.val0 := rfl
@[simp] theorem storeByte_val1 (b : Byte) (s : State) :
    (storeByte b s).val1 = s.val1 := rfl
@[simp] theorem storeByte_mode (b : Byte) (s : State) :
    (storeByte b s).mode = s.mode := rfl
@[simp] theorem storeByte_cFocus (b : Byte) (s : State) :
    (storeByte b s).cFocus = s.cFocus := rfl
@[simp] theorem storeByte_cWb (b : Byte) (s : State) :
    (storeByte b s).cWb = s.cWb := rfl
@[simp] theorem storeByte_cAe (b : Byte) (s : State) :
    (storeByte b s).cAe = s.cAe := rfl
@[simp] theorem storeByte_hostq (b : Byte) (s : State) :
    (storeByte b s).hostq = s.hostq := rfl
@[simp] theorem storeByte_acqq (b : Byte) (s : State) :
    (storeByte b s).acqq = s.acqq := rfl
@[simp] theorem storeByte_txq (b : Byte) (s : State) :
    (storeByte b s).txq = s.txq := rfl
@[simp] theorem storeByte_rxq (b : Byte) (s : State) :
    (storeByte b s).rxq = s.rxq := rfl
@[simp] theorem storeByte_written (b : Byte) (s : State) :
    (storeByte b s).written = s.written := rfl
@[simp] theorem storeByte_slot (b : Byte) (s : State) :
    (storeByte b s).slot = s.slot := rfl
@[simp] theorem storeByte_ret (b : Byte) (s : State) :
    (storeByte b s).ret = s.ret := rfl
@[simp] theorem storeByte_free (b : Byte) (s : State) :
    (storeByte b s).free = s.free := rfl

@[simp] theorem beginCommand_cfg (c : CmdId) (s : State) :
    (beginCommand c s).cfg = s.cfg := rfl
@[simp] theorem beginCommand_life (c : CmdId) (s : State) :
    (beginCommand c s).life = s.life := rfl
@[simp] theorem beginCommand_phase (c : CmdId) (s : State) :
    (beginCommand c s).phase = s.phase := rfl
@[simp] theorem beginCommand_cmd (c : CmdId) (s : State) :
    (beginCommand c s).cmd = c := rfl
@[simp] theorem beginCommand_buf (c : CmdId) (s : State) :
    (beginCommand c s).buf = s.buf := rfl
@[simp] theorem beginCommand_len (c : CmdId) (s : State) :
    (beginCommand c s).len = 0 := rfl
@[simp] theorem beginCommand_status (c : CmdId) (s : State) :
    (beginCommand c s).status = .none := rfl
@[simp] theorem beginCommand_rclass (c : CmdId) (s : State) :
    (beginCommand c s).rclass = .noClass := rfl
@[simp] theorem beginCommand_val0 (c : CmdId) (s : State) :
    (beginCommand c s).val0 = 0 := rfl
@[simp] theorem beginCommand_val1 (c : CmdId) (s : State) :
    (beginCommand c s).val1 = 0 := rfl
@[simp] theorem beginCommand_mode (c : CmdId) (s : State) :
    (beginCommand c s).mode = .unknown := rfl
@[simp] theorem beginCommand_cFocus (c : CmdId) (s : State) :
    (beginCommand c s).cFocus = s.cFocus := rfl
@[simp] theorem beginCommand_cWb (c : CmdId) (s : State) :
    (beginCommand c s).cWb = s.cWb := rfl
@[simp] theorem beginCommand_cAe (c : CmdId) (s : State) :
    (beginCommand c s).cAe = s.cAe := rfl
@[simp] theorem beginCommand_hostq (c : CmdId) (s : State) :
    (beginCommand c s).hostq = s.hostq := rfl
@[simp] theorem beginCommand_acqq (c : CmdId) (s : State) :
    (beginCommand c s).acqq = s.acqq := rfl
@[simp] theorem beginCommand_txq (c : CmdId) (s : State) :
    (beginCommand c s).txq = s.txq := rfl
@[simp] theorem beginCommand_rxq (c : CmdId) (s : State) :
    (beginCommand c s).rxq = s.rxq := rfl
@[simp] theorem beginCommand_written (c : CmdId) (s : State) :
    (beginCommand c s).written = s.written ++ [template s.cfg c] := by simp [beginCommand]
@[simp] theorem beginCommand_slot (c : CmdId) (s : State) :
    (beginCommand c s).slot = s.slot := rfl
@[simp] theorem beginCommand_ret (c : CmdId) (s : State) :
    (beginCommand c s).ret = s.ret := rfl
@[simp] theorem beginCommand_free (c : CmdId) (s : State) :
    (beginCommand c s).free = s.free := rfl

@[simp] theorem settlePhase_cfg (s : State) :
    (settlePhase s).cfg = s.cfg := rfl
@[simp] theorem settlePhase_life (s : State) :
    (settlePhase s).life = s.life := rfl
@[simp] theorem settlePhase_phase (s : State) :
    (settlePhase s).phase = .receiving := rfl
@[simp] theorem settlePhase_cmd (s : State) :
    (settlePhase s).cmd = s.cmd := rfl
@[simp] theorem settlePhase_buf (s : State) :
    (settlePhase s).buf = s.buf := rfl
@[simp] theorem settlePhase_len (s : State) :
    (settlePhase s).len = s.len := rfl
@[simp] theorem settlePhase_status (s : State) :
    (settlePhase s).status = s.status := rfl
@[simp] theorem settlePhase_rclass (s : State) :
    (settlePhase s).rclass = s.rclass := rfl
@[simp] theorem settlePhase_val0 (s : State) :
    (settlePhase s).val0 = s.val0 := rfl
@[simp] theorem settlePhase_val1 (s : State) :
    (settlePhase s).val1 = s.val1 := rfl
@[simp] theorem settlePhase_mode (s : State) :
    (settlePhase s).mode = s.mode := rfl
@[simp] theorem settlePhase_cFocus (s : State) :
    (settlePhase s).cFocus = s.cFocus := rfl
@[simp] theorem settlePhase_cWb (s : State) :
    (settlePhase s).cWb = s.cWb := rfl
@[simp] theorem settlePhase_cAe (s : State) :
    (settlePhase s).cAe = s.cAe := rfl
@[simp] theorem settlePhase_hostq (s : State) :
    (settlePhase s).hostq = s.hostq := rfl
@[simp] theorem settlePhase_acqq (s : State) :
    (settlePhase s).acqq = s.acqq := rfl
@[simp] theorem settlePhase_txq (s : State) :
    (settlePhase s).txq = s.txq := rfl
@[simp] theorem settlePhase_rxq (s : State) :
    (settlePhase s).rxq = s.rxq := rfl
@[simp] theorem settlePhase_written (s : State) :
    (settlePhase s).written = s.written := rfl
@[simp] theorem settlePhase_slot (s : State) :
    (settlePhase s).slot = s.slot := rfl
@[simp] theorem settlePhase_ret (s : State) :
    (settlePhase s).ret = s.ret := rfl
@[simp] theorem settlePhase_free (s : State) :
    (settlePhase s).free = s.free := rfl

@[simp] theorem returning_cfg (r : Ret) (s : State) :
    (returning r s).cfg = s.cfg := rfl
@[simp] theorem returning_life (r : Ret) (s : State) :
    (returning r s).life = s.life := rfl
@[simp] theorem returning_phase (r : Ret) (s : State) :
    (returning r s).phase = s.phase := rfl
@[simp] theorem returning_cmd (r : Ret) (s : State) :
    (returning r s).cmd = s.cmd := rfl
@[simp] theorem returning_buf (r : Ret) (s : State) :
    (returning r s).buf = s.buf := rfl
@[simp] theorem returning_len (r : Ret) (s : State) :
    (returning r s).len = s.len := rfl
@[simp] theorem returning_status (r : Ret) (s : State) :
    (returning r s).status = s.status := rfl
@[simp] theorem returning_rclass (r : Ret) (s : State) :
    (returning r s).rclass = s.rclass := rfl
@[simp] theorem returning_val0 (r : Ret) (s : State) :
    (returning r s).val0 = s.val0 := rfl
@[simp] theorem returning_val1 (r : Ret) (s : State) :
    (returning r s).val1 = s.val1 := rfl
@[simp] theorem returning_mode (r : Ret) (s : State) :
    (returning r s).mode = s.mode := rfl
@[simp] theorem returning_cFocus (r : Ret) (s : State) :
    (returning r s).cFocus = s.cFocus := rfl
@[simp] theorem returning_cWb (r : Ret) (s : State) :
    (returning r s).cWb = s.cWb := rfl
@[simp] theorem returning_cAe (r : Ret) (s : State) :
    (returning r s).cAe = s.cAe := rfl
@[simp] theorem returning_hostq (r : Ret) (s : State) :
    (returning r s).hostq = s.hostq := rfl
@[simp] theorem returning_acqq (r : Ret) (s : State) :
    (returning r s).acqq = s.acqq := rfl
@[simp] theorem returning_txq (r : Ret) (s : State) :
    (returning r s).txq = s.txq := rfl
@[simp] theorem returning_rxq (r : Ret) (s : State) :
    (returning r s).rxq = s.rxq := rfl
@[simp] theorem returning_written (r : Ret) (s : State) :
    (returning r s).written = s.written := rfl
@[simp] theorem returning_slot (r : Ret) (s : State) :
    (returning r s).slot = s.slot := rfl
@[simp] theorem returning_ret (r : Ret) (s : State) :
    (returning r s).ret = r := rfl
@[simp] theorem returning_free (r : Ret) (s : State) :
    (returning r s).free = s.free := rfl

@[simp] theorem resetEvent_cfg (s : State) :
    (resetEvent s).cfg = s.cfg := rfl
@[simp] theorem resetEvent_life (s : State) :
    (resetEvent s).life = .closed := rfl
@[simp] theorem resetEvent_phase (s : State) :
    (resetEvent s).phase = .idle := rfl
@[simp] theorem resetEvent_cmd (s : State) :
    (resetEvent s).cmd = .reset := rfl
@[simp] theorem resetEvent_buf (s : State) :
    (resetEvent s).buf = freshBuffer s.free s.cfg.maxMsgLen := rfl
@[simp] theorem resetEvent_len (s : State) :
    (resetEvent s).len = 0 := rfl
@[simp] theorem resetEvent_status (s : State) :
    (resetEvent s).status = .none := rfl
@[simp] theorem resetEvent_rclass (s : State) :
    (resetEvent s).rclass = .noClass := rfl
@[simp] theorem resetEvent_val0 (s : State) :
    (resetEvent s).val0 = 0 := rfl
@[simp] theorem resetEvent_val1 (s : State) :
    (resetEvent s).val1 = 0 := rfl
@[simp] theorem resetEvent_mode (s : State) :
    (resetEvent s).mode = .unknown := rfl
@[simp] theorem resetEvent_cFocus (s : State) :
    (resetEvent s).cFocus = .unknown := rfl
@[simp] theorem resetEvent_cWb (s : State) :
    (resetEvent s).cWb = .unknown := rfl
@[simp] theorem resetEvent_cAe (s : State) :
    (resetEvent s).cAe = .unknown := rfl
@[simp] theorem resetEvent_hostq (s : State) :
    (resetEvent s).hostq = s.hostq := rfl
@[simp] theorem resetEvent_acqq (s : State) :
    (resetEvent s).acqq = s.acqq := rfl
@[simp] theorem resetEvent_txq (s : State) :
    (resetEvent s).txq = s.txq := rfl
@[simp] theorem resetEvent_rxq (s : State) :
    (resetEvent s).rxq = s.rxq := rfl
@[simp] theorem resetEvent_written (s : State) :
    (resetEvent s).written = s.written := rfl
@[simp] theorem resetEvent_slot (s : State) :
    (resetEvent s).slot = s.slot := rfl
@[simp] theorem resetEvent_ret (s : State) :
    (resetEvent s).ret = s.ret := rfl
@[simp] theorem resetEvent_free (s : State) :
    (resetEvent s).free = s.free + s.cfg.maxMsgLen := rfl

end Sys2Proof.Machine
end

