-- ==== Sys2Proof/Laws/Ops.lean ====
section
/-! SUPPORT. What each shared operation can do, said once: later proofs cite these instead of unfolding it. -/

namespace Sys2Proof.Machine

/-! ### Bounds and codec -/

/-- `MemRead` on a bare sequence and on a framed message (rules R7, R31). -/
theorem View.read_bare (m : List Byte) (o n : Nat) :
    (View.bare m).read o n = if o + n ≤ m.length then .ok ((m.drop o).take n) else .error .framingError := rfl

theorem View.read_framed (m : List Byte) (o n : Nat) :
    (View.framed m).read o n = if o + n ≤ m.length - 1 then .ok ((m.drop o).take n) else .error .framingError := rfl

theorem View.read_inside {v : View} {o n : Nat} (h : o + n ≤ v.limit) :
    v.read o n = .ok ((v.bytes.drop o).take n) := by simp [View.read, h]

theorem View.read_outside {v : View} {o n : Nat} (h : v.limit < o + n) : v.read o n = .error .framingError := by
  simp [View.read, Nat.not_le.mpr h]

theorem decodeByte_inside {v : View} {o : Nat} {b : Byte} (h : o + 1 ≤ v.limit) (hb : v.bytes[o]? = some b) :
    decodeByte v o = .ok b := by
  obtain ⟨hlt, rfl⟩ := List.getElem?_eq_some_iff.mp hb
  simp only [decodeByte, View.read_inside h]
  rw [List.drop_eq_getElem_cons hlt]
  rfl

theorem decodeByte_outside {v : View} {o : Nat} (h : v.limit < o + 1) : decodeByte v o = .error .framingError := by
  simp [decodeByte, View.read_outside h]

theorem decodeWord_inside {v : View} {o : Nat} {b0 b1 b2 b3 : Byte} (h : o + 4 ≤ v.limit)
    (h0 : v.bytes[o]? = some b0) (h1 : v.bytes[o + 1]? = some b1) (h2 : v.bytes[o + 2]? = some b2)
    (h3 : v.bytes[o + 3]? = some b3) :
    decodeWord v o = .ok (wordOfNibbles (lo4 b0) (lo4 b1) (lo4 b2) (lo4 b3)) := by
  obtain ⟨l0, rfl⟩ := List.getElem?_eq_some_iff.mp h0
  obtain ⟨l1, rfl⟩ := List.getElem?_eq_some_iff.mp h1
  obtain ⟨l2, rfl⟩ := List.getElem?_eq_some_iff.mp h2
  obtain ⟨l3, rfl⟩ := List.getElem?_eq_some_iff.mp h3
  simp only [decodeWord, View.read_inside h]
  rw [List.drop_eq_getElem_cons l0, List.drop_eq_getElem_cons l1, List.drop_eq_getElem_cons l2,
    List.drop_eq_getElem_cons l3]
  rfl

theorem decodeWord_outside {v : View} {o : Nat} (h : v.limit < o + 4) : decodeWord v o = .error .framingError := by
  simp [decodeWord, View.read_outside h]

theorem decodeShort_inside {r : ShortRule} {v : View} {o : Nat} {b0 b1 : Byte} (h : o + 2 ≤ v.limit)
    (h0 : v.bytes[o]? = some b0) (h1 : v.bytes[o + 1]? = some b1) :
    decodeShort r v o = .ok (shortOfBytes r b0 b1) := by
  obtain ⟨l0, rfl⟩ := List.getElem?_eq_some_iff.mp h0
  obtain ⟨l1, rfl⟩ := List.getElem?_eq_some_iff.mp h1
  simp only [decodeShort, View.read_inside h]
  rw [List.drop_eq_getElem_cons l0, List.drop_eq_getElem_cons l1]
  rfl

theorem decodeShort_outside {r : ShortRule} {v : View} {o : Nat} (h : v.limit < o + 2) :
    decodeShort r v o = .error .framingError := by
  simp [decodeShort, View.read_outside h]

/-- What a message operand is, in its three forms. -/
@[simp] theorem decodeWith_bare (m : List Byte) (f : View → Ret) (s : State) :
    decodeWith (.bare m) f s = .next (returning (f (.bare m)) s) := rfl

@[simp] theorem decodeWith_framed (m : List Byte) (f : View → Ret) (s : State) :
    decodeWith (.framed m) f s = .next (returning (f (.framed m)) s) := rfl

/-! ### Frames and `FINISH` -/

/-- The frame of a state that holds one, given to `withFrame`. -/
theorem withFrame_of {s : State} {m : List Byte} (k : List Byte → Result) (hp : s.phase = .receiving)
    (hf : s.frame = some m) (hl : m.getLast? = some sentinel) : withFrame s k = k m := by
  simp [withFrame, hp, hf, hl]

/-- Where `FINISH` has no complete frame to work on, nothing reads the buffer (rules R36, R39). -/
theorem withFrame_idle {s : State} (k : List Byte → Result) (hp : s.phase ≠ .receiving) :
    withFrame s k = .refused .notEnabled := if_neg hp

theorem withFrame_partial {s : State} {m : List Byte} (k : List Byte → Result) (hf : s.frame = some m)
    (hl : m.getLast? ≠ some sentinel) : withFrame s k = .refused .notEnabled := by
  simp [withFrame, hf, hl]

/-- The receive buffer as a message operand is the complete frame. -/
theorem decodeWith_buffer {s : State} {m : List Byte} (f : View → Ret) (hp : s.phase = .receiving)
    (hf : s.frame = some m) (hl : m.getLast? = some sentinel) :
    decodeWith .buffer f s = .next (returning (f (.framed m)) s) := withFrame_of _ hp hf hl

/-- If `withFrame` answers a next state, the state held a complete frame. -/
theorem withFrame_next {s s' : State} {k : List Byte → Result} (h : withFrame s k = .next s') :
    s.phase = .receiving ∧ ∃ m, s.frame = some m ∧ m.getLast? = some sentinel ∧ k m = .next s' := by
  unfold withFrame at h
  split at h
  · rename_i hp
    split at h
    · cases h
    · rename_i m hm
      split at h
      · rename_i hl
        exact ⟨hp, m, hm, hl, h⟩
      · cases h
  · cases h

/-- A reply that is not an error ends in a fault or in a commit. -/
theorem finishReply_cases (cls : EnvClass) (m : List Byte) (s : State) :
    (∃ k, decodeReply s.cfg s.cmd (.framed m) = .error k ∧ finishReply cls m s = raise k s) ∨
    (∃ p, decodeReply s.cfg s.cmd (.framed m) = .ok p ∧ finishReply cls m s = commit cls p s) := by
  unfold finishReply
  cases h : decodeReply s.cfg s.cmd (.framed m) with
  | error k => exact .inl ⟨k, rfl, by simp⟩
  | ok p => exact .inr ⟨p, rfl, by simp⟩

theorem finishError_cases (m : List Byte) (s : State) :
    (m.length < 4 ∧ finishError m s = raise .framingError s) ∨
    (4 ≤ m.length ∧ finishError m s = raise (classifyError (m.getD 2 0)) s) := by
  unfold finishError
  split
  · exact .inl ⟨‹_›, rfl⟩
  · exact .inr ⟨by omega, rfl⟩

/-- `FINISH` ends a transaction, in one of two ways (rule R100). -/
theorem finishFrame_cases (m : List Byte) (s : State) :
    (∃ k, finishFrame m s = raise k s) ∨
    (∃ cls p, cls ≠ .error ∧ decodeReply s.cfg s.cmd (.framed m) = .ok p ∧ finishFrame m s = commit cls p s) := by
  unfold finishFrame
  split
  · exact .inl ⟨_, rfl⟩
  · split
    · rcases finishError_cases m s with ⟨_, h⟩ | ⟨_, h⟩ <;> exact .inl ⟨_, h⟩
    · rcases finishReply_cases .ack m s with ⟨k, _, h⟩ | ⟨p, hp, h⟩
      · exact .inl ⟨k, h⟩
      · exact .inr ⟨.ack, p, by decide, hp, h⟩
    · rcases finishReply_cases .completion m s with ⟨k, _, h⟩ | ⟨p, hp, h⟩
      · exact .inl ⟨k, h⟩
      · exact .inr ⟨.completion, p, by decide, hp, h⟩

/-- A mode inquiry's payload names its mode, and a payload never names a mode otherwise (rules R19, R106). -/
theorem decodeReply_mode {cfg : Config} {c : CmdId} {v : View} {p : Payload} (h : decodeReply cfg c v = .ok p) :
    p.mode.isSome ↔ c = .inqFocusMode ∨ c = .inqWbMode ∨ c = .inqAeMode := by
  have modes : ∀ (table : Byte → Option ModeVal), modeRecipe table v 2 = .ok p → p.mode.isSome := by
    intro table h
    unfold modeRecipe at h
    split at h
    · cases h
    · split at h
      · cases h; rfl
      · cases h
  have words : ∀ {r : Except ErrKind Word},
      (match r with | .ok w => Except.ok { val0 := some w } | .error k => .error k) = Except.ok p →
        p.mode = none := by
    intro r h
    cases r with
    | ok w => cases h; rfl
    | error k => cases h
  cases c <;> simp only [decodeReply, catalog, runRecipe] at h
  case inqPanTiltPos =>
    cases h1 : decodeWord v 2 <;> cases h2 : decodeWord v 6 <;> simp only [h1, h2] at h <;> cases h
    simp
  case inqFocusMode => simp [modes _ h]
  case inqWbMode => simp [modes _ h]
  case inqAeMode => simp [modes _ h]
  case reset => cases h; simp
  case clear => cases h; simp
  all_goals simp [words h]

/-- What `execute` returns after a fault: the kind, and no register (rules R27, R121). -/
theorem returnValue_raise (k : ErrKind) (s : State) : (raise k s).returnValue = ⟨.err k, {}⟩ := by
  simp [State.returnValue]

/-- What `execute` returns after a commit: exactly what the recipe decoded (rules R27, R100). -/
theorem returnValue_commit {cls : EnvClass} {p : Payload} {s : State} {v : View}
    (h : decodeReply s.cfg s.cmd v = .ok p) : (commit cls p s).returnValue = ⟨.ok, p⟩ := by
  have modes : ∀ (table : Byte → Option ModeVal), modeRecipe table v 2 = .ok p → ∃ x, p = { mode := some x } := by
    intro table h
    unfold modeRecipe at h
    split at h
    · cases h
    · split at h
      · cases h; exact ⟨_, rfl⟩
      · cases h
  have words : ∀ {r : Except ErrKind Word},
      (match r with | .ok w => Except.ok { val0 := some w } | .error k => .error k) = Except.ok p →
        ∃ w, p = { val0 := some w } := by
    intro r h
    cases r with
    | ok w => cases h; exact ⟨w, rfl⟩
    | error k => cases h
  cases hc : s.cmd <;> simp only [hc, decodeReply, catalog, runRecipe] at h
  case inqPanTiltPos =>
    cases h1 : decodeWord v 2 <;> cases h2 : decodeWord v 6 <;> simp only [h1, h2] at h <;> cases h
    simp [State.returnValue, hc, catalog, Recipe.named]
  case inqFocusMode => obtain ⟨_, rfl⟩ := modes _ h; simp [State.returnValue, hc, catalog, Recipe.named]
  case inqWbMode => obtain ⟨_, rfl⟩ := modes _ h; simp [State.returnValue, hc, catalog, Recipe.named]
  case inqAeMode => obtain ⟨_, rfl⟩ := modes _ h; simp [State.returnValue, hc, catalog, Recipe.named]
  case reset => cases h; simp [State.returnValue, hc, catalog, Recipe.named]
  case clear => cases h; simp [State.returnValue, hc, catalog, Recipe.named]
  all_goals obtain ⟨_, rfl⟩ := words h; simp [State.returnValue, hc, catalog, Recipe.named]

/-! ### The steps -/

/-- Everything `RX` can do when it answers a next state (rules R91 to R94). -/
theorem rxStep_cases {a : RxAnswer} {s s' : State} (h : rxStep a s = .next s') :
    s.phase = .receiving ∧
    ((∃ e, a = .fail e ∧ s' = raise (.transportError e) s) ∨
     (∃ b, a = .byte b ∧ s.len < s.cfg.maxMsgLen ∧
      ((b = sentinel ∧ ∃ m, (storeByte b s).frame = some m ∧ m.getLast? = some sentinel ∧
          s' = finishFrame m (storeByte b s)) ∨
       (b ≠ sentinel ∧ s.len + 1 = s.cfg.maxMsgLen ∧ s' = raise .framingError (storeByte b s)) ∨
       (b ≠ sentinel ∧ s.len + 1 ≠ s.cfg.maxMsgLen ∧ s' = storeByte b s)))) := by
  unfold rxStep at h
  split at h
  · rename_i hp
    refine ⟨hp, ?_⟩
    cases a with
    | fail e => exact .inl ⟨e, rfl, by simpa using h.symm⟩
    | byte b =>
      refine .inr ⟨b, rfl, ?_⟩
      simp only at h
      split at h
      · rename_i hlt
        refine ⟨hlt, ?_⟩
        split at h
        · rename_i hb
          obtain ⟨_, m, hm, hl, hk⟩ := withFrame_next h
          exact .inl ⟨hb, m, hm, hl, by simpa using hk.symm⟩
        · split at h
          · exact .inr (.inl ⟨‹_›, ‹_›, by simpa using h.symm⟩)
          · exact .inr (.inr ⟨‹_›, ‹_›, by simpa using h.symm⟩)
      · cases h
  · cases h

/-- `RX` of the sentinel in a state that holds its bytes (rule R92). -/
theorem rxStep_sentinel {s : State} {m : List Byte} (hp : s.phase = .receiving) (hl : s.len < s.cfg.maxMsgLen)
    (hf : s.frame = some m) :
    rxStep (.byte sentinel) s = .next (finishFrame (m ++ [sentinel]) (storeByte sentinel s)) := by
  simp only [rxStep, hp, hl, if_true, finishStep]
  exact withFrame_of _ (by simpa using hp) (frame_storeByte sentinel hf) (by simp)

/-- `RX` of any other byte, with room for more (rule R91). -/
theorem rxStep_byte {s : State} {b : Byte} (hp : s.phase = .receiving) (hl : s.len + 1 < s.cfg.maxMsgLen)
    (hb : b ≠ sentinel) : rxStep (.byte b) s = .next (storeByte b s) := by
  have h1 : s.len < s.cfg.maxMsgLen := by omega
  have h2 : s.len + 1 ≠ s.cfg.maxMsgLen := by omega
  simp [rxStep, hp, h1, h2, hb]

/-- `START` in its two outcomes (rule R98). -/
theorem startCommand_ok (c : CmdId) (s : State) :
    startCommand c .ok s = { beginCommand c s with phase := .sent } := rfl

theorem startCommand_fail (c : CmdId) (e : TransportErr) (s : State) :
    startCommand c (.fail e) s = raise (.transportError e) (beginCommand c s) := rfl

@[simp] theorem CmdId.ofCode_code (c : CmdId) : CmdId.ofCode c.code = some c := by cases c <;> rfl

/-- The twelve commands are the transaction of their `cmd_id`. -/
theorem exec_command (c : CmdId) (s : State) : exec c.instr s = transact c s := by cases c <;> rfl

theorem exec_execute (c : CmdId) (s : State) : exec (.execute c.code) s = transact c s := by
  simp [exec, execExecute]

theorem accepts_execute_iff (c : CmdId) (s : State) :
    s.accepts (.execute c.code) = true ↔ s.life = .opened ∧ s.phase.resting = true := by
  simp [State.accepts]

/-! ### The host operations and the steps, when they are accepted or enabled -/

theorem exec_open {s : State} (a : OpenAnswer) (h : s.accepts .openSession = true) :
    exec (.openSession a) s = .next (openWith a s) := if_pos h

theorem exec_close {s : State} (h : s.accepts .closeSession = true) :
    exec .closeSession s = .next { s with life := .closed } := if_pos h

theorem exec_start {s : State} {c : CmdId} (t : TxAnswer) (h : s.accepts (.execute c.code) = true) :
    exec (.start c t) s = .next (startCommand c t s) := by simp [exec, execStart, h]

theorem exec_settle {s : State} (h : s.phase = .sent) : exec .settle s = .next (settlePhase s) := if_pos h

theorem exec_finish {s : State} {m : List Byte} (hp : s.phase = .receiving) (hf : s.frame = some m)
    (hl : m.getLast? = some sentinel) : exec .finish s = .next (finishFrame m s) := withFrame_of _ hp hf hl

/-- A transaction whose write is answered (rules R96, R98, R99). -/
theorem transact_ok {c : CmdId} {s : State} {q : List TxAnswer} (ha : s.accepts (.execute c.code) = true)
    (ht : s.txq = .ok :: q) :
    transact c s = receive s.rxq (settlePhase (startCommand c .ok { s with txq := q })) := by
  simp only [transact, ha, if_true, ht]

/-- A transaction whose write fails (rule R98). -/
theorem transact_fail {c : CmdId} {s : State} {e : TransportErr} {q : List TxAnswer}
    (ha : s.accepts (.execute c.code) = true) (ht : s.txq = .fail e :: q) :
    transact c s = .next (startCommand c (.fail e) { s with txq := q }) := by
  simp only [transact, ha, if_true, ht]

/-- Whether a request is accepted depends on `life` and `phase` alone (rule R105). -/
theorem accepts_congr {s t : State} (r : Request) (hl : t.life = s.life) (hp : t.phase = s.phase) :
    t.accepts r = s.accepts r := by simp [State.accepts, hl, hp]

/-! ### Everything `exec` can do -/

/-- The ways an instruction changes the state when `exec` answers a next state. -/
inductive Effect (s : State) : State → Prop where
  | same : Effect s s
  | returns (r : Ret) : Effect s (returning r s)
  | faults (k : ErrKind) (m : List Byte) (hp : s.phase = .receiving) (hf : s.frame = some m)
      (hl : m.getLast? = some sentinel) : Effect s (raise k s)
  | commits (cls : EnvClass) (p : Payload) (m : List Byte) (hc : cls ≠ .error) (hp : s.phase = .receiving) (hf : s.frame = some m)
      (hl : m.getLast? = some sentinel) : Effect s (commit cls p s)
  | opens (a : OpenAnswer) (h : s.accepts .openSession = true) : Effect s (openWith a s)
  | closes (h : s.accepts .closeSession = true) : Effect s { s with life := .closed }
  | starts (c : CmdId) (t : TxAnswer) (hp : s.phase.resting = true)
      (h : s.life = .opened ∨ s.life = .opening ∧ c = .reset) : Effect s (startCommand c t s)
  | settles (hp : s.phase = .sent) : Effect s (settlePhase s)
  | receives (a : RxAnswer) (s' : State) (h : rxStep a s = .next s') : Effect s s'
  | transacts (c : CmdId) (s' : State) (h : transact c s = .next s') : Effect s s'

theorem Effect.of_finishFrame {s : State} {m : List Byte} (hp : s.phase = .receiving) (hf : s.frame = some m)
    (hl : m.getLast? = some sentinel) : Effect s (finishFrame m s) := by
  rcases finishFrame_cases m s with ⟨k, h⟩ | ⟨cls, p, hc, _, h⟩ <;> rw [h]
  · exact .faults k m hp hf hl
  · exact .commits cls p m hc hp hf hl

theorem Effect.of_finishReply {s : State} {m : List Byte} {cls : EnvClass} (hc : cls ≠ .error) (hp : s.phase = .receiving)
    (hf : s.frame = some m) (hl : m.getLast? = some sentinel) : Effect s (finishReply cls m s) := by
  rcases finishReply_cases cls m s with ⟨k, _, h⟩ | ⟨p, _, h⟩ <;> rw [h]
  · exact .faults k m hp hf hl
  · exact .commits cls p m hc hp hf hl

/-- If a reply pattern answers a next state, it stands at its place in a complete frame. -/
theorem atReplyByte_next {o : Nat} {b : Byte} {s s' : State} {k : List Byte → Result}
    (h : atReplyByte o b s k = .next s') :
    s.phase = .receiving ∧ ∃ m, s.frame = some m ∧ m.getLast? = some sentinel ∧ o + 2 ≤ m.length ∧
      m[o]? = some b ∧ k m = .next s' := by
  obtain ⟨hp, m, hf, hl, hk⟩ := withFrame_next h
  split at hk
  · rename_i hc
    exact ⟨hp, m, hf, hl, hc.1, hc.2, hk⟩
  · cases hk

/-- A reply pattern at its place. -/
theorem atReplyByte_of {o : Nat} {b : Byte} {s : State} {m : List Byte} (k : List Byte → Result)
    (hp : s.phase = .receiving) (hf : s.frame = some m) (hl : m.getLast? = some sentinel)
    (ho : o + 2 ≤ m.length) (hb : m[o]? = some b) : atReplyByte o b s k = k m := by
  rw [atReplyByte, withFrame_of _ hp hf hl]
  simp [ho, hb]

theorem atErrorDetail_effect {d : Byte} {k : ErrKind} {s s' : State} (h : atErrorDetail d k s = .next s') :
    Effect s s' := by
  obtain ⟨hp, m, hf, hl, _, _, hk⟩ := atReplyByte_next h
  split at hk
  · cases hk
    exact .faults k m hp hf hl
  · cases hk

theorem atModeByte_effect {c : CmdId} {b : Byte} {v : Option ModeVal} {s s' : State}
    (h : atModeByte c b v s = .next s') : Effect s s' := by
  obtain ⟨hp, m, hf, hl, _, _, hk⟩ := atReplyByte_next h
  split at hk
  · rename_i hc
    split at hk <;> cases hk
    · exact .commits _ _ m hc.2 hp hf hl
    · exact .faults _ m hp hf hl
  · cases hk

theorem decodeWith_effect {src : Source} {f : View → Ret} {s s' : State} (h : decodeWith src f s = .next s') :
    Effect s s' := by
  cases src with
  | bare m => cases h; exact .returns _
  | framed m => cases h; exact .returns _
  | buffer =>
    obtain ⟨_, m, _, _, hk⟩ := withFrame_next h
    cases hk
    exact .returns _

/-- The inversion lemma of `exec`. -/
theorem exec_effect {i : Instr} {s s' : State} (h : exec i s = .next s') : Effect s s' := by
  have guarded : ∀ {c : Prop} [Decidable c] {r : Refusal} {x : Result},
      (if c then .refused r else x) = .next s' → x = .next s' := by
    intro c _ r x h
    split at h
    · cases h
    · exact h
  cases i
  case envAck socket =>
    obtain ⟨hp, m, hf, hl, _, _, hk⟩ := atReplyByte_next h
    cases hk
    exact .of_finishReply (cls := .ack) (by decide) hp hf hl
  case envCompletion socket =>
    obtain ⟨hp, m, hf, hl, _, _, hk⟩ := atReplyByte_next h
    cases hk
    exact .of_finishReply (cls := .completion) (by decide) hp hf hl
  case envError cls socket =>
    obtain ⟨hp, m, hf, hl, _, _, hk⟩ := atReplyByte_next h
    have := guarded hk
    cases this
    rcases finishError_cases m s with ⟨_, h⟩ | ⟨_, h⟩ <;> rw [h] <;> exact .faults _ m hp hf hl
  case errMessageLength hi => exact atErrorDetail_effect (guarded h)
  case errUnknown d => exact atErrorDetail_effect (guarded h)
  case focusOther b => exact atModeByte_effect (guarded h)
  case wbOther b => exact atModeByte_effect (guarded h)
  case aeOther b => exact atModeByte_effect (guarded h)
  case fieldWord => cases h; exact .returns _
  case fieldShort => cases h; exact .returns _
  case fieldByte => cases h; exact .returns _
  case classifyEnvelope => cases h; exact .returns _
  case classifyError => cases h; exact .returns _
  case build => cases h; exact .returns _
  case openSession a =>
    simp only [exec, execOpen] at h
    split at h
    · cases h; exact .opens a ‹_›
    · cases h
  case closeSession =>
    simp only [exec, execClose] at h
    split at h
    · cases h; exact .closes ‹_›
    · cases h
  case execute id =>
    simp only [exec, execExecute] at h
    split at h
    · exact .transacts _ _ h
    · cases h
  case start c t =>
    simp only [exec, execStart] at h
    split at h
    · rename_i hc
      cases h
      simp only [Bool.or_eq_true, accepts_execute_iff, Bool.and_eq_true, beq_iff_eq] at hc
      rcases hc with hc | hc
      · exact .starts c t hc.2 (.inl hc.1)
      · exact .starts c t hc.1.2 (.inr ⟨hc.1.1, hc.2⟩)
    · cases h
  case settle =>
    simp only [exec, execSettle] at h
    split at h
    · cases h; exact .settles ‹_›
    · cases h
  case rx a => exact .receives a _ h
  case finish =>
    obtain ⟨hp, m, hf, hl, hk⟩ := withFrame_next h
    cases hk
    exact .of_finishFrame hp hf hl
  case encodeByte v w =>
    simp only [exec, execEncodeByte] at h
    split at h
    · cases h; exact .returns _
    · cases h
  case encodeWord v =>
    simp only [exec, execEncodeWord] at h
    split at h
    · cases h; exact .returns _
    · cases h
  case encodeShort v =>
    simp only [exec, execEncodeShort] at h
    split at h
    · cases h; exact .returns _
    · cases h
  case decodeByte =>
    simp only [exec, execDecodeByte] at h
    exact decodeWith_effect h
  case decodeWord =>
    simp only [exec, execDecodeWord] at h
    exact decodeWith_effect h
  case decodeShort =>
    simp only [exec, execDecodeShort] at h
    exact decodeWith_effect h
  case decodeReply =>
    simp only [exec, execDecodeReply] at h
    exact decodeWith_effect h
  case errCommand => exact atErrorDetail_effect h
  case errSyntax => exact atErrorDetail_effect h
  case errBufferFull => exact atErrorDetail_effect h
  case errCancel => exact atErrorDetail_effect h
  case errAddress => exact atErrorDetail_effect h
  case focusAuto =>
    simp only [exec, execFocusAuto] at h
    exact atModeByte_effect h
  case focusManual =>
    simp only [exec, execFocusManual] at h
    exact atModeByte_effect h
  case wbAuto =>
    simp only [exec, execWbAuto] at h
    exact atModeByte_effect h
  case wbIndoor =>
    simp only [exec, execWbIndoor] at h
    exact atModeByte_effect h
  case wbOutdoor =>
    simp only [exec, execWbOutdoor] at h
    exact atModeByte_effect h
  case wbOnePush =>
    simp only [exec, execWbOnePush] at h
    exact atModeByte_effect h
  case wbManual =>
    simp only [exec, execWbManual] at h
    exact atModeByte_effect h
  case aeAuto =>
    simp only [exec, execAeAuto] at h
    exact atModeByte_effect h
  case aeManual =>
    simp only [exec, execAeManual] at h
    exact atModeByte_effect h
  case aeShutter =>
    simp only [exec, execAeShutter] at h
    exact atModeByte_effect h
  case aeIris =>
    simp only [exec, execAeIris] at h
    exact atModeByte_effect h
  case aeBright =>
    simp only [exec, execAeBright] at h
    exact atModeByte_effect h
  all_goals exact .transacts _ _ h

end Sys2Proof.Machine
end

