-- ==== Sys2Proof/Laws/PerInstr.lean ====
section
/-! SUPPORT. Facts about every instruction as syntax, one lemma per constructor. -/

namespace Sys2Proof

/-- How many bytes a pattern has at its place (rules R42, R45, R49 to R55). -/
def Format.width : Format → Nat
  | .out5 => 5
  | .env => 1
  | .errDet => 1
  | .enumFocus => 1
  | .enumWb => 1
  | .enumAe => 1
  | .fieldWord => 4
  | .fieldShort => 2
  | .fieldByte => 1

namespace Laws.EncodedWidth

/-- The encoding of an instruction has as many bytes as its place. -/
def Statement (i : Instr) : Prop :=
  ∀ (cfg : Config) (f : Format) (bs : List Byte), cfg.valid = true → encode cfg i = some (f, bs) → bs.length = f.width

/-- The twelve outbound messages are their templates (rule R42). -/
theorem of_template {i : Instr} (c : CmdId) (h : ∀ cfg, encode cfg i = some (.out5, template cfg c)) : Statement i := by
  intro cfg f bs hv he
  rw [h] at he
  cases he
  exact Config.valid_length_template hv c

/-- A pattern whose bytes are written out. -/
theorem of_bytes {i : Instr} (h : ∀ cfg, ∃ f bs, encode cfg i = some (f, bs) ∧ bs.length = f.width) : Statement i := by
  intro cfg f bs _ he
  obtain ⟨f', bs', h', hl⟩ := h cfg
  rw [h'] at he
  cases he
  exact hl

/-- A row of format `OP` has no pattern (rule R59). -/
theorem of_none {i : Instr} (h : ∀ cfg, encode cfg i = none) : Statement i := by
  intro cfg f bs _ he
  rw [h] at he
  cases he

theorem reset : Statement .reset := of_template .reset fun _ => rfl
theorem clear : Statement .clear := of_template .clear fun _ => rfl
theorem inqZoomPos : Statement .inqZoomPos := of_template .inqZoomPos fun _ => rfl
theorem inqFocusPos : Statement .inqFocusPos := of_template .inqFocusPos fun _ => rfl
theorem inqFocusMode : Statement .inqFocusMode := of_template .inqFocusMode fun _ => rfl
theorem inqPanTiltPos : Statement .inqPanTiltPos := of_template .inqPanTiltPos fun _ => rfl
theorem inqWbMode : Statement .inqWbMode := of_template .inqWbMode fun _ => rfl
theorem inqAeMode : Statement .inqAeMode := of_template .inqAeMode fun _ => rfl
theorem inqShutterPos : Statement .inqShutterPos := of_template .inqShutterPos fun _ => rfl
theorem inqIrisPos : Statement .inqIrisPos := of_template .inqIrisPos fun _ => rfl
theorem inqGainPos : Statement .inqGainPos := of_template .inqGainPos fun _ => rfl
theorem inqBrightPos : Statement .inqBrightPos := of_template .inqBrightPos fun _ => rfl
theorem envAck (socket : Nibble) : Statement (.envAck socket) := of_bytes fun _ => ⟨_, _, rfl, rfl⟩
theorem envCompletion (socket : Nibble) : Statement (.envCompletion socket) := of_bytes fun _ => ⟨_, _, rfl, rfl⟩
theorem envError (cls socket : Nibble) : Statement (.envError cls socket) := of_bytes fun _ => ⟨_, _, rfl, rfl⟩
theorem errCommand : Statement .errCommand := of_bytes fun _ => ⟨_, _, rfl, rfl⟩
theorem errMessageLength (hi : Nibble) : Statement (.errMessageLength hi) := of_bytes fun _ => ⟨_, _, rfl, rfl⟩
theorem errSyntax (hi : Nibble) : Statement (.errSyntax hi) := of_bytes fun _ => ⟨_, _, rfl, rfl⟩
theorem errBufferFull (hi : Nibble) : Statement (.errBufferFull hi) := of_bytes fun _ => ⟨_, _, rfl, rfl⟩
theorem errCancel (hi : Nibble) : Statement (.errCancel hi) := of_bytes fun _ => ⟨_, _, rfl, rfl⟩
theorem errAddress (hi : Nibble) : Statement (.errAddress hi) := of_bytes fun _ => ⟨_, _, rfl, rfl⟩
theorem errUnknown (d : Byte) : Statement (.errUnknown d) := of_bytes fun _ => ⟨_, _, rfl, rfl⟩
theorem focusAuto : Statement .focusAuto := of_bytes fun _ => ⟨_, _, rfl, rfl⟩
theorem focusManual : Statement .focusManual := of_bytes fun _ => ⟨_, _, rfl, rfl⟩
theorem focusOther (b : Byte) : Statement (.focusOther b) := of_bytes fun _ => ⟨_, _, rfl, rfl⟩
theorem wbAuto : Statement .wbAuto := of_bytes fun _ => ⟨_, _, rfl, rfl⟩
theorem wbIndoor : Statement .wbIndoor := of_bytes fun _ => ⟨_, _, rfl, rfl⟩
theorem wbOutdoor : Statement .wbOutdoor := of_bytes fun _ => ⟨_, _, rfl, rfl⟩
theorem wbOnePush : Statement .wbOnePush := of_bytes fun _ => ⟨_, _, rfl, rfl⟩
theorem wbManual : Statement .wbManual := of_bytes fun _ => ⟨_, _, rfl, rfl⟩
theorem wbOther (b : Byte) : Statement (.wbOther b) := of_bytes fun _ => ⟨_, _, rfl, rfl⟩
theorem aeAuto : Statement .aeAuto := of_bytes fun _ => ⟨_, _, rfl, rfl⟩
theorem aeManual : Statement .aeManual := of_bytes fun _ => ⟨_, _, rfl, rfl⟩
theorem aeShutter : Statement .aeShutter := of_bytes fun _ => ⟨_, _, rfl, rfl⟩
theorem aeIris : Statement .aeIris := of_bytes fun _ => ⟨_, _, rfl, rfl⟩
theorem aeBright : Statement .aeBright := of_bytes fun _ => ⟨_, _, rfl, rfl⟩
theorem aeOther (b : Byte) : Statement (.aeOther b) := of_bytes fun _ => ⟨_, _, rfl, rfl⟩
theorem fieldWord (a b c d : Nibble) : Statement (.fieldWord a b c d) := of_bytes fun _ => ⟨_, _, rfl, rfl⟩
theorem fieldShort (p q : Nibble) : Statement (.fieldShort p q) := of_bytes fun _ => ⟨_, _, rfl, rfl⟩
theorem fieldByte (v : Byte) : Statement (.fieldByte v) := of_bytes fun _ => ⟨_, _, rfl, rfl⟩
theorem openSession (a : OpenAnswer) : Statement (.openSession a) := of_none fun _ => rfl
theorem closeSession : Statement .closeSession := of_none fun _ => rfl
theorem execute (id : Nibble) : Statement (.execute id) := of_none fun _ => rfl
theorem start (c : CmdId) (t : TxAnswer) : Statement (.start c t) := of_none fun _ => rfl
theorem settle : Statement .settle := of_none fun _ => rfl
theorem rx (a : RxAnswer) : Statement (.rx a) := of_none fun _ => rfl
theorem finish : Statement .finish := of_none fun _ => rfl
theorem encodeByte (value width : Nat) : Statement (.encodeByte value width) := of_none fun _ => rfl
theorem decodeByte (m : Source) (o : Nat) : Statement (.decodeByte m o) := of_none fun _ => rfl
theorem decodeWord (m : Source) (o : Nat) : Statement (.decodeWord m o) := of_none fun _ => rfl
theorem encodeWord (v : Nat) : Statement (.encodeWord v) := of_none fun _ => rfl
theorem decodeShort (m : Source) (o : Nat) : Statement (.decodeShort m o) := of_none fun _ => rfl
theorem encodeShort (v : Nat) : Statement (.encodeShort v) := of_none fun _ => rfl
theorem classifyEnvelope (e : Byte) : Statement (.classifyEnvelope e) := of_none fun _ => rfl
theorem classifyError (d : Byte) : Statement (.classifyError d) := of_none fun _ => rfl
theorem build (c : CmdId) : Statement (.build c) := of_none fun _ => rfl
theorem decodeReply (c : CmdId) (m : Source) : Statement (.decodeReply c m) := of_none fun _ => rfl

end Laws.EncodedWidth

end Sys2Proof
end

