-- ==== Sys2Proof/Laws/Session.lean ====
section
/-! SUPPORT. The induction over a reply, packaged once: what `receive` does on the bytes of a frame; and what the
sequencer selects, said once. -/

namespace Sys2Proof.Machine

/-- The bytes stored one after the other (rule R91). -/
def storeAll : List Byte → State → State
  | [], s => s
  | b :: bs, s => storeAll bs (storeByte b s)

theorem storeAll_append (x y : List Byte) (s : State) : storeAll (x ++ y) s = storeAll y (storeAll x s) := by
  induction x generalizing s with
  | nil => rfl
  | cons b x ih => exact ih _

/-- Storing bytes writes `buf` and `len` and nothing else. -/
theorem storeAll_eq (x : List Byte) (s : State) :
    storeAll x s = { s with buf := (storeAll x s).buf, len := s.len + x.length } := by
  induction x generalizing s with
  | nil => rfl
  | cons b x ih =>
    show storeAll x (storeByte b s) = _
    rw [ih (storeByte b s)]
    simp [storeAll, storeByte, Nat.add_assoc, Nat.add_comm 1]

theorem frame_storeAll {x m : List Byte} {s : State} (h : s.frame = some m) :
    (storeAll x s).frame = some (m ++ x) := by
  induction x generalizing s m with
  | nil => simpa [storeAll] using h
  | cons b x ih => simpa [storeAll] using ih (frame_storeByte b h)

/-- Offsets before `len`, and past the stored bytes, read as before. -/
theorem storeAll_read {x : List Byte} {s : State} {o : Nat} (h : o < s.len ∨ s.len + x.length ≤ o) :
    (storeAll x s).buf.read o = s.buf.read o := by
  induction x generalizing s with
  | nil => rfl
  | cons b x ih =>
    have hlen : (b :: x).length = x.length + 1 := rfl
    rw [hlen] at h
    show (storeAll x (storeByte b s)).buf.read o = _
    rw [ih (by simp only [storeByte_len]; omega), storeByte_buf, Memory.read_write_other _ _ (by omega)]

/-- `receive` takes its answers from its argument: what the state says of them does not matter. -/
theorem receive_rxq (l q : List RxAnswer) (s : State) : receive l { s with rxq := q } = receive l s := by
  cases l <;> rfl

/-- `receive` on bytes that are not the sentinel and fit with room to spare. -/
theorem receive_bytes {pre : List Byte} {rest : List RxAnswer} {s : State} (hp : s.phase = .receiving)
    (hb : ∀ b ∈ pre, b ≠ sentinel) (hl : s.len + pre.length < s.cfg.maxMsgLen) :
    receive (pre.map .byte ++ rest) s = receive rest (storeAll pre s) := by
  induction pre generalizing s with
  | nil => rfl
  | cons b pre ih =>
    have hlen : (b :: pre).length = pre.length + 1 := rfl
    rw [hlen] at hl
    simp only [List.map_cons, List.cons_append, receive]
    rw [rxStep_byte (s := { s with rxq := pre.map .byte ++ rest }) hp (by show s.len + 1 < s.cfg.maxMsgLen; omega)
      (hb b (List.mem_cons_self ..))]
    show (if s.phase = .receiving then receive (pre.map .byte ++ rest)
      { storeByte b s with rxq := pre.map .byte ++ rest } else _) = _
    rw [if_pos hp, receive_rxq, ih (by simpa using hp) (fun c hc => hb c (List.mem_cons_of_mem _ hc))
      (by simp only [storeByte_len, storeByte_cfg]; omega)]
    rfl

/-- `FINISH` leaves `Receiving`. -/
theorem finishFrame_phase (m : List Byte) (s : State) :
    (finishFrame m s).phase = .completed ∨ (finishFrame m s).phase = .faulted := by
  rcases finishFrame_cases m s with ⟨k, h⟩ | ⟨cls, p, _, _, h⟩ <;> simp [h]

/-- `receive` on a whole message: `FINISH` on it, the rest left in the transport (rules R92, R23). -/
theorem receive_message {pre m : List Byte} {rest : List RxAnswer} {s : State} (hp : s.phase = .receiving)
    (hb : ∀ b ∈ pre, b ≠ sentinel) (hl : s.len + pre.length < s.cfg.maxMsgLen) (hf : s.frame = some m) :
    receive (pre.map .byte ++ .byte sentinel :: rest) s =
      .next (finishFrame (m ++ pre ++ [sentinel]) { storeAll (pre ++ [sentinel]) s with rxq := rest }) := by
  rw [receive_bytes hp hb hl, receive]
  have h1 : (storeAll pre s).phase = .receiving := by rw [storeAll_eq]; exact hp
  have h2 : (storeAll pre s).len < (storeAll pre s).cfg.maxMsgLen := by
    rw [storeAll_eq]
    exact hl
  have h3 := frame_storeAll (x := pre) hf
  rw [rxStep_sentinel (s := { storeAll pre s with rxq := rest }) (m := m ++ pre) h1 h2 h3, storeAll_append]
  have hne : (finishFrame (m ++ pre ++ [sentinel])
      (storeByte sentinel { storeAll pre s with rxq := rest })).phase ≠ .receiving := by
    rcases finishFrame_phase (m ++ pre ++ [sentinel])
      (storeByte sentinel { storeAll pre s with rxq := rest }) with h | h <;> rw [h] <;> decide
  exact if_neg hne

/-- `receive` when the transport fails after bytes that are no frame (rule R94). -/
theorem receive_failure {pre : List Byte} {e : TransportErr} {rest : List RxAnswer} {s : State}
    (hp : s.phase = .receiving) (hb : ∀ b ∈ pre, b ≠ sentinel) (hl : s.len + pre.length < s.cfg.maxMsgLen) :
    receive (pre.map .byte ++ .fail e :: rest) s =
      .next (raise (.transportError e) { storeAll pre s with rxq := rest }) := by
  rw [receive_bytes hp hb hl, receive]
  have h1 : (storeAll pre s).phase = .receiving := by rw [storeAll_eq]; exact hp
  simp [rxStep, h1]

/-! ### The sequencer -/

/-- A step in a valid configuration is the sequencer's choice. -/
theorem step_eq {s : State} (h : s.cfg.valid = true) :
    step s = match fetch s with
      | .run i s' => exec i s'
      | .wait => .next s
      | .reset s' => .next (resetEvent s')
      | .refuse r => .refused r := if_pos h

/-- If a step answers a next state, the sequencer selected something, in a valid configuration. -/
theorem step_next {s s' : State} (h : step s = .next s') :
    s.cfg.valid = true ∧
    ((∃ i t, fetch s = .run i t ∧ exec i t = .next s') ∨
     (fetch s = .wait ∧ s' = s) ∨
     (∃ t, fetch s = .reset t ∧ s' = resetEvent t)) := by
  unfold step at h
  split at h
  · refine ⟨‹_›, ?_⟩
    split at h
    · exact .inl ⟨_, _, ‹_›, h⟩
    · exact .inr (.inl ⟨‹_›, by simpa using h.symm⟩)
    · exact .inr (.inr ⟨_, ‹_›, by simpa using h.symm⟩)
    · cases h
  · cases h

/-- What the sequencer selects for a request. -/
theorem fetchRequest_run {s t : State} {i : Instr} {r : Request} {q : List Request}
    (h : fetchRequest r q s = .run i t) :
    s.accepts r = true ∧
    ((r = .closeSession ∧ i = .closeSession ∧ t = { s with hostq := q }) ∨
     (r = .openSession ∧ ∃ e as, s.acqq = .fail e :: as ∧ i = .openSession (.fail e) ∧
        t = { s with hostq := q, acqq := as }) ∨
     (r = .openSession ∧ ∃ as u us, s.acqq = .ok :: as ∧ s.txq = u :: us ∧ i = .openSession (.ok u) ∧
        t = { s with hostq := q, acqq := as, txq := us }) ∨
     (∃ id c u us, r = .execute id ∧ CmdId.ofCode id = some c ∧ s.txq = u :: us ∧ i = .start c u ∧
        t = { s with hostq := q, txq := us })) := by
  unfold fetchRequest at h
  split at h
  · refine ⟨‹_›, ?_⟩
    cases r with
    | closeSession => cases h; exact .inl ⟨rfl, rfl, rfl⟩
    | openSession =>
      simp only at h
      split at h <;> cases h
      · exact .inr (.inl ⟨rfl, _, _, ‹_›, rfl, rfl⟩)
      · exact .inr (.inr (.inl ⟨rfl, _, _, _, ‹_›, ‹_›, rfl, rfl⟩))
    | execute id =>
      simp only at h
      split at h <;> cases h
      exact .inr (.inr (.inr ⟨id, _, _, _, rfl, ‹_›, ‹_›, rfl, rfl⟩))
  · cases h

/-- What the sequencer selects when nothing is presented from outside. -/
theorem fetch_run {s t : State} {i : Instr} (hs : s.slot = none) (h : fetch s = .run i t) :
    (s.phase = .sent ∧ i = .settle ∧ t = s) ∨
    (s.phase = .receiving ∧ ∃ a as, s.rxq = a :: as ∧ i = .rx a ∧ t = { s with rxq := as }) ∨
    (s.phase.resting = true ∧ ∃ r q, s.hostq = r :: q ∧ fetchRequest r q s = .run i t) := by
  unfold fetch at h
  simp only [hs] at h
  cases hp : s.phase <;> simp only [hp] at h
  case sent => cases h; exact .inl ⟨rfl, rfl, rfl⟩
  case receiving =>
    split at h
    · cases h
    · cases h
      exact .inr (.inl ⟨rfl, _, _, ‹_›, rfl, by simp [hs]⟩)
  all_goals
    split at h
    · cases h
    · exact .inr (.inr ⟨rfl, _, _, ‹_›, h⟩)

/-- What the sequencer selects in a resting phase. -/
theorem fetch_resting {s : State} {r : Request} {q : List Request} (hs : s.slot = none)
    (hr : s.phase.resting = true) (hq : s.hostq = r :: q) : fetch s = fetchRequest r q s := by
  unfold fetch
  simp only [hs]
  cases hp : s.phase <;> simp [hp, Phase.resting] at hr <;> simp [hq]

/-- The reset event comes from outside only. -/
theorem fetch_reset {s t : State} (h : fetch s = .reset t) :
    s.slot = some .hwReset ∧ t = { s with slot := none } := by
  unfold fetch at h
  split at h
  · rename_i p hp
    unfold fetchPresented at h
    split at h
    · cases h; exact ⟨hp, rfl⟩
    · cases h
    · split at h <;> cases h
  · split at h
    · cases h
    · split at h <;> cases h
    all_goals
      split at h
      · cases h
      · unfold fetchRequest at h
        (repeat' split at h) <;> cases h

/-- The steps the block takes by itself, when nothing is presented from outside. -/
inductive OwnStep (s : State) : State → Prop where
  | waits : OwnStep s s
  | settles (hp : s.phase = .sent) : OwnStep s (settlePhase s)
  | receives (a : RxAnswer) (as : List RxAnswer) (s' : State) (hp : s.phase = .receiving) (hq : s.rxq = a :: as)
      (h : rxStep a { s with rxq := as } = .next s') : OwnStep s s'
  | starts (id : Nibble) (c : CmdId) (u : TxAnswer) (us : List TxAnswer) (q : List Request)
      (hr : s.phase.resting = true) (hl : s.life = .opened) (hq : s.hostq = .execute id :: q)
      (hc : CmdId.ofCode id = some c) (ht : s.txq = u :: us) :
      OwnStep s (startCommand c u { s with hostq := q, txq := us })
  | acquireFails (e : TransportErr) (as : List AcquireAnswer) (q : List Request) (hr : s.phase.resting = true)
      (hl : s.life = .closed) (hq : s.hostq = .openSession :: q) (ha : s.acqq = .fail e :: as) :
      OwnStep s (openWith (.fail e) { s with hostq := q, acqq := as })
  | opens (as : List AcquireAnswer) (u : TxAnswer) (us : List TxAnswer) (q : List Request)
      (hr : s.phase.resting = true) (hl : s.life = .closed) (hq : s.hostq = .openSession :: q)
      (ha : s.acqq = .ok :: as) (ht : s.txq = u :: us) :
      OwnStep s (openWith (.ok u) { s with hostq := q, acqq := as, txq := us })
  | closes (q : List Request) (hr : s.phase.resting = true) (hl : s.life = .opened ∨ s.life = .closed)
      (hq : s.hostq = .closeSession :: q) : OwnStep s { s with hostq := q, life := .closed }

/-- The inversion lemma of `step` when nothing is presented from outside. -/
theorem step_own {s s' : State} (hs : s.slot = none) (h : step s = .next s') : OwnStep s s' := by
  obtain ⟨_, ⟨i, t, hf, hx⟩ | ⟨_, rfl⟩ | ⟨t, hf, rfl⟩⟩ := step_next h
  · obtain ⟨hp, rfl, rfl⟩ | ⟨hp, a, as, hq, rfl, rfl⟩ | ⟨hr, r, q, hq, hf⟩ := fetch_run hs hf
    · rw [exec_settle hp] at hx
      cases hx
      exact .settles hp
    · exact .receives a as _ hp hq hx
    · obtain ⟨ha, ⟨rfl, rfl, rfl⟩ | ⟨rfl, e, as, hh, rfl, rfl⟩ | ⟨rfl, as, u, us, hh, ht, rfl, rfl⟩ |
        ⟨id, c, u, us, rfl, hi, ht, rfl, rfl⟩⟩ := fetchRequest_run hf
      · rw [exec_close (by exact ha)] at hx
        cases hx
        simp only [State.accepts, Bool.and_eq_true, Bool.or_eq_true, beq_iff_eq] at ha
        exact .closes q ha.2 ha.1 hq
      · rw [exec_open _ (by exact ha)] at hx
        cases hx
        simp only [State.accepts, Bool.and_eq_true, beq_iff_eq] at ha
        exact .acquireFails e as q ha.2 ha.1 hq hh
      · rw [exec_open _ (by exact ha)] at hx
        cases hx
        simp only [State.accepts, Bool.and_eq_true, beq_iff_eq] at ha
        exact .opens as u us q ha.2 ha.1 hq hh ht
      · simp only [State.accepts, Bool.and_eq_true, beq_iff_eq] at ha
        rw [exec_start _ (by exact (accepts_execute_iff c s).mpr ⟨ha.1.1, ha.1.2⟩)] at hx
        cases hx
        exact .starts id c u us q ha.1.2 ha.1.1 hq hi ht
  · exact .waits
  · obtain ⟨hslot, _⟩ := fetch_reset hf
    rw [hs] at hslot
    cases hslot

end Sys2Proof.Machine
end

