-- ==== Sys2Proof/Tests/Slice0.lean ====
section
/-! SUPPORT. The model's own tests. Expected results are those of the opcode table's `encoding` strings and of
spec/95_test_vectors.md (its row is named in each comment), or are worked out by hand from the rule named. The last part
has, for each obligation with hypotheses, a concrete state and operands that meet them. -/

namespace Sys2Proof.Tests

open Sys2Proof Sys2Proof.Machine

/-! ### States -/

/-- An open session at rest. -/
def opened : State := { State.reset with life := .opened }

/-- An open session at rest; the write will be answered `TxOk` and the reply will be these bytes. -/
def talking (reply : List Byte) : State := { opened with txq := [.ok], rxq := reply.map .byte }

/-- A transaction that has received these bytes, the last of them just now. -/
def received (c : CmdId) (m : List Byte) : State :=
  { opened with phase := .receiving, cmd := c, buf := opened.buf.writeBytes 0 m, len := m.length }

/-- What a test looks at in a result. -/
def after {α : Type} (f : State → α) : Result → Option α
  | .next s => some (f s)
  | _ => none

/-- The outcome registers. -/
def outcome (s : State) : Status × RClass × Word × Word × ModeVal := (s.status, s.rclass, s.val0, s.val1, s.mode)

/-! ### WellFormed: each check refuses an ill-formed term -/

/-- Decision D4: a capacity that no pan/tilt reply fits in. -/
theorem test_wf_capacity : ({ Config.default with maxMsgLen := 10 } : Config).valid = false := by decide

/-- Rule R48: an empty template, a last byte that is not `FF`, an inner `FF`, a first byte that is not `81`; rule R42: a
template that is not 5 bytes. -/
theorem test_wf_template :
    ({ Config.default with tFocusPos := [] } : Config).valid = false ∧
    ({ Config.default with tFocusPos := [0x81, 0x09, 0x04, 0x48, 0x00] } : Config).valid = false ∧
    ({ Config.default with tFocusPos := [0x81, 0x09, 0xFF, 0x48, 0xFF] } : Config).valid = false ∧
    ({ Config.default with tFocusPos := [0x82, 0x09, 0x04, 0x48, 0xFF] } : Config).valid = false ∧
    ({ Config.default with tFocusPos := [0x81, 0x09, 0x48, 0xFF] } : Config).valid = false := by decide

/-- Rules R54, R55: two equal keys of one table. -/
theorem test_wf_keys :
    ({ Config.default with wbOnePush := 0x05 } : Config).valid = false ∧
    ({ Config.default with aeBright := 0x00 } : Config).valid = false := by decide

theorem test_wf_default : Config.default.valid = true ∧ Config.default.templatesDistinct = true := by decide

theorem test_wf_templatesDistinct :
    ({ Config.default with tIrisPos := [0x81, 0x09, 0x04, 0x4A, 0xFF] } : Config).templatesDistinct = false := by decide

/-- Rules R52 to R55, R83: a default arm that carries a byte an earlier row matches. -/
theorem test_wf_default_arms :
    Instr.wf Config.default (.envError 4 0) = false ∧ Instr.wf Config.default (.envError 5 0) = false ∧
    Instr.wf Config.default (.errMessageLength 4) = false ∧ Instr.wf Config.default (.errUnknown 0x41) = false ∧
    Instr.wf Config.default (.errUnknown 0x95) = false ∧ Instr.wf Config.default (.focusOther 0x03) = false ∧
    Instr.wf Config.default (.wbOther 0x05) = false ∧ Instr.wf Config.default (.aeOther 0x0D) = false := by decide

/-- Rule R46: `cmd_id` 12 to 15. Rules R61, R64, R66: an operand out of range. Rule R44: a framed operand that is no
message. -/
theorem test_wf_operands :
    Instr.wf Config.default (.execute 12) = false ∧ Instr.wf Config.default (.execute 11) = true ∧
    Instr.wf Config.default (.encodeByte 256 1) = false ∧ Instr.wf Config.default (.encodeWord 0x10000) = false ∧
    Instr.wf Config.default (.encodeShort 0x100) = false ∧
    Instr.wf { Config.default with shortRule := .byte16 } (.encodeShort 0x10000) = false ∧
    Instr.wf Config.default (.decodeByte (.framed [0x90]) 0) = false ∧
    Instr.wf Config.default (.decodeWord (.framed []) 0) = false ∧
    Instr.wf Config.default (.decodeShort (.framed [0xFF, 0xFF]) 0) = false ∧
    Instr.wf Config.default (.decodeReply .reset (.framed [0x90, 0x50])) = false := by decide

/-! ### Decode: every row with a pattern, its word written out from the table's `encoding` -/

theorem test_decode_out5 :
    decode Config.default .out5 [0b10000001, 0b00000001, 0b00000110, 0b00000101, 0b11111111] = .ok (.reset, []) ∧
    decode Config.default .out5 [0b10000001, 0b00000001, 0b00000000, 0b00000001, 0b11111111] = .ok (.clear, []) ∧
    decode Config.default .out5 [0b10000001, 0b00001001, 0b00000100, 0b01000111, 0b11111111] = .ok (.inqZoomPos, []) ∧
    decode Config.default .out5 [0b10000001, 0b00001001, 0b00000100, 0b01001000, 0b11111111] = .ok (.inqFocusPos, []) ∧
    decode Config.default .out5 [0b10000001, 0b00001001, 0b00000100, 0b00111000, 0b11111111] = .ok (.inqFocusMode, []) ∧
    decode Config.default .out5 [0b10000001, 0b00001001, 0b00000110, 0b00010010, 0b11111111] = .ok (.inqPanTiltPos, []) :=
  ⟨rfl, rfl, rfl, rfl, rfl, rfl⟩

theorem test_decode_out5_rest :
    decode Config.default .out5 [0b10000001, 0b00001001, 0b00000100, 0b00110101, 0b11111111] = .ok (.inqWbMode, []) ∧
    decode Config.default .out5 [0b10000001, 0b00001001, 0b00000100, 0b00111001, 0b11111111] = .ok (.inqAeMode, []) ∧
    decode Config.default .out5 [0b10000001, 0b00001001, 0b00000100, 0b01001010, 0b11111111] = .ok (.inqShutterPos, []) ∧
    decode Config.default .out5 [0b10000001, 0b00001001, 0b00000100, 0b01001011, 0b11111111] = .ok (.inqIrisPos, []) ∧
    decode Config.default .out5 [0b10000001, 0b00001001, 0b00000100, 0b01001100, 0b11111111] = .ok (.inqGainPos, []) ∧
    decode Config.default .out5 [0b10000001, 0b00001001, 0b00000100, 0b01001101, 0b11111111] = .ok (.inqBrightPos, []) :=
  ⟨rfl, rfl, rfl, rfl, rfl, rfl⟩

theorem test_decode_env :
    decode Config.default .env [0b01001111] = .ok (.envAck 15, []) ∧
    decode Config.default .env [0b01010001] = .ok (.envCompletion 1, []) ∧
    decode Config.default .env [0b01100010] = .ok (.envError 6 2, []) := ⟨rfl, rfl, rfl⟩

theorem test_decode_errDet :
    decode Config.default .errDet [0b01000001] = .ok (.errCommand, []) ∧
    decode Config.default .errDet [0b00000001] = .ok (.errMessageLength 0, []) ∧
    decode Config.default .errDet [0b01100010] = .ok (.errSyntax 6, []) ∧
    decode Config.default .errDet [0b10100011] = .ok (.errBufferFull 10, []) ∧
    decode Config.default .errDet [0b01000100] = .ok (.errCancel 4, []) ∧
    decode Config.default .errDet [0b11110101] = .ok (.errAddress 15, []) ∧
    decode Config.default .errDet [0b01000000] = .ok (.errUnknown 0x40, []) := ⟨rfl, rfl, rfl, rfl, rfl, rfl, rfl⟩

theorem test_decode_modes :
    decode Config.default .enumFocus [0b00000010] = .ok (.focusAuto, []) ∧
    decode Config.default .enumFocus [0b00000011] = .ok (.focusManual, []) ∧
    decode Config.default .enumFocus [0b00010010] = .ok (.focusOther 0x12, []) ∧
    decode Config.default .enumWb [0b00000000] = .ok (.wbAuto, []) ∧
    decode Config.default .enumWb [0b00000001] = .ok (.wbIndoor, []) ∧
    decode Config.default .enumWb [0b00000010] = .ok (.wbOutdoor, []) ∧
    decode Config.default .enumWb [0b00000011] = .ok (.wbOnePush, []) ∧
    decode Config.default .enumWb [0b00000101] = .ok (.wbManual, []) ∧
    decode Config.default .enumWb [0b00000100] = .ok (.wbOther 4, []) := ⟨rfl, rfl, rfl, rfl, rfl, rfl, rfl, rfl, rfl⟩

theorem test_decode_ae :
    decode Config.default .enumAe [0b00000000] = .ok (.aeAuto, []) ∧
    decode Config.default .enumAe [0b00000011] = .ok (.aeManual, []) ∧
    decode Config.default .enumAe [0b00001010] = .ok (.aeShutter, []) ∧
    decode Config.default .enumAe [0b00001011] = .ok (.aeIris, []) ∧
    decode Config.default .enumAe [0b00001101] = .ok (.aeBright, []) ∧
    decode Config.default .enumAe [0b00001100] = .ok (.aeOther 12, []) := ⟨rfl, rfl, rfl, rfl, rfl, rfl⟩

/-- The `x` bits of the layouts are set: they are ignored (rules R34, R49, R50). -/
theorem test_decode_fields :
    decode Config.default .fieldWord [0b00011010, 0b00101011, 0b00111100, 0b01001101] =
      .ok (.fieldWord 0xA 0xB 0xC 0xD, []) ∧
    decode Config.default .fieldShort [0b00011010, 0b00101011] = .ok (.fieldShort 0xA 0xB, []) ∧
    decode Config.default .fieldByte [0b10100010] = .ok (.fieldByte 0xA2, []) := ⟨rfl, rfl, rfl⟩

/-- Bytes that are rejected, by name. -/
theorem test_decode_rejects :
    decode Config.default .out5 [0x81, 0x01, 0x06, 0x04, 0xFF] = .error .noCommand ∧
    decode Config.default .out5 [0x81, 0x01, 0x06, 0x05] = .error .truncated ∧
    decode Config.default .env [] = .error .truncated ∧
    decode Config.default .fieldWord [0, 0, 0] = .error .truncated ∧
    decode Config.default .fieldShort [0] = .error .truncated := ⟨rfl, rfl, rfl, rfl, rfl⟩

/-- Encoding: the high nibbles of a layout are zero (rules R49, R50; V10). -/
theorem test_encode :
    encode Config.default (.fieldWord 0xA 0xB 0xC 0xD) = some (.fieldWord, [0x0A, 0x0B, 0x0C, 0x0D]) ∧
    encode Config.default (.fieldShort 1 5) = some (.fieldShort, [0x01, 0x05]) ∧
    encode Config.default (.errSyntax 6) = some (.errDet, [0x62]) ∧
    encode Config.default .inqZoomPos = some (.out5, [0x81, 0x09, 0x04, 0x47, 0xFF]) ∧
    encode Config.default .settle = none := by decide

/-- The host's numbering: the pattern read as one number, byte 0 leftmost (rule R59, log entry 6). -/
theorem test_table_word :
    decodeTableWord 40 0x81010605FF = some .reset ∧ decodeTableWord 40 0x8109044DFF = some .inqBrightPos ∧
    decodeTableWord 32 0x1A2B3C4D = some (.fieldWord 0xA 0xB 0xC 0xD) ∧
    decodeTableWord 16 0x1A2B = some (.fieldShort 0xA 0xB) ∧ decodeTableWord 8 0x41 = some .errCommand ∧
    decodeTableWord 40 0x81010604FF = none ∧ decodeTableWord 0 0 = none := by decide

/-! ### The codec (95_test_vectors.md 2.1) -/

/-- V3 (the low nibbles of E5), V8, V9. -/
theorem test_decode_word :
    exec (.decodeWord (.bare [0x1A, 0x2B, 0x3C, 0x4D]) 0) State.reset =
      .next { State.reset with ret := .word 0xABCD } ∧
    exec (.decodeWord (.framed [0x90, 0x50, 0x01, 0x02, 0x03, 0xFF]) 2) State.reset =
      .next { State.reset with ret := .raised .framingError } ∧
    exec (.decodeWord (.framed [0x90, 0x50, 1, 2, 3, 4, 0x0F, 0x0E, 0x0D, 0x0C, 0xFF]) 6) State.reset =
      .next { State.reset with ret := .word 0xFEDC } := ⟨rfl, rfl, rfl⟩

/-- V10, V13; a value above `FFFF` is refused (rule R64). -/
theorem test_encode_word :
    exec (.encodeWord 0xABCD) State.reset = .next { State.reset with ret := .bytes [0x0A, 0x0B, 0x0C, 0x0D] } ∧
    exec (.encodeWord 0xFFFF) State.reset = .next { State.reset with ret := .bytes [0x0F, 0x0F, 0x0F, 0x0F] } ∧
    exec (.encodeWord 0x10000) State.reset = .refused .operandOutOfRange := ⟨rfl, rfl, rfl⟩

/-- V16, V17, and the receive buffer: a complete frame is read, a partial one is not (rules R36, R39). -/
theorem test_decode_byte :
    exec (.decodeByte (.framed [0x90, 0x50, 0xA2, 0xFF]) 2) State.reset =
      .next { State.reset with ret := .byte 0xA2 } ∧
    exec (.decodeByte (.framed [0x90, 0x50, 0xFF]) 2) State.reset =
      .next { State.reset with ret := .raised .framingError } ∧
    after State.ret (exec (.decodeByte .buffer 2) (received .reset [0x90, 0x50, 0xA2, 0xFF])) =
      some (.byte 0xA2) ∧
    exec (.decodeByte .buffer 0) (received .reset [0x90, 0x50]) = .refused .notEnabled := ⟨rfl, rfl, rfl, rfl⟩

/-- V19, V20, V21. -/
theorem test_encode_byte :
    exec (.encodeByte 0xFF 1) State.reset = .next { State.reset with ret := .bytes [0xFF] } ∧
    exec (.encodeByte 256 2) State.reset = .refused .operandOutOfRange := ⟨rfl, rfl⟩

/-- V22, V23, V25. -/
theorem test_decode_short :
    exec (.decodeShort (.framed [0x90, 0x50, 0x00, 0x00, 0x01, 0x05, 0xFF]) 4) State.reset =
      .next { State.reset with ret := .word 0x0015 } ∧
    exec (.decodeShort (.bare [0x1A, 0x2B]) 0) State.reset = .next { State.reset with ret := .word 0x00AB } ∧
    exec (.decodeShort (.framed [0x90, 0x50, 0x00, 0x00, 0x01, 0xFF]) 4) State.reset =
      .next { State.reset with ret := .raised .framingError } := ⟨rfl, rfl, rfl⟩

/-- V26, V27, V28. -/
theorem test_encode_short :
    exec (.encodeShort 0x0015) State.reset = .next { State.reset with ret := .bytes [0x01, 0x05] } ∧
    exec (.encodeShort 0x00FF) State.reset = .next { State.reset with ret := .bytes [0x0F, 0x0F] } ∧
    exec (.encodeShort 0x0100) State.reset = .refused .operandOutOfRange := ⟨rfl, rfl, rfl⟩

/-- The reading decision D7 sets aside: two whole bytes. -/
theorem test_short_byte16 :
    shortOfBytes .byte16 0x12 0x34 = 0x1234 ∧ encodeShort .byte16 0x1234 = [0x12, 0x34] := by decide

/-! ### The classifier (2.2, 2.3) -/

/-- V30 to V34: the counts over all 256 bytes. -/
theorem test_envelope_counts :
    ((List.range 256).filter fun n => classifyEnvelope (BitVec.ofNat 8 n) = .ack).length = 16 ∧
    ((List.range 256).filter fun n => classifyEnvelope (BitVec.ofNat 8 n) = .completion).length = 16 ∧
    classifyEnvelope 0x4F = .ack ∧ classifyEnvelope 0x5A = .completion ∧ classifyEnvelope 0x60 = .error ∧
    classifyEnvelope 0x3F = .error ∧ classifyEnvelope 0xF0 = .error := by decide +kernel

/-- V35 to V44, and the count of rule R86. -/
theorem test_error_codes :
    ((List.range 256).filter fun n => classifyError (BitVec.ofNat 8 n) = .unknownError).length = 176 ∧
    ((List.range 256).filter fun n => classifyError (BitVec.ofNat 8 n) = .messageLengthError).length = 15 ∧
    classifyError 0x41 = .commandError ∧ classifyError 0xF1 = .messageLengthError ∧
    classifyError 0x42 = .syntaxError ∧ classifyError 0xA3 = .bufferFullError ∧ classifyError 0x44 = .cancelError ∧
    classifyError 0x45 = .addressError ∧ classifyError 0x40 = .unknownError := by decide +kernel

/-! ### Whole transactions (2.4, 2.5), each one step of `exec` -/

/-- V45, V47, V48 (the payload of a completed `RESET` is not looked at), V52. -/
theorem test_reset :
    after outcome (exec .reset (talking [0x90, 0x50, 0xFF])) = some (.ok, .completion, 0, 0, .unknown) ∧
    after outcome (exec .reset (talking [0x90, 0x60, 0x41, 0xFF])) =
      some (.err .commandError, .noClass, 0, 0, .unknown) ∧
    after outcome (exec .reset (talking [0x90, 0x5A, 0x41, 0xFF])) = some (.ok, .completion, 0, 0, .unknown) :=
  ⟨by decide, by decide, by decide⟩

theorem test_reset_short_and_written :
    after State.status (exec .reset (talking [0x90, 0xFF])) = some (.err .framingError) ∧
    after State.written (exec .reset (talking [0x90, 0x50, 0xFF])) =
      some [[0x81, 0x01, 0x06, 0x05, 0xFF]] := by decide

/-- V54, V55. -/
theorem test_clear :
    after outcome (exec .clear (talking [0x90, 0x51, 0xFF])) = some (.ok, .completion, 0, 0, .unknown) ∧
    after State.status (exec .clear (talking [0x90, 0x62, 0x03, 0xFF])) = some (.err .bufferFullError) := by decide

/-- V57, V60, V62. -/
theorem test_zoom :
    after outcome (exec .inqZoomPos (talking [0x90, 0x50, 0x1A, 0x2B, 0x3C, 0x4D, 0xFF])) =
      some (.ok, .completion, 0xABCD, 0, .unknown) ∧
    after State.status (exec .inqZoomPos (talking [0x90, 0x50, 0x01, 0x02, 0x03, 0xFF])) =
      some (.err .framingError) ∧
    after outcome (exec .inqZoomPos (talking [0x90, 0x41, 0x01, 0x02, 0x03, 0x04, 0xFF])) =
      some (.ok, .ack, 0x1234, 0, .unknown) := by decide

/-- V64. -/
theorem test_focus_pos :
    after outcome (exec .inqFocusPos (talking [0x90, 0x50, 0x0A, 0x0B, 0x0C, 0x0D, 0xFF])) =
      some (.ok, .completion, 0xABCD, 0, .unknown) := by decide

/-- V65, V68, V70. -/
theorem test_focus_mode :
    after outcome (exec .inqFocusMode (talking [0x90, 0x50, 0x02, 0xFF])) = some (.ok, .completion, 0, 0, .auto) ∧
    after State.cFocus (exec .inqFocusMode (talking [0x90, 0x50, 0x02, 0xFF])) = some .auto ∧
    after State.status (exec .inqFocusMode (talking [0x90, 0x50, 0x12, 0xFF])) = some (.err .unknownError) ∧
    after State.status (exec .inqFocusMode (talking [0x90, 0x60, 0x02, 0xFF])) = some (.err .syntaxError) := by decide

/-- V71, V72. -/
theorem test_pan_tilt :
    after outcome (exec .inqPanTiltPos (talking [0x90, 0x50, 1, 2, 3, 4, 0x0F, 0x0E, 0x0D, 0x0C, 0xFF])) =
      some (.ok, .completion, 0x1234, 0xFEDC, .unknown) ∧
    after outcome (exec .inqPanTiltPos (talking [0x90, 0x50, 1, 2, 3, 4, 0x0F, 0x0E, 0x0D, 0xFF])) =
      some (.err .framingError, .noClass, 0, 0, .unknown) := by decide

/-- V75, V77. -/
theorem test_wb_mode :
    after State.cWb (exec .inqWbMode (talking [0x90, 0x50, 0x05, 0xFF])) = some .manual ∧
    after outcome (exec .inqWbMode (talking [0x90, 0x50, 0x04, 0xFF])) =
      some (.err .unknownError, .noClass, 0, 0, .unknown) := by decide

/-- V79, V80. -/
theorem test_ae_mode :
    after State.cAe (exec .inqAeMode (talking [0x90, 0x50, 0x0B, 0xFF])) = some .iris ∧
    after State.status (exec .inqAeMode (talking [0x90, 0x50, 0x0C, 0xFF])) = some (.err .unknownError) := by decide

/-- V82, V84, V85, V86. -/
theorem test_shorts :
    after State.val0 (exec .inqShutterPos (talking [0x90, 0x50, 0x07, 0x07, 0x1A, 0x2B, 0xFF])) = some 0x00AB ∧
    after State.val0 (exec .inqIrisPos (talking [0x90, 0x50, 0x00, 0x00, 0x00, 0x0F, 0xFF])) = some 0x000F ∧
    after outcome (exec .inqGainPos (talking [0x90, 0x50, 0x00, 0x00, 0x00, 0x00, 0xFF])) =
      some (.ok, .completion, 0, 0, .unknown) ∧
    after State.val0 (exec .inqBrightPos (talking [0x90, 0x50, 0x00, 0x00, 0x0F, 0x0F, 0xFF])) = some 0x00FF := by decide

/-- V87, V92 and V93: a failure, no further answer, bytes after the sentinel. -/
theorem test_framer :
    after (fun s => (s.status, s.len)) (exec .inqZoomPos
      { opened with txq := [.ok], rxq := [.byte 0x90, .byte 0x50, .byte 1, .byte 2, .fail .timeout] }) =
      some (.err (.transportError .timeout), 4) ∧
    after (fun s => (s.phase, s.status, s.len)) (exec .inqZoomPos (talking [0x90, 0x50, 0x01])) =
      some (.receiving, .none, 3) ∧
    after State.rxq (exec .clear (talking [0x90, 0x50, 0xFF, 0x90, 0x50])) =
      some [.byte 0x90, .byte 0x50] := by decide

/-- V90 and V91: a message of exactly `MAX_MSG_LEN` bytes is accepted, a longer one is not. -/
theorem test_overflow :
    after (fun s => (s.status, s.len)) (exec .inqZoomPos
      (talking [0x90, 0x50, 1, 2, 3, 4, 5, 6, 7, 8, 9, 0xA, 0xB, 0xC, 0xD, 0xFF])) = some (.ok, 16) ∧
    after (fun s => (s.status, s.len, s.rxq)) (exec .inqZoomPos
      (talking [0x90, 0x50, 1, 2, 3, 4, 5, 6, 7, 8, 9, 0xA, 0xB, 0xC, 0xD, 0xE, 0xFF])) =
      some (.err .framingError, 16, [.byte 0xFF]) := by decide

/-! ### Session operations and steps (2.6) -/

/-- V97, V98, V101. -/
theorem test_open :
    after (fun s => (s.life, s.phase, s.status, s.written)) (exec (.openSession (.fail .io)) State.reset) =
      some (.closed, .faulted, .err (.transportError .io), []) ∧
    after (fun s => (s.life, s.phase, s.written)) (exec (.openSession (.ok .ok)) State.reset) =
      some (.opening, .sent, [[0x81, 0x01, 0x06, 0x05, 0xFF]]) ∧
    after (fun s => (s.life, s.phase, s.status)) (exec (.openSession (.ok (.fail .timeout))) State.reset) =
      some (.closed, .faulted, .err (.transportError .timeout)) := by decide

/-- V96, V104, V107. -/
theorem test_close :
    exec .closeSession State.reset = .next State.reset ∧
    exec .closeSession { opened with phase := .receiving } = .refused .requestNotAccepted ∧
    after (fun s => (s.life, s.cWb)) (exec .closeSession { opened with cWb := .manual }) =
      some (.closed, .manual) := ⟨rfl, rfl, by decide⟩

/-- V95, V105, and `cmd_id` 2. -/
theorem test_execute :
    exec (.execute 2) State.reset = .refused .requestNotAccepted ∧
    exec (.execute 12) opened = .refused .requestNotAccepted ∧
    after State.val0 (exec (.execute 2) (talking [0x90, 0x50, 1, 2, 3, 4, 0xFF])) = some 0x1234 :=
  ⟨rfl, rfl, by decide⟩

/-- V102, V106. -/
theorem test_start :
    after (fun s => (s.phase, s.status, s.len, s.cmd.code))
        (exec (.start .inqGainPos (.fail .io)) { opened with phase := .completed, status := .ok }) =
      some (.faulted, .err (.transportError .io), 0, 10) ∧
    after (fun s => (s.phase, s.status))
        (exec (.start .clear .ok) { opened with phase := .faulted, status := .err .syntaxError }) =
      some (.sent, .none) := by decide

/-- Rule R99, and `SETTLE` outside `Sent`. -/
theorem test_settle :
    exec .settle { opened with phase := .sent } = .next { opened with phase := .receiving } ∧
    exec .settle opened = .refused .notEnabled := ⟨rfl, rfl⟩

/-- V99's last `RX`, V100's last `RX`: the forced `RESET` opens the session or closes it. -/
theorem test_rx :
    after (fun s => (s.life, s.phase, s.status, s.rclass))
        (exec (.rx (.byte 0xFF)) { received .reset [0x90, 0x50] with life := .opening }) =
      some (.opened, .completed, .ok, .completion) ∧
    after (fun s => (s.life, s.phase, s.status))
        (exec (.rx (.byte 0xFF)) { received .reset [0x90, 0x60, 0x41] with life := .opening }) =
      some (.closed, .faulted, .err .commandError) := by decide

/-- Rule R100: too short, and a mode. -/
theorem test_finish :
    after State.status (exec .finish (received .reset [0x90, 0xFF])) = some (.err .framingError) ∧
    after outcome (exec .finish (received .inqFocusMode [0x90, 0x50, 0x03, 0xFF])) =
      some (.ok, .completion, 0, 0, .manual) ∧
    exec .finish (received .reset [0x90, 0x50]) = .refused .notEnabled := ⟨rfl, by decide, rfl⟩

/-- Rule R69: the template, and nothing on the write port. -/
theorem test_build :
    exec (.build .inqPanTiltPos) State.reset =
      .next { State.reset with ret := .bytes [0x81, 0x09, 0x06, 0x12, 0xFF] } := rfl

/-- Rules R69, R74, R76: a payload, and an unmatched mode byte. -/
theorem test_decode_reply :
    exec (.decodeReply .inqWbMode (.framed [0x90, 0x50, 0x05, 0xFF])) State.reset =
      .next { State.reset with ret := .payload { mode := some .manual } } ∧
    exec (.decodeReply .inqFocusMode (.framed [0x90, 0x50, 0x04, 0xFF])) State.reset =
      .next { State.reset with ret := .raised .unknownError } := ⟨rfl, rfl⟩

/-! ### The reply patterns, in the frames of E7 to E13, V62, V66, V79 -/

theorem test_env_rows :
    after State.val0 (exec (.envAck 1) (received .inqZoomPos [0x90, 0x41, 1, 2, 3, 4, 0xFF])) = some 0x1234 ∧
    after State.status (exec (.envCompletion 0) (received .inqZoomPos [0x90, 0x50, 1, 2, 3, 0xFF])) =
      some (.err .framingError) ∧
    after State.status (exec (.envError 6 0) (received .reset [0x90, 0x60, 0x99, 0xFF])) =
      some (.err .unknownError) ∧
    exec (.envAck 2) (received .reset [0x90, 0x41, 0xFF]) = .refused .notEnabled := ⟨rfl, rfl, rfl, rfl⟩

theorem test_errDet_rows :
    after State.status (exec .errCommand (received .reset [0x90, 0x60, 0x41, 0xFF])) = some (.err .commandError) ∧
    after State.status (exec (.errMessageLength 0) (received .reset [0x90, 0x60, 0x01, 0xFF])) =
      some (.err .messageLengthError) ∧
    after State.status (exec (.errSyntax 0) (received .reset [0x90, 0x60, 0x02, 0xFF])) = some (.err .syntaxError) ∧
    after State.status (exec (.errBufferFull 0) (received .reset [0x90, 0x60, 0x03, 0xFF])) =
      some (.err .bufferFullError) ∧
    after State.status (exec (.errCancel 0) (received .reset [0x90, 0x60, 0x04, 0xFF])) = some (.err .cancelError) ∧
    after State.status (exec (.errAddress 0) (received .reset [0x90, 0x60, 0x05, 0xFF])) =
      some (.err .addressError) ∧
    after State.status (exec (.errUnknown 0x99) (received .reset [0x90, 0x60, 0x99, 0xFF])) =
      some (.err .unknownError) := by decide

theorem test_mode_rows :
    after State.mode (exec .focusAuto (received .inqFocusMode [0x90, 0x50, 0x02, 0xFF])) = some .auto ∧
    after State.mode (exec .focusManual (received .inqFocusMode [0x90, 0x50, 0x03, 0xFF])) = some .manual ∧
    after State.cFocus (exec (.focusOther 4) (received .inqFocusMode [0x90, 0x50, 0x04, 0xFF])) = some .unknown ∧
    after State.mode (exec .wbAuto (received .inqWbMode [0x90, 0x50, 0x00, 0xFF])) = some .auto ∧
    after State.mode (exec .wbIndoor (received .inqWbMode [0x90, 0x50, 0x01, 0xFF])) = some .indoor ∧
    after State.mode (exec .wbOutdoor (received .inqWbMode [0x90, 0x50, 0x02, 0xFF])) = some .outdoor ∧
    after State.mode (exec .wbOnePush (received .inqWbMode [0x90, 0x50, 0x03, 0xFF])) = some .onePush ∧
    after State.mode (exec .wbManual (received .inqWbMode [0x90, 0x50, 0x05, 0xFF])) = some .manual ∧
    after State.status (exec (.wbOther 4) (received .inqWbMode [0x90, 0x50, 0x04, 0xFF])) =
      some (.err .unknownError) := by decide

theorem test_ae_rows :
    after State.mode (exec .aeAuto (received .inqAeMode [0x90, 0x50, 0x00, 0xFF])) = some .auto ∧
    after State.mode (exec .aeManual (received .inqAeMode [0x90, 0x50, 0x03, 0xFF])) = some .manual ∧
    after State.mode (exec .aeShutter (received .inqAeMode [0x90, 0x50, 0x0A, 0xFF])) = some .shutter ∧
    after State.mode (exec .aeIris (received .inqAeMode [0x90, 0x50, 0x0B, 0xFF])) = some .iris ∧
    after State.mode (exec .aeBright (received .inqAeMode [0x90, 0x50, 0x0D, 0xFF])) = some .bright ∧
    after State.status (exec (.aeOther 1) (received .inqAeMode [0x90, 0x50, 0x01, 0xFF])) =
      some (.err .unknownError) := by decide

theorem test_field_rows :
    exec (.fieldWord 0xA 0xB 0xC 0xD) State.reset = .next { State.reset with ret := .word 0xABCD } ∧
    exec (.fieldShort 1 5) State.reset = .next { State.reset with ret := .word 0x0015 } ∧
    exec (.fieldByte 0xA2) State.reset = .next { State.reset with ret := .byte 0xA2 } := ⟨rfl, rfl, rfl⟩

theorem test_classify_rows :
    exec (.classifyEnvelope 0x4F) State.reset = .next { State.reset with ret := .cls .ack } ∧
    exec (.classifyError 0x62) State.reset = .next { State.reset with ret := .kind .syntaxError } := ⟨rfl, rfl⟩

/-! ### The step -/

/-- A presented pattern runs as the first instruction after reset: an outbound message, an error code, a layout; and
bits that are no pattern are refused. -/
theorem test_step_word :
    after (fun s => (s.phase, s.cmd, s.written)) (step (State.reset.withFetchWord 40 0x81090447FF)) =
      some (.receiving, .inqZoomPos, [[0x81, 0x09, 0x04, 0x47, 0xFF]]) ∧
    after State.status (step (State.reset.withFetchWord 8 0x41)) = some (.err .commandError) ∧
    after State.ret (step (State.reset.withFetchWord 32 0x01020304)) = some (.word 0x1234) ∧
    step (State.reset.withFetchWord 40 0) = .refused .undecodable := ⟨by decide, by decide, by decide, rfl⟩

/-- The reset event, and a configuration that is refused before it runs (rules R48, R129). -/
theorem test_step_other :
    after (fun s => (s.phase, s.life, s.slot)) (step { received .clear [0x90] with slot := some .hwReset }) =
      some (.idle, .closed, none) ∧
    step { State.reset with cfg := { Config.default with maxMsgLen := 10 } } =
      .refused .invalidConfiguration := ⟨by decide, rfl⟩

/-- V95 as the host meets it: a request outside the table is refused by the step. -/
theorem test_step_request :
    step { State.reset with hostq := [.execute 2], txq := [.ok] } = .refused .requestNotAccepted ∧
    after (fun s => (s.phase, s.hostq, s.txq)) (step { opened with hostq := [.execute 1], txq := [.ok] }) =
      some (.sent, [], []) := ⟨rfl, by decide⟩

/-- The result port (rules R27, R60). -/
theorem test_result_port :
    State.reset.resultPort = ⟨0, 0, 0, none, 0, 0, 0, 0, 0, 0, 0⟩ ∧
    ({ opened with phase := .faulted, status := .err .framingError } : State).resultPort =
      ⟨2, 4, 2, some 10, 0, 0, 0, 0, 0, 0, 0⟩ := by decide

/-- Rule R27, with V57, V71's shape and V47: what `execute` returns. -/
theorem test_return_value :
    after State.returnValue (exec (.execute 2) (talking [0x90, 0x50, 0x1A, 0x2B, 0x3C, 0x4D, 0xFF])) =
      some ⟨.ok, { val0 := some 0xABCD }⟩ ∧
    after State.returnValue (exec (.execute 5) (talking [0x90, 0x50, 1, 2, 3, 4, 0x0F, 0x0E, 0x0D, 0x0C, 0xFF])) =
      some ⟨.ok, { val0 := some 0x1234, val1 := some 0xFEDC }⟩ ∧
    after State.returnValue (exec (.execute 0) (talking [0x90, 0x60, 0x41, 0xFF])) =
      some ⟨.err .commandError, {}⟩ := by decide

/-! ### Witnesses: a concrete state and operands that meet the hypotheses of each obligation, clause by clause -/

/-- A frame `FINISH` works on. -/
theorem received_frame (c : CmdId) :
    (received c [0x90, 0x41, 0x01, 0xFF]).phase = .receiving ∧
    (received c [0x90, 0x41, 0x01, 0xFF]).frame = some [0x90, 0x41, 0x01, 0xFF] := ⟨rfl, rfl⟩

theorem witness_DecodeInvertsEncode :
    Config.default.valid = true ∧ Config.default.templatesDistinct = true ∧
    Instr.wf Config.default (.errSyntax 15) = true ∧
    encode Config.default (.errSyntax 15) = some (.errDet, [0xF2]) := by decide

theorem witness_TemplatesMeetTheirConstraintsOrAreRefused :
    Config.default.valid = true ∧ template { Config.default with tFocusPos := [] } .inqFocusPos = [] ∧
    (template { Config.default with tFocusPos := [0x81, 0x00] } .inqFocusPos).getLast? ≠ some 0xFF ∧
    (0xFF : Byte) ∈ (template { Config.default with tFocusPos := [0x81, 0xFF, 0xFF] } .inqFocusPos).dropLast ∧
    (template { Config.default with tFocusPos := [0x82, 0xFF] } .inqFocusPos).head? ≠ some 0x81 := by decide

theorem witness_ResetEventInAnyState :
    ({ received .clear [0x90] with slot := some .hwReset } : State).cfg.valid = true ∧
    ({ received .clear [0x90] with slot := some .hwReset } : State).slot = some .hwReset := by decide

/-- The operands at the ends of their ranges: codec and classifier. -/
theorem witness_EncodeByteReturnsTheByteOrRefuses : (255 : Nat) ≤ 255 ∧ (255 : Nat) < 256 := by decide

theorem witness_DecodeByteReturnsTheWholeByte :
    ([0x90, 0x50, 0x02, 0xFF] : List Byte)[3]? = some 0xFF ∧ ([0x90, 0x50, 0x02, 0xFF] : List Byte).length < 4 + 1 ∧
    ([0x90, 0x50, 0x02, 0xFF] : List Byte)[2]? = some 0x02 ∧
    2 + 1 ≤ ([0x90, 0x50, 0x02, 0xFF] : List Byte).length - 1 ∧
    ([0x90, 0x50, 0x02, 0xFF] : List Byte).length - 1 < 3 + 1 ∧
    (received .reset [0x90, 0x50, 0x02, 0xFF]).phase = .receiving ∧
    (received .reset [0x90, 0x50, 0x02, 0xFF]).frame = some [0x90, 0x50, 0x02, 0xFF] ∧
    ([0x90, 0x50, 0x02, 0xFF] : List Byte).getLast? = some 0xFF := by decide

theorem witness_DecodeWordUnpacksFourLowNibbles :
    ([1, 2, 3, 4, 0xFF] : List Byte)[0]? = some 1 ∧ ([1, 2, 3, 4, 0xFF] : List Byte)[0 + 3]? = some 4 ∧
    0 + 4 ≤ ([1, 2, 3, 4, 0xFF] : List Byte).length - 1 ∧ ([1, 2, 3, 4, 0xFF] : List Byte).length < 2 + 4 ∧
    ([1, 2, 3, 4, 0xFF] : List Byte).length - 1 < 1 + 4 ∧
    (received .reset [1, 2, 3, 4, 0xFF]).phase = .receiving ∧
    (received .reset [1, 2, 3, 4, 0xFF]).frame = some [1, 2, 3, 4, 0xFF] ∧
    ([1, 2, 3, 4, 0xFF] : List Byte).getLast? = some 0xFF := by decide

theorem witness_EncodeWordPacksFourNibbles :
    0xFFFF ≤ 0xFFFF ∧ (0x0F : Byte).toNat = 0xFFFF / 4096 ∧ (0x0F : Byte).toNat = 0xFFFF / 256 % 16 ∧
    (0x0F : Byte).toNat = 0xFFFF / 16 % 16 ∧ (0x0F : Byte).toNat = 0xFFFF % 16 ∧ 0xFFFF < 0x10000 := by decide

theorem witness_DecodeShortUnpacksItsTwoBytes :
    ([1, 2, 0xFF] : List Byte)[0]? = some 1 ∧ ([1, 2, 0xFF] : List Byte)[0 + 1]? = some 2 ∧
    0 + 2 ≤ ([1, 2, 0xFF] : List Byte).length - 1 ∧ ([1, 2, 0xFF] : List Byte).length < 2 + 2 ∧
    ([1, 2, 0xFF] : List Byte).length - 1 < 1 + 2 ∧
    (received .reset [1, 2, 0xFF]).phase = .receiving ∧
    (received .reset [1, 2, 0xFF]).frame = some [1, 2, 0xFF] ∧ ([1, 2, 0xFF] : List Byte).getLast? = some 0xFF := by decide

theorem witness_EncodeShortPacksItsTwoBytes :
    State.reset.cfg.shortRule = .nibble8 ∧ 0xFF ≤ 0xFF ∧ 0xFF < 0x100 ∧
    ({ State.reset with cfg := { Config.default with shortRule := .byte16 } } : State).cfg.shortRule = .byte16 ∧
    0xFFFF ≤ 0xFFFF ∧ 0xFFFF < 0x10000 := by decide

theorem witness_CodecLaws :
    lo4 0x1A = lo4 0x0A ∧ (0x00FF : Word).toNat ≤ 0xFF ∧ hi4 0x0A = 0 := by decide

theorem witness_ClassifyEnvelopeByHighNibble :
    (0x4F : Byte).toNat / 16 = 4 ∧ (0x50 : Byte).toNat / 16 = 5 ∧ (0x3F : Byte).toNat / 16 ≠ 4 ∧
    (0x60 : Byte).toNat / 16 ≠ 5 := by decide

theorem witness_DecodeReplyYieldsPositions :
    ([0x90, 0x50, 1, 2, 3, 0xFF] : List Byte).length < 7 ∧
    ([0x90, 0x50, 1, 2, 3, 4, 5, 6, 7, 0xFF] : List Byte).length < 11 ∧ State.reset.cfg.shortRule = .nibble8 ∧
    ({ State.reset with cfg := { Config.default with shortRule := .byte16 } } : State).cfg.shortRule = .byte16 ∧
    (received .reset [0x90, 0x50, 0xFF]).phase = .receiving ∧
    (received .reset [0x90, 0x50, 0xFF]).frame = some [0x90, 0x50, 0xFF] ∧
    ([0x90, 0x50, 0xFF] : List Byte).getLast? = some 0xFF := by decide

theorem witness_DecodeReplyYieldsModes :
    State.reset.cfg.valid = true ∧ ([0x90, 0x50, 0xFF] : List Byte).length < 4 ∧
    ((0x03 : Byte), ModeVal.manual) ∈ [((0x02 : Byte), ModeVal.auto), (0x03, .manual)] ∧
    (0x04 : Byte) ∉ [(0x02 : Byte), 0x03] ∧ (0x04 : Byte) ∉ wbKeys Config.default ∧
    (0x01 : Byte) ∉ aeKeys Config.default := by decide

theorem witness_DecodeReplyYieldsModes_keys :
    (0x05 : Byte) ∈ wbKeys Config.default ∧ (0x0D : Byte) ∈ aeKeys Config.default := by decide

theorem witness_AckAndCompletionRunTheRecipe :
    (received .reset [0x90, 0x4F, 0xFF]).phase = .receiving ∧
    (received .reset [0x90, 0x4F, 0xFF]).frame = some [0x90, 0x4F, 0xFF] ∧
    ([0x90, 0x4F, 0xFF] : List Byte).getLast? = some 0xFF ∧ 3 ≤ ([0x90, 0x4F, 0xFF] : List Byte).length ∧
    ([0x90, 0x4F, 0xFF] : List Byte)[1]? = some ((4 : Nibble) ++ (15 : Nibble) : Byte) ∧
    ([0x90, 0x50, 0xFF] : List Byte)[1]? = some ((5 : Nibble) ++ (0 : Nibble) : Byte) := by decide

theorem witness_AckAndCompletionRunTheRecipe_outcomes :
    decodeReply Config.default .reset (.framed [0x90, 0x4F, 0xFF]) = .ok {} ∧
    decodeReply Config.default .inqZoomPos (.framed [0x90, 0x4F, 0xFF]) = .error .framingError := ⟨rfl, rfl⟩

theorem witness_ErrorEnvelopeRaises :
    (6 : Nibble) ≠ 4 ∧ (6 : Nibble) ≠ 5 ∧ (received .reset [0x90, 0x60, 0xFF]).frame = some [0x90, 0x60, 0xFF] ∧
    ([0x90, 0x60, 0xFF] : List Byte)[1]? = some ((6 : Nibble) ++ (0 : Nibble) : Byte) ∧
    ([0x90, 0x60, 0xFF] : List Byte).length = 3 ∧
    (received .reset [0x90, 0x60, 0x02, 0xFF]).frame = some [0x90, 0x60, 0x02, 0xFF] ∧
    4 ≤ ([0x90, 0x60, 0x02, 0xFF] : List Byte).length ∧ ([0x90, 0x60, 0x02, 0xFF] : List Byte)[2]? = some 0x02 := by
  decide

theorem witness_ErrorDetailRowsRaiseTheirKinds :
    (received .reset [0x90, 0x60, 0x41, 0xFF]).phase = .receiving ∧
    (received .reset [0x90, 0x60, 0x41, 0xFF]).frame = some [0x90, 0x60, 0x41, 0xFF] ∧
    ([0x90, 0x60, 0x41, 0xFF] : List Byte)[1]? = some 0x60 ∧ (0x60 : Byte).toNat / 16 ≠ 4 ∧
    (0x60 : Byte).toNat / 16 ≠ 5 ∧ ([0x90, 0x60, 0x41, 0xFF] : List Byte)[2]? = some 0x41 ∧
    ((15 : Nibble) ++ (1 : Nibble) : Byte) = 0xF1 ∧ (15 : Nibble) ≠ 4 ∧ (0x99 : Byte).toNat % 16 = 9 := by decide

theorem witness_FocusRowsCommitOrRaise :
    (received .inqFocusMode [0x90, 0x41, 0x03, 0xFF]).phase = .receiving ∧
    (received .inqFocusMode [0x90, 0x41, 0x03, 0xFF]).frame = some [0x90, 0x41, 0x03, 0xFF] ∧
    (received .inqFocusMode [0x90, 0x41, 0x03, 0xFF]).cmd = .inqFocusMode ∧
    ([0x90, 0x41, 0x03, 0xFF] : List Byte)[1]? = some 0x41 ∧ (0x41 : Byte).toNat / 16 = 4 ∧
    ([0x90, 0x50, 0x04, 0xFF] : List Byte)[2]? = some 0x04 ∧ (0x04 : Byte) ≠ 0x02 ∧ (0x04 : Byte) ≠ 0x03 := by decide

theorem witness_WbAndAeRowsCommitOrRaise :
    (received .inqWbMode [0x90, 0x50, 0x05, 0xFF]).frame = some [0x90, 0x50, 0x05, 0xFF] ∧
    ([0x90, 0x50, 0x05, 0xFF] : List Byte)[2]? = some 0x05 ∧ (0x50 : Byte).toNat / 16 = 5 ∧
    (received .inqWbMode [0x90, 0x50, 0x05, 0xFF]).cmd = .inqWbMode ∧ (0x06 : Byte) ∉ wbKeys Config.default ∧
    (received .inqAeMode [0x90, 0x50, 0x0D, 0xFF]).cmd = .inqAeMode ∧ (0x0C : Byte) ∉ aeKeys Config.default := by decide

theorem witness_FinishRunsTheDecodedPatterns :
    (received .inqAeMode [0x90, 0x50, 0x0D, 0xFF]).phase = .receiving ∧
    (received .inqAeMode [0x90, 0x50, 0x0D, 0xFF]).frame = some [0x90, 0x50, 0x0D, 0xFF] ∧
    hi4 0x50 = 5 ∧ hi4 0x60 ≠ 4 ∧ hi4 0x60 ≠ 5 ∧ ([0x90, 0x60, 0x44, 0xFF] : List Byte)[2]? = some 0x44 := by decide

theorem witness_PatternsOutsideTheirPlaceAreNotEnabled :
    opened.phase ≠ .receiving ∧ encode opened.cfg (.envAck 1) = some (.env, [0x41]) ∧
    (received .reset [0x90, 0x50, 0x02, 0xFF]).frame = some [0x90, 0x50, 0x02, 0xFF] ∧
    ([0x90, 0x50, 0x02, 0xFF] : List Byte)[1]? ≠ some 0x41 ∧ encode opened.cfg .errCommand = some (.errDet, [0x41]) ∧
    ([0x90, 0x50, 0x02, 0xFF] : List Byte)[2]? ≠ some 0x41 ∧ hi4 0x50 = 5 ∧ hi4 0x60 ≠ 4 ∧ hi4 0x60 ≠ 5 ∧
    (received .reset [0x90, 0x50, 0x02, 0xFF]).cmd ≠ .inqFocusMode ∧
    (received .reset [0x90, 0x50]).frame = some [0x90, 0x50] ∧ ([0x90, 0x50] : List Byte).getLast? ≠ some 0xFF := by decide

theorem witness_OpenAcquiresAndStartsReset : State.reset.life = .closed ∧ State.reset.phase.resting = true := by decide

theorem witness_CloseWritesOnlyLife :
    opened.phase.resting = true ∧ opened.life = .opened ∧ State.reset.life = .closed := by decide

theorem witness_StartLatchesClearsAndWrites :
    opened.phase.resting = true ∧ opened.life = .opened ∧
    ({ State.reset with life := .opening } : State).phase.resting = true ∧
    ({ State.reset with life := .opening } : State).life = .opening := by decide

theorem witness_SettleOnlyEntersReceiving :
    ({ opened with phase := .sent } : State).phase = .sent ∧ opened.phase ≠ .sent := by decide

/-- With room for one byte more, and with the last place. -/
theorem witness_RxStoresAByteOrOverflows :
    (0x90 : Byte) ≠ 0xFF ∧ (received .reset []).phase = .receiving ∧
    (received .reset []).len + 1 < (received .reset []).cfg.maxMsgLen ∧
    ({ received .reset [] with len := 15 } : State).len < (received .reset []).cfg.maxMsgLen ∧
    ({ received .reset [] with len := 15 } : State).len + 1 = (received .reset []).cfg.maxMsgLen := by decide

theorem witness_RxOfTheSentinelFinishes :
    (received .reset [0x90, 0x50]).phase = .receiving ∧
    (received .reset [0x90, 0x50]).len < (received .reset [0x90, 0x50]).cfg.maxMsgLen ∧
    (received .reset [0x90, 0x50]).frame = some [0x90, 0x50] := by decide

theorem witness_RxFailureRaisesTransportError : (received .reset [0x90]).phase = .receiving := rfl

/-- One frame for each test of `FINISH`. -/
theorem witness_FinishInTheOrderOfItsTests :
    (received .reset [0x90, 0xFF]).frame = some [0x90, 0xFF] ∧ ([0x90, 0xFF] : List Byte).length < 3 ∧
    (received .reset [0x90, 0x60, 0xFF]).frame = some [0x90, 0x60, 0xFF] ∧
    ([0x90, 0x60, 0xFF] : List Byte).length < 4 ∧
    (received .reset [0x90, 0x60, 0x41, 0xFF]).frame = some [0x90, 0x60, 0x41, 0xFF] ∧
    4 ≤ ([0x90, 0x60, 0x41, 0xFF] : List Byte).length ∧
    (received .inqZoomPos [0x90, 0x41, 0xFF]).frame = some [0x90, 0x41, 0xFF] ∧ (0x41 : Byte).toNat / 16 = 4 := by decide

theorem witness_RequestsOutsideTheTableAreRefused :
    ¬ (State.reset.life = .opened ∧ State.reset.phase.resting = true ∧ (2 : Nibble).toNat ≤ 11) ∧
    ¬ (opened.life = .opened ∧ opened.phase.resting = true ∧ (12 : Nibble).toNat ≤ 11) ∧
    ¬ (opened.life = .closed ∧ opened.phase.resting = true) ∧
    ¬ ((opened.life = .opened ∨ opened.life = .closed) ∧ ({ opened with phase := .sent } : State).phase.resting = true) ∧
    ({ State.reset with hostq := [.execute 2] } : State).hostq = .execute 2 :: [] ∧
    State.reset.accepts (.execute 2) = false := by decide

/-- What the transaction statements ask of the session, and of the transport at its shortest and longest reply. -/
theorem witness_TransactionReadsOneFrame :
    (talking [0xFF]).life = .opened ∧ (talking [0xFF]).phase.resting = true ∧ (talking [0xFF]).txq = .ok :: [] ∧
    (∀ b ∈ ([] : List Byte), b ≠ 0xFF) ∧ ([] : List Byte).length + 1 ≤ (talking [0xFF]).cfg.maxMsgLen ∧
    (talking [0xFF]).rxq = ([] ++ [(0xFF : Byte)]).map .byte ++ [] := by decide

theorem witness_TransactionReadsOneFrame_longest :
    (List.replicate 15 (0 : Byte)).length + 1 ≤ (talking []).cfg.maxMsgLen ∧
    (talking (List.replicate 15 0 ++ [0xFF])).rxq = (List.replicate 15 (0 : Byte) ++ [0xFF]).map .byte ++ [] := by decide

theorem witness_ActionTransactionsSucceed :
    (talking [0x90, 0x41, 0xFF]).txq = .ok :: [] ∧ (∀ b ∈ ([0x90, 0x41] : List Byte), b ≠ 0xFF) ∧
    ([] : List Byte).length + 3 ≤ (talking []).cfg.maxMsgLen ∧
    (talking [0x90, 0x41, 0xFF]).rxq = (0x90 :: 0x41 :: [] ++ [0xFF]).map .byte ++ [] ∧
    (0x41 : Byte).toNat / 16 = 4 ∧ (0x50 : Byte).toNat / 16 = 5 := by decide

theorem witness_WordInquiriesDeliverTheirPosition :
    (talking [0x90, 0x50, 1, 2, 3, 4, 0xFF]).rxq =
      (0x90 :: 0x50 :: 1 :: 2 :: 3 :: 4 :: [] ++ [0xFF]).map .byte ++ [] ∧
    (∀ b ∈ ([0x90, 0x50, 1, 2, 3, 4] : List Byte), b ≠ 0xFF) ∧
    ([] : List Byte).length + 7 ≤ (talking []).cfg.maxMsgLen := by decide

/-- A reply with both words, and the longest one without the second. -/
theorem witness_PanTiltDeliversBothOrNeither :
    (talking [0x90, 0x50, 1, 2, 3, 4, 5, 6, 7, 8, 0xFF]).rxq =
      (0x90 :: 0x50 :: 1 :: 2 :: 3 :: 4 :: [5, 6, 7, 8] ++ [0xFF]).map .byte ++ [] ∧
    ([5, 6, 7, 8] : List Byte).length + 7 ≤ (talking []).cfg.maxMsgLen ∧ ([5, 6, 7] : List Byte).length < 4 ∧
    (talking [0x90, 0x50, 1, 2, 3, 4, 5, 6, 7, 0xFF]).rxq =
      (0x90 :: 0x50 :: 1 :: 2 :: 3 :: 4 :: [5, 6, 7] ++ [0xFF]).map .byte ++ [] := by decide

theorem witness_ShortInquiriesDeliverTheirPosition :
    (talking [0x90, 0x50, 0, 0, 1, 5, 0xFF]).rxq =
      (0x90 :: 0x50 :: 0 :: 0 :: 1 :: 5 :: [] ++ [0xFF]).map .byte ++ [] ∧
    (∀ b ∈ ([0x90, 0x50, 0, 0, 1, 5] : List Byte), b ≠ 0xFF) ∧
    ([] : List Byte).length + 7 ≤ (talking []).cfg.maxMsgLen := by decide

theorem witness_ModeInquiriesDeliverTheirMode :
    (talking [0x90, 0x50, 0x05, 0xFF]).cfg.valid = true ∧
    (talking [0x90, 0x50, 0x05, 0xFF]).rxq = (0x90 :: 0x50 :: 0x05 :: [] ++ [0xFF]).map .byte ++ [] ∧
    (∀ b ∈ ([0x90, 0x50, 0x05] : List Byte), b ≠ 0xFF) ∧ (0x05 : Byte) ∈ wbKeys Config.default ∧
    (0x05 : Byte) ∉ [(0x02 : Byte), 0x03] ∧ (0x05 : Byte) ∉ aeKeys Config.default := by decide

theorem witness_ErrorRepliesFaultEveryCommand :
    (talking [0x90, 0x60, 0x02, 0xFF]).rxq = (0x90 :: 0x60 :: 0x02 :: [] ++ [0xFF]).map .byte ++ [] ∧
    (∀ b ∈ ([0x90, 0x60, 0x02] : List Byte), b ≠ 0xFF) ∧ ([] : List Byte).length + 4 ≤ (talking []).cfg.maxMsgLen ∧
    (0x60 : Byte).toNat / 16 ≠ 4 ∧ (0x60 : Byte).toNat / 16 ≠ 5 := by decide

/-- A failure at once, and a buffer that is exactly full. -/
theorem witness_RepliesThatAreNoFrameFault :
    ({ opened with txq := [.ok], rxq := [.fail .io] } : State).rxq = ([] : List Byte).map .byte ++ .fail .io :: [] ∧
    ([] : List Byte).length < opened.cfg.maxMsgLen ∧ List.replicate 16 (0 : Byte) ≠ [] ∧
    (List.replicate 16 (0 : Byte)).length = opened.cfg.maxMsgLen ∧ (∀ b ∈ List.replicate 16 (0 : Byte), b ≠ 0xFF) ∧
    (talking (List.replicate 16 0)).rxq = (List.replicate 16 (0 : Byte)).map .byte ++ [] := by decide

theorem witness_TransactionStopsWhereTheTransportDoes :
    opened.life = .opened ∧ opened.phase.resting = true ∧ opened.txq = [] ∧
    ({ opened with txq := [.fail .timeout] } : State).txq = .fail .timeout :: [] ∧
    (talking [0x90]).txq = .ok :: [] ∧ (talking [0x90]).rxq = ([0x90] : List Byte).map .byte := by decide

theorem witness_ExecuteIsTheRunOfItsSteps :
    (talking [0xFF]).cfg.valid = true ∧ (talking [0xFF]).slot = none ∧
    (talking [0xFF]).accepts (.execute (CmdId.code .clear)) = true ∧
    ({ talking [0xFF] with hostq := [.execute (CmdId.code .clear)] } : State).hostq =
      .execute (CmdId.code .clear) :: [] ∧ (talking [0xFF]).txq ≠ [] := by decide

theorem witness_StepRunsTheSelectedInstruction :
    opened.cfg.valid = true ∧ opened.slot = none ∧ opened.phase.resting = true ∧ opened.life = .opened ∧
    opened.life ≠ .opening ∧ State.reset.life = .closed ∧ (received .reset []).phase = .receiving ∧
    ({ opened with phase := .sent } : State).phase = .sent ∧
    ({ State.reset with hostq := [.openSession], acqq := [.ok], txq := [.ok] } : State).acqq = .ok :: [] := by decide

theorem witness_StepRunsTheSelectedInstruction_presented :
    decode Config.default .fieldByte [0xA2] = .ok (.fieldByte 0xA2, []) := rfl

theorem witness_WaitingChangesNothing :
    (received .reset []).cfg.valid = true ∧ (received .reset []).slot = none ∧
    ((received .reset []).phase = .receiving ∧ (received .reset []).rxq = []) ∧
    (opened.phase.resting = true ∧ opened.hostq = []) := by decide

/-- The invariant in a state that is receiving: it is no empty hypothesis for `ReceivingEndsWithinTheBuffer`. -/
theorem witness_Inv_receiving : ({ received .reset [0x90] with rxq := List.replicate 15 (.byte 0) } : State).Inv where
  cfgValid := by decide
  bufWf := by decide
  bufInside := by decide
  bufWhole := by decide
  lenBound := by decide
  sentEmpty := by decide
  receivingRoom := by decide
  receivingOpen := by decide
  completedOk := by decide
  faultedErr := ⟨fun h => (nomatch h), fun ⟨_, h⟩ => (nomatch h)⟩
  classOk := by decide
  noPartial := by decide
  openingReset := by decide
  busySession := by decide

theorem witness_EveryStepKeepsTheInvariant :
    after State.len (step { received .reset [0x90] with rxq := List.replicate 15 (.byte 0) }) = some 2 := by decide

theorem witness_ReceivingEndsWithinTheBuffer :
    ({ received .reset [0x90] with rxq := List.replicate 15 (.byte 0) } : State).phase = .receiving ∧
    ({ received .reset [0x90] with rxq := List.replicate 15 (.byte 0) } : State).slot = none ∧
    16 - 1 ≤ (List.replicate 15 (RxAnswer.byte 0)).length := by decide

/-- Steps the whole-machine statements are about: each line of the phase table is taken by some state. -/
theorem witness_PhaseTransitionsAreTheTable :
    after State.phase (step { opened with hostq := [.execute 4], txq := [.ok] }) = some .sent ∧
    after State.phase (step { opened with hostq := [.execute 4], txq := [.fail .io] }) = some .faulted ∧
    after State.phase (step { opened with phase := .sent }) = some .receiving ∧
    after State.phase (step { received .reset [0x90] with rxq := [.byte 0x50] }) = some .receiving ∧
    after State.phase (step { received .reset [0x90, 0x50] with rxq := [.byte 0xFF] }) = some .completed := by decide

theorem witness_LifeTransitionsAreTheLegalOnes :
    after State.life (step { State.reset with hostq := [.openSession], acqq := [.ok], txq := [.ok] }) =
      some .opening ∧
    after State.life (step { received .reset [0x90, 0x50] with life := .opening, rxq := [.byte 0xFF] }) =
      some .opened ∧
    after State.life (step { received .reset [0x90] with life := .opening, rxq := [.fail .io] }) = some .closed ∧
    after State.life (step { opened with hostq := [.closeSession] }) = some .closed := by decide

theorem witness_AFaultWhileReceivingWritesNothingElse :
    (received .reset [0x90]).slot = none ∧ (received .reset [0x90]).phase = .receiving ∧
    after State.phase (step { received .reset [0x90] with rxq := [.fail .io] }) = some .faulted ∧
    after State.phase (step { received .reset [0x90] with rxq := [.byte 0xFF] }) = some .faulted := by decide

/-- A cache register that changes, by its inquiry and by `OPEN`. -/
theorem witness_CacheIsWrittenByItsOwnInquiryOnly :
    after State.cFocus (step { received .inqFocusMode [0x90, 0x50, 0x02] with rxq := [.byte 0xFF] }) = some .auto ∧
    after State.cWb (step { State.reset with
      cWb := .manual, hostq := [.openSession], acqq := [.ok], txq := [.ok] }) = some .unknown := by decide

theorem witness_OneAnswerReadAndOneMessageWritten :
    after (fun s => (s.rxq, s.written)) (step { received .reset [0x90] with rxq := [.byte 1, .byte 2] }) =
      some ([.byte 2], []) ∧
    after (fun s => (s.rxq, s.written))
        (step { opened with hostq := [.execute 1], txq := [.ok], rxq := [.byte 1] }) =
      some ([.byte 1], [[0x81, 0x01, 0x00, 0x01, 0xFF]]) := by decide

theorem witness_NoOperationWritesTheConfiguration :
    after State.cfg (exec .settle { opened with phase := .sent }) = some Config.default ∧
    after State.cfg (step { opened with phase := .sent }) = some Config.default := by decide

theorem witness_AddressAndSocketDoNotMatter :
    (received .reset [0x90, 0x41, 0xFF]).frame = some [0x90, 0x41, 0xFF] ∧
    State.frame { received .reset [0x90, 0x41, 0xFF] with buf := Memory.ofBytes 0 [0x87, 0x4F, 0xFF] } =
      some [0x87, 0x4F, 0xFF] ∧ ([0xFF] : List Byte).getLast? = some 0xFF ∧ hi4 0x41 = hi4 0x4F := by decide

theorem witness_HighNibblesOfPositionsDoNotMatter :
    (received .inqGainPos [0x90, 0x50, 0, 0, 1, 5, 0xFF]).frame = some [0x90, 0x50, 0, 0, 1, 5, 0xFF] ∧
    State.frame { received .inqGainPos [0x90, 0x50, 0, 0, 1, 5, 0xFF] with
      buf := Memory.ofBytes 0 [0x90, 0x50, 0x10, 0x20, 0x31, 0x45, 0xFF] } =
        some [0x90, 0x50, 0x10, 0x20, 0x31, 0x45, 0xFF] ∧
    ([0, 0, 1, 5] : List Byte).map lo4 = ([0x10, 0x20, 0x31, 0x45] : List Byte).map lo4 ∧ hi4 0x50 = 5 := by decide

theorem witness_ResultPortShowsTheCodes :
    State.reset.status = .none ∧ ({ opened with status := .ok } : State).status = .ok ∧
    ({ opened with status := .err .framingError } : State).status = .err .framingError ∧
    ({ opened with mode := .bright } : State).mode = .bright ∧ opened.cFocus = .unknown ∧
    ({ opened with cWb := .onePush } : State).cWb = .onePush ∧ ({ opened with cAe := .shutter } : State).cAe = .shutter ∧
    State.reset.status ≠ .ok := by decide

end Sys2Proof.Tests
end

section
/-! PROOFS. The configuration is read-only (rules R22, R40): one lemma per shared operation, then `exec` through its
inversion lemma and `step` through the sequencer's. -/

namespace Sys2Proof.Machine

/-! ### The shared operations -/

@[simp] theorem startCommand_cfg (c : CmdId) (t : TxAnswer) (s : State) : (startCommand c t s).cfg = s.cfg := by
  cases t with
  | ok => rfl
  | fail e => rw [startCommand_fail, raise_cfg, beginCommand_cfg]

@[simp] theorem openWith_cfg (a : OpenAnswer) (s : State) : (openWith a s).cfg = s.cfg := by
  cases a with
  | ok t => exact startCommand_cfg .reset t _
  | fail e => exact raise_cfg (.transportError e) _

@[simp] theorem finishFrame_cfg (m : List Byte) (s : State) : (finishFrame m s).cfg = s.cfg := by
  obtain ⟨k, h⟩ | ⟨cls, p, _, _, h⟩ := finishFrame_cases m s
  · rw [h, raise_cfg]
  · rw [h, commit_cfg]

theorem rxStep_cfg {a : RxAnswer} {s s' : State} (h : rxStep a s = .next s') : s'.cfg = s.cfg := by
  obtain ⟨_, ⟨e, _, rfl⟩ | ⟨b, _, _, ⟨_, m, _, _, rfl⟩ | ⟨_, _, rfl⟩ | ⟨_, _, rfl⟩⟩⟩ := rxStep_cases h <;> simp

/-! ### A whole transaction -/

/-- By induction on the transport's answers, one `RX` each. -/
theorem receive_cfg {as : List RxAnswer} {s s' : State} (h : receive as s = .next s') : s'.cfg = s.cfg := by
  induction as generalizing s with
  | nil => cases h; rfl
  | cons a as ih =>
    simp only [receive] at h
    split at h
    · next t hrx =>
      have ht : t.cfg = s.cfg := rxStep_cfg (s := { s with rxq := as }) hrx
      split at h
      · exact (ih h).trans ht
      · cases h; exact ht
    · cases h
    · cases h

theorem transact_cfg {c : CmdId} {s s' : State} (h : transact c s = .next s') : s'.cfg = s.cfg := by
  unfold transact at h
  split at h
  · split at h
    · cases h; rfl
    · cases h; exact startCommand_cfg ..
    · rw [receive_cfg h, settlePhase_cfg, startCommand_cfg]
  · cases h

/-! ### Every instruction and every step -/

theorem Effect.cfg_eq {s s' : State} (h : Effect s s') : s'.cfg = s.cfg := by
  cases h with
  | same => rfl
  | returns r => exact returning_cfg r s
  | faults k => exact raise_cfg k s
  | commits cls p => exact commit_cfg cls p s
  | opens a => exact openWith_cfg a s
  | closes => rfl
  | starts c t => exact startCommand_cfg c t s
  | settles => exact settlePhase_cfg s
  | receives a _ h => exact rxStep_cfg h
  | transacts c _ h => exact transact_cfg h

theorem exec_cfg {i : Instr} {s s' : State} (h : exec i s = .next s') : s'.cfg = s.cfg := (exec_effect h).cfg_eq

/-- What is presented from outside runs in the state without it. -/
theorem fetchPresented_run {p : Presented} {s t : State} {i : Instr} (h : fetchPresented p s = .run i t) :
    t = { s with slot := none } := by
  unfold fetchPresented at h
  split at h
  · cases h
  · cases h; rfl
  · split at h <;> cases h
    rfl

/-- The sequencer takes requests and answers from the queues and leaves the configuration. -/
theorem fetchRequest_run_cfg {r : Request} {q : List Request} {s t : State} {i : Instr}
    (h : fetchRequest r q s = .run i t) : t.cfg = s.cfg := by
  obtain ⟨_, ⟨_, _, rfl⟩ | ⟨_, _, _, _, _, rfl⟩ | ⟨_, _, _, _, _, _, _, rfl⟩ | ⟨_, _, _, _, _, _, _, _, rfl⟩⟩ :=
    fetchRequest_run h <;> rfl

theorem fetch_run_cfg {s t : State} {i : Instr} (h : fetch s = .run i t) : t.cfg = s.cfg := by
  cases hs : s.slot with
  | some p =>
    have hp : fetchPresented p s = .run i t := by simpa only [fetch, hs] using h
    rw [fetchPresented_run hp]
  | none =>
    obtain ⟨_, _, rfl⟩ | ⟨_, _, _, _, _, rfl⟩ | ⟨_, r, q, _, hr⟩ := fetch_run hs h
    · rfl
    · rfl
    · exact fetchRequest_run_cfg hr

theorem step_cfg {s s' : State} (h : step s = .next s') : s'.cfg = s.cfg := by
  obtain ⟨_, ⟨i, t, hf, hx⟩ | ⟨_, rfl⟩ | ⟨t, hf, rfl⟩⟩ := step_next h
  · exact (exec_cfg hx).trans (fetch_run_cfg hf)
  · rfl
  · obtain ⟨_, rfl⟩ := fetch_reset hf
    exact resetEvent_cfg _

/-- Settles O56: `exec` by its inversion lemma, whose every effect keeps `cfg`; `step` because what the sequencer
selects runs in a state with the same `cfg`. -/
theorem noOperationWritesTheConfiguration : Obligations.NoOperationWritesTheConfiguration :=
  ⟨fun _ _ _ h => exec_cfg h, fun _ _ h => step_cfg h⟩

end Sys2Proof.Machine
end

section
/-! PROOFS. The encodings as they are run: the layouts of a data field (rules R49, R51), and the reply patterns at byte
2 of a complete frame (rules R52, R53), each beside `FINISH` on the same frame. -/

namespace Sys2Proof.Machine

/-! ### The layouts of a data field -/

/-- A word layout puts its four nibbles side by side (rule R49). -/
theorem wordOfNibbles_eq_append (a b c d : Nibble) : wordOfNibbles a b c d = a ++ b ++ c ++ d := by
  unfold wordOfNibbles
  ext i hi
  change _ = (a ++ b ++ c ++ d : BitVec (4 + 4 + 4 + 4))[i]
  simp only [BitVec.getElem_append, BitVec.getElem_or, BitVec.getElem_shiftLeft, BitVec.getElem_setWidth]
  interval_cases i <;> simp

/-- The low nibbles of four bytes are the operands of a word layout; the high nibbles are ignored (rule R49). -/
theorem decode_fieldWord (cfg : Config) (a b c d h0 h1 h2 h3 : Nibble) :
    decode cfg .fieldWord [byteOf h0 a, byteOf h1 b, byteOf h2 c, byteOf h3 d] = .ok (.fieldWord a b c d, []) := by
  simp only [decode, lo4_byteOf]

/-- The layout, run, returns the word of its four nibbles and changes no register. -/
theorem exec_fieldWord (a b c d : Nibble) (s : State) :
    exec (.fieldWord a b c d) s = .next (returning (.word (a ++ b ++ c ++ d)) s) := by
  rw [← wordOfNibbles_eq_append]
  rfl

/-- Settles O14: the high nibbles are dropped by `lo4`, and the shifts of rule R33 are concatenation. -/
theorem wordAndByteLayoutsUnpackTheirBits : Obligations.WordAndByteLayoutsUnpackTheirBits := by
  intro s
  refine ⟨fun a b c d h0 h1 h2 h3 => ⟨?_, rfl, ?_⟩, fun v => ⟨rfl, rfl, rfl⟩⟩
  · exact decode_fieldWord s.cfg a b c d h0 h1 h2 h3
  · exact exec_fieldWord a b c d s

/-! ### The classes and kinds by nibble -/

theorem classifyEnvelope_of_error_nibble {e : Byte} (h4 : e.toNat / 16 ≠ 4) (h5 : e.toNat / 16 ≠ 5) :
    classifyEnvelope e = .error :=
  classifyEnvelope_error (mt (hi4_eq_iff e 4).mp h4) (mt (hi4_eq_iff e 5).mp h5)

/-- The class a successful reply is committed with (rules R17, R83). -/
theorem classifyEnvelope_of_success_nibble {e : Byte} {cls : RClass}
    (h : e.toNat / 16 = 4 ∧ cls = .ack ∨ e.toNat / 16 = 5 ∧ cls = .completion) :
    classifyEnvelope e ≠ .error ∧ RClass.ofEnv (classifyEnvelope e) = cls := by
  obtain ⟨h, rfl⟩ | ⟨h, rfl⟩ := h
  · rw [classifyEnvelope_ack ((hi4_eq_iff e 4).mpr h)]
    exact ⟨nofun, rfl⟩
  · rw [classifyEnvelope_completion ((hi4_eq_iff e 5).mpr h)]
    exact ⟨nofun, rfl⟩

/-- The error codes 1 to 5 are decided by the low nibble, but for `0x41` (rule R52). -/
theorem classifyError_byteOf : ∀ hi : Nibble,
    (hi ≠ 4 → classifyError (byteOf hi 1) = .messageLengthError) ∧
    classifyError (byteOf hi 2) = .syntaxError ∧ classifyError (byteOf hi 3) = .bufferFullError ∧
    classifyError (byteOf hi 4) = .cancelError ∧ classifyError (byteOf hi 5) = .addressError := by decide

/-- A low nibble outside 1 to 5 is the default arm (rules R52, R116). -/
theorem classifyError_unknown {d : Byte} (h : d.toNat % 16 = 0 ∨ 6 ≤ d.toNat % 16) :
    classifyError d = .unknownError := by
  have hlow : (d &&& 0x0F).toNat = d.toNat % 16 := Nat.and_two_pow_sub_one_eq_mod d.toNat 4
  have hne : ∀ n : Byte, 1 ≤ n.toNat → n.toNat ≤ 5 → d &&& 0x0F ≠ n := by
    rintro n h1 h5 rfl
    omega
  have hcmd : d ≠ 0x41 := by
    rintro rfl
    exact hne 1 (by decide) (by decide) rfl
  simp only [classifyError, hcmd, if_false, hne 1 (by decide) (by decide), hne 2 (by decide) (by decide),
    hne 3 (by decide) (by decide), hne 4 (by decide) (by decide), hne 5 (by decide) (by decide)]

/-! ### A complete frame with a byte before its sentinel at offset 2 -/

/-- `FINISH` is enabled on the frame `m`, whose envelope byte is `e` and whose byte 2, before the sentinel, is `b`. -/
structure ReplyFrame (s : State) (m : List Byte) (e b : Byte) : Prop where
  receiving : s.phase = .receiving
  frame : s.frame = some m
  ends : m.getLast? = some sentinel
  length : 4 ≤ m.length
  envelope : m[1]? = some e
  deciding : m[2]? = some b

namespace ReplyFrame

variable {s : State} {m : List Byte} {e b : Byte}

theorem getD_envelope (h : ReplyFrame s m e b) : m.getD 1 0 = e := by
  rw [List.getD_eq_getElem?_getD, h.envelope]
  rfl

theorem getD_deciding (h : ReplyFrame s m e b) : m.getD 2 0 = b := by
  rw [List.getD_eq_getElem?_getD, h.deciding]
  rfl

theorem atReplyByte_eq (h : ReplyFrame s m e b) (k : List Byte → Result) : atReplyByte 2 b s k = k m :=
  atReplyByte_of k h.receiving h.frame h.ends h.length h.deciding

theorem exec_finish_eq (h : ReplyFrame s m e b) : exec .finish s = .next (finishFrame m s) :=
  exec_finish h.receiving h.frame h.ends

/-- An error reply: `FINISH` raises the kind of the detail byte (rules R84, R100). -/
theorem exec_finish_error (h : ReplyFrame s m e b) (he : classifyEnvelope e = .error) :
    exec .finish s = .next (raise (classifyError b) s) := by
  have h3 : ¬ m.length < 3 := by have := h.length; omega
  have h4 : ¬ m.length < 4 := Nat.not_lt.mpr h.length
  simp only [h.exec_finish_eq, finishFrame, h3, if_false, h.getD_envelope, he, finishError, h4, h.getD_deciding]

/-- Any other reply: `FINISH` runs the recipe (rules R69, R100). -/
theorem exec_finish_reply (h : ReplyFrame s m e b) (he : classifyEnvelope e ≠ .error) :
    exec .finish s = .next (finishReply (classifyEnvelope e) m s) := by
  have h3 : ¬ m.length < 3 := by have := h.length; omega
  simp only [h.exec_finish_eq, finishFrame, h3, if_false, h.getD_envelope]
  cases hc : classifyEnvelope e with
  | error => exact absurd hc he
  | ack => rfl
  | completion => rfl

/-- An error-code pattern at its place raises its kind (rules R52, R121). -/
theorem atErrorDetail_eq (h : ReplyFrame s m e b) (he : classifyEnvelope e = .error) (k : ErrKind) :
    atErrorDetail b k s = .next (raise k s) := by
  simp only [atErrorDetail, h.atReplyByte_eq, h.getD_envelope, he, if_true]

/-- A row that is an error-code pattern of the kind `classify_error` gives its byte agrees with `FINISH`. -/
theorem exec_errorRow {i : Instr} {k : ErrKind} (h : ReplyFrame s m e b) (he : classifyEnvelope e = .error)
    (hi : exec i s = atErrorDetail b k s) (hk : classifyError b = k) :
    exec i s = .next (raise k s) ∧ exec .finish s = exec i s := by
  rw [hi, h.atErrorDetail_eq he, h.exec_finish_error he, hk]
  exact ⟨rfl, rfl⟩

/-- The byte a mode recipe reads is the deciding one (rules R31, R62). -/
theorem decodeByte_eq (h : ReplyFrame s m e b) : decodeByte (.framed m) 2 = .ok b := by
  have hin : 2 + 1 ≤ m.length - 1 := by have := h.length; omega
  exact decodeByte_inside hin h.deciding

/-- A mode pattern at its place commits its mode, and a default arm raises `UnknownError` (rules R100, R106, R120). -/
theorem atModeByte_some (h : ReplyFrame s m e b) (he : classifyEnvelope e ≠ .error) (v : ModeVal) :
    atModeByte s.cmd b (some v) s = .next (commit (classifyEnvelope e) { mode := some v } s) := by
  simp only [atModeByte, h.atReplyByte_eq, h.getD_envelope, he, ne_eq, not_false_eq_true, and_self, if_true]

theorem atModeByte_none (h : ReplyFrame s m e b) (he : classifyEnvelope e ≠ .error) :
    atModeByte s.cmd b none s = .next (raise .unknownError s) := by
  simp only [atModeByte, h.atReplyByte_eq, h.getD_envelope, he, ne_eq, not_false_eq_true, and_self, if_true]

/-- Where the recipe of the command in flight matches byte 2 against `table`, `FINISH` does what the pattern with the
table's answer for the deciding byte does. -/
theorem exec_finish_mode (h : ReplyFrame s m e b) (he : classifyEnvelope e ≠ .error) {table : Byte → Option ModeVal}
    (hr : ∀ view, decodeReply s.cfg s.cmd view = modeRecipe table view 2) :
    exec .finish s = atModeByte s.cmd b (table b) s := by
  rw [h.exec_finish_reply he]
  cases hv : table b with
  | some v => simp only [finishReply, hr, modeRecipe, h.decodeByte_eq, hv, h.atModeByte_some he]
  | none => simp only [finishReply, hr, modeRecipe, h.decodeByte_eq, hv, h.atModeByte_none he]

/-- `FINISH` on the reply to `INQ_FOCUS_MODE` (rules R53, R74). -/
theorem exec_finish_focus (h : ReplyFrame s m e b) (he : classifyEnvelope e ≠ .error) (hc : s.cmd = .inqFocusMode) :
    exec .finish s = atModeByte .inqFocusMode b (focusEnum b) s := by
  rw [h.exec_finish_mode he (table := focusEnum) (fun view => by rw [hc]; rfl), hc]

/-- The commit of a focus mode writes the mode and its own cache register (rules R74, R106). -/
theorem atModeByte_focus (h : ReplyFrame s m e b) (he : classifyEnvelope e ≠ .error) (hc : s.cmd = .inqFocusMode)
    (v : ModeVal) :
    atModeByte .inqFocusMode b (some v) s = .next { s with
      phase := .completed, status := .ok, rclass := RClass.ofEnv (classifyEnvelope e), mode := v, cFocus := v
      life := if s.life = .opening then .opened else s.life } := by
  rw [← hc, h.atModeByte_some he]
  simp [commit, hc]

end ReplyFrame

/-! ### The obligations on the rows -/

/-- Settles O22: each row is `atErrorDetail` of its byte and kind, and `classify_error` gives that byte that kind. -/
theorem errorDetailRowsRaiseTheirKinds : Obligations.ErrorDetailRowsRaiseTheirKinds := by
  intro s m e d i k hrow hp hf hl hlen he h4 h5 hd
  have h : ReplyFrame s m e d := ⟨hp, hf, hl, hlen, he, hd⟩
  have herr : classifyEnvelope e = .error := classifyEnvelope_of_error_nibble h4 h5
  obtain ⟨rfl, rfl, rfl⟩ | ⟨hi, hrow⟩ | ⟨rfl, hlow, rfl⟩ := hrow
  · exact h.exec_errorRow herr rfl rfl
  · obtain ⟨hlength, hsyntax, hfull, hcancel, haddress⟩ := classifyError_byteOf hi
    obtain ⟨rfl, hne, rfl, rfl⟩ | ⟨rfl, rfl, rfl⟩ | ⟨rfl, rfl, rfl⟩ | ⟨rfl, rfl, rfl⟩ | ⟨rfl, rfl, rfl⟩ := hrow
    · exact h.exec_errorRow herr (if_neg hne) (hlength hne)
    · exact h.exec_errorRow herr rfl hsyntax
    · exact h.exec_errorRow herr rfl hfull
    · exact h.exec_errorRow herr rfl hcancel
    · exact h.exec_errorRow herr rfl haddress
  · have hdefault : ¬ (lo4 d = 1 ∨ lo4 d = 2 ∨ lo4 d = 3 ∨ lo4 d = 4 ∨ lo4 d = 5) := by
      simp only [lo4_eq_iff, BitVec.reduceToNat]
      omega
    exact h.exec_errorRow herr (if_neg hdefault) (classifyError_unknown hlow)

/-- Settles O23: `FINISH` is the row with the table's answer for the byte, which is committed or raises
`UnknownError`. -/
theorem focusRowsCommitOrRaise : Obligations.FocusRowsCommitOrRaise := by
  intro s m e b cls hp hf hl hlen hc he hcls hb
  have h : ReplyFrame s m e b := ⟨hp, hf, hl, hlen, he, hb⟩
  obtain ⟨hne, rfl⟩ := classifyEnvelope_of_success_nibble hcls
  have hfinish := h.exec_finish_focus hne hc
  refine ⟨fun i v hrow => ?_, fun hauto hmanual => ?_⟩
  · simp only [List.mem_cons, Prod.mk.injEq, List.not_mem_nil, or_false] at hrow
    obtain ⟨rfl, rfl, rfl⟩ | ⟨rfl, rfl, rfl⟩ := hrow
    · exact ⟨h.atModeByte_focus hne hc .auto, hfinish⟩
    · exact ⟨h.atModeByte_focus hne hc .manual, hfinish⟩
  · have hrow : exec (.focusOther b) s = atModeByte .inqFocusMode b none s :=
      if_neg (not_or.mpr ⟨hauto, hmanual⟩)
    have hnokey : focusEnum b = none := by simp only [focusEnum, hauto, hmanual, if_false]
    rw [hfinish, hnokey, hrow, ← hc, h.atModeByte_none hne]
    exact ⟨rfl, rfl⟩

end Sys2Proof.Machine
end

section
/-! PROOFS. The decode functions called by name on each message operand (40_codec.md, rules R62 and R63): a bare message,
a framed message, and the receive buffer where it holds a complete frame. -/

namespace Sys2Proof.Machine

/-! ### The operand forms -/

/-- Where `FINISH` reads the receive buffer, a decode function does on it what it does on the framed message it holds
(rules R36, R39). -/
theorem decodeWith_buffer_eq_framed {s : State} {m : List Byte} (f : View → Ret) (hp : s.phase = .receiving)
    (hf : s.frame = some m) (hl : m.getLast? = some sentinel) :
    decodeWith .buffer f s = decodeWith (.framed m) f s := by
  rw [decodeWith_buffer f hp hf hl, decodeWith_framed]

/-- A byte that is there is in bounds of the bare message. -/
theorem View.bare_limit_of_getElem? {m : List Byte} {o : Nat} {b : Byte} (h : m[o]? = some b) :
    o + 1 ≤ (View.bare m).limit := by
  obtain ⟨hlt, -⟩ := List.getElem?_eq_some_iff.mp h
  exact hlt

/-- `decode_byte` and `decode_word` by name are their pure functions on the operand (rules R62, R63). -/
theorem exec_decodeByte (src : Source) (o : Nat) (s : State) :
    exec (.decodeByte src o) s = decodeWith src (fun v => .ofExcept .byte (decodeByte v o)) s := rfl

theorem exec_decodeWord (src : Source) (o : Nat) (s : State) :
    exec (.decodeWord src o) s = decodeWith src (fun v => .ofExcept .word (decodeWord v o)) s := rfl

/-! ### The mask form of the word -/

/-- `lo4` widened is the byte masked with `0x0F` and widened: rule R63 writes the mask. -/
theorem zeroExtend_mask_eq_lo4 (b : Byte) : (b &&& 0x0F).zeroExtend 16 = (lo4 b).zeroExtend 16 := by
  have hmask : (b &&& 0x0F).toNat = b.toNat % 16 := Nat.and_two_pow_sub_one_eq_mod b.toNat 4
  have hlo : (lo4 b).toNat = b.toNat % 16 := ((lo4_eq_iff b (lo4 b)).mp rfl).symm
  apply BitVec.eq_of_toNat_eq
  rw [BitVec.toNat_setWidth, BitVec.toNat_setWidth, hmask, hlo]

/-- The word of four low nibbles as rule R63 writes it: masked, shifted 12, 8, 4, 0 (rule R33). -/
theorem wordOfNibbles_lo4 (b0 b1 b2 b3 : Byte) :
    wordOfNibbles (lo4 b0) (lo4 b1) (lo4 b2) (lo4 b3) =
      ((b0 &&& 0x0F).zeroExtend 16 <<< 12) ||| ((b1 &&& 0x0F).zeroExtend 16 <<< 8) |||
        ((b2 &&& 0x0F).zeroExtend 16 <<< 4) ||| (b3 &&& 0x0F).zeroExtend 16 := by
  simp only [wordOfNibbles, zeroExtend_mask_eq_lo4]

/-! ### The obligations on the decode functions -/

/-- Settles O8: each clause is `decode_byte` inside or outside the limit of its view; the buffer is its frame. -/
theorem decodeByteReturnsTheWholeByte : Obligations.DecodeByteReturnsTheWholeByte := by
  intro m o s
  simp only [exec_decodeByte]
  refine ⟨fun b hb => ?bareIn, fun hout => ?bareOut, fun b hb hin => ?framedIn, fun hout => ?framedOut,
    fun hp hf hl => ?buffer⟩
  case bareIn =>
    rw [decodeWith_bare, decodeByte_inside (View.bare_limit_of_getElem? hb) hb]
    rfl
  case bareOut =>
    rw [decodeWith_bare, decodeByte_outside (v := .bare m) hout]
    rfl
  case framedIn =>
    rw [decodeWith_framed, decodeByte_inside (v := .framed m) hin hb]
    rfl
  case framedOut =>
    rw [decodeWith_framed, decodeByte_outside (v := .framed m) hout]
    rfl
  case buffer => exact decodeWith_buffer_eq_framed _ hp hf hl

/-- Settles O9: as for `decode_byte`, with the fourth byte in bounds and the nibbles in the mask form. -/
theorem decodeWordUnpacksFourLowNibbles : Obligations.DecodeWordUnpacksFourLowNibbles := by
  intro m o s
  simp only [exec_decodeWord]
  refine ⟨fun b0 b1 b2 b3 h0 h1 h2 h3 => ⟨?bareIn, fun hin => ?framedIn⟩, fun hout => ?bareOut,
    fun hout => ?framedOut, fun hp hf hl => ?buffer⟩
  case bareIn =>
    rw [decodeWith_bare, decodeWord_inside (View.bare_limit_of_getElem? h3) h0 h1 h2 h3, wordOfNibbles_lo4]
    rfl
  case framedIn =>
    rw [decodeWith_framed, decodeWord_inside (v := .framed m) hin h0 h1 h2 h3, wordOfNibbles_lo4]
    rfl
  case bareOut =>
    rw [decodeWith_bare, decodeWord_outside (v := .bare m) hout]
    rfl
  case framedOut =>
    rw [decodeWith_framed, decodeWord_outside (v := .framed m) hout]
    rfl
  case buffer => exact decodeWith_buffer_eq_framed _ hp hf hl

end Sys2Proof.Machine
end

section
/-! PROOFS. The classifier and the error-code decoder as they are run (rules R83, R85): the class by the high nibble,
the kind by the full byte first and then by the low nibble. -/

namespace Sys2Proof.Machine

/-! ### The two operations return their function's value -/

theorem exec_classifyEnvelope (e : Byte) (s : State) :
    exec (.classifyEnvelope e) s = .next { s with ret := .cls (classifyEnvelope e) } := rfl

theorem exec_classifyError (d : Byte) (s : State) :
    exec (.classifyError d) s = .next { s with ret := .kind (classifyError d) } := rfl

/-! ### The error-code decoder by the low nibble -/

/-- Rule R85 masks the byte where the statements take it modulo 16. -/
theorem and_mask_eq_iff (d n : Byte) : d &&& 0x0F = n ↔ d.toNat % 16 = n.toNat := by
  have hlow : (d &&& 0x0F).toNat = d.toNat % 16 := Nat.and_two_pow_sub_one_eq_mod d.toNat 4
  rw [← BitVec.toNat_inj, hlow]

/-- The first test of rule R85, which comes before the low nibble is read. -/
theorem classifyError_command : classifyError 0x41 = .commandError := rfl

/-- Tests 2 to 6 of rule R85, with the default arm, on any byte the first test lets through. -/
theorem classifyError_of_ne_command {d : Byte} (hne : d ≠ 0x41) :
    classifyError d =
      if d.toNat % 16 = 1 then .messageLengthError
      else if d.toNat % 16 = 2 then .syntaxError
      else if d.toNat % 16 = 3 then .bufferFullError
      else if d.toNat % 16 = 4 then .cancelError
      else if d.toNat % 16 = 5 then .addressError
      else .unknownError := by
  simp only [classifyError, if_neg hne, and_mask_eq_iff]
  rfl

/-- Settles O15: the class of each high nibble is the law of `classify_envelope` for it. -/
theorem classifyEnvelopeByHighNibble : Obligations.ClassifyEnvelopeByHighNibble := by
  intro e s
  rw [exec_classifyEnvelope]
  refine ⟨fun h4 => ?ack, fun h5 => ?completion, fun h4 h5 => ?error⟩
  case ack => rw [classifyEnvelope_ack ((hi4_eq_iff e 4).mpr h4)]
  case completion => rw [classifyEnvelope_completion ((hi4_eq_iff e 5).mpr h5)]
  case error => rw [classifyEnvelope_of_error_nibble h4 h5]

/-- Settles O16: `0x41` is decided first; on every other byte each arm of the statement's `match` is the test of rule
R85 for that low nibble, and its default arm fails them all. -/
theorem classifyErrorInPriorityOrder : Obligations.ClassifyErrorInPriorityOrder := by
  intro d s
  rw [exec_classifyError]
  congr 3
  by_cases hd : d.toNat = 0x41
  · obtain rfl : d = 0x41 := BitVec.eq_of_toNat_eq hd
    rw [if_pos hd, classifyError_command]
  · have hne : d ≠ 0x41 := fun h => hd (congrArg BitVec.toNat h)
    rw [if_neg hd, classifyError_of_ne_command hne]
    symm
    split
    case h_1 h | h_2 h | h_3 h | h_4 h | h_5 h => simp only [h]; rfl
    case h_6 h1 h2 h3 h4 h5 => rw [if_neg h1, if_neg h2, if_neg h3, if_neg h4, if_neg h5]

end Sys2Proof.Machine
end

section
/-! PROOFS. The framer on a failure of the transport (43_framer.md, rule R94): it is raised before the buffer is touched. -/

namespace Sys2Proof.Machine

/-- `RX` by name is the framer's step on the answer (rule R90). -/
theorem exec_rx (a : RxAnswer) (s : State) : exec (.rx a) s = rxStep a s := rfl

/-- `RX` of a transport failure, whatever the buffer holds (rule R94). -/
theorem rxStep_fail {s : State} (e : TransportErr) (hp : s.phase = .receiving) :
    rxStep (.fail e) s = .next (raise (.transportError e) s) := if_pos hp

/-- Settles O33: the step is `raise`, whose three writes are the ones the statement names (rule R121). -/
theorem rxFailureRaisesTransportError : Obligations.RxFailureRaisesTransportError := by
  intro e s hp
  rw [exec_rx, rxStep_fail e hp, raise]

end Sys2Proof.Machine
end

section
/-! PROOFS. A whole transaction on a reply (44_session.md, rules R96 and R100): the state in which the reply is stored,
and the transaction as `FINISH` on it. -/

namespace Sys2Proof.Machine

/-! ### `FINISH` reads the frame and leaves it where it is -/

@[simp] theorem finishFrame_rxq (m : List Byte) (s : State) : (finishFrame m s).rxq = s.rxq := by
  obtain ⟨k, h⟩ | ⟨cls, p, _, _, h⟩ := finishFrame_cases m s
  · rw [h, raise_rxq]
  · rw [h, commit_rxq]

@[simp] theorem finishFrame_buf (m : List Byte) (s : State) : (finishFrame m s).buf = s.buf := by
  obtain ⟨k, h⟩ | ⟨cls, p, _, _, h⟩ := finishFrame_cases m s
  · rw [h, raise_buf]
  · rw [h, commit_buf]

@[simp] theorem finishFrame_len (m : List Byte) (s : State) : (finishFrame m s).len = s.len := by
  obtain ⟨k, h⟩ | ⟨cls, p, _, _, h⟩ := finishFrame_cases m s
  · rw [h, raise_len]
  · rw [h, commit_len]

/-! ### The state in which a reply is stored -/

/-- The state of the transaction of `c` before the first `RX`: the write of `START` was answered with `TxOk`, which
leaves the answers `q`, and `SETTLE` has run (rules R98, R99). -/
def awaitingReply (c : CmdId) (q : List TxAnswer) (s : State) : State :=
  settlePhase (startCommand c .ok { s with txq := q })

/-- The state of the transaction of `c` before `FINISH`: the bytes `m` are stored, and `rest` is left in the
transport. -/
def replyStored (c : CmdId) (q : List TxAnswer) (m : List Byte) (rest : List RxAnswer) (s : State) : State :=
  { storeAll m (awaitingReply c q s) with rxq := rest }

section
variable (c : CmdId) (q : List TxAnswer) (m : List Byte) (rest : List RxAnswer) (s : State)

/-- What `START` and `SETTLE` write; every other field is that of `s`. -/
theorem awaitingReply_eq :
    awaitingReply c q s = { s with
      txq := q, written := s.written ++ [template s.cfg c], cmd := c, len := 0, phase := .receiving, status := .none
      rclass := .noClass, val0 := 0, val1 := 0, mode := .unknown } := by
  simp only [awaitingReply, startCommand_ok, beginCommand, settlePhase, build_eq]

/-- The stores of `RX` add the buffer and its length (rule R91). -/
theorem replyStored_eq :
    replyStored c q m rest s = { s with
      txq := q, rxq := rest, written := s.written ++ [template s.cfg c], cmd := c
      buf := (replyStored c q m rest s).buf, len := m.length, phase := .receiving, status := .none
      rclass := .noClass, val0 := 0, val1 := 0, mode := .unknown } := by
  have hstored := storeAll_eq m (awaitingReply c q s)
  generalize hbuf : (storeAll m (awaitingReply c q s)).buf = buf at hstored
  rw [replyStored, hstored]
  simp only [awaitingReply_eq, Nat.zero_add]

theorem replyStored_phase : (replyStored c q m rest s).phase = .receiving := by rw [replyStored_eq]

theorem replyStored_len : (replyStored c q m rest s).len = m.length := by rw [replyStored_eq]

/-- The stored bytes are the accumulated frame (rule R14). -/
theorem replyStored_frame : (replyStored c q m rest s).frame = some m :=
  frame_storeAll (m := []) rfl

theorem replyStored_readRange : (replyStored c q m rest s).buf.readRange 0 m.length = some m := by
  have hframe := replyStored_frame c q m rest s
  rwa [State.frame, replyStored_len] at hframe

/-- Past the stored bytes the buffer is as it was (rule R91). -/
theorem replyStored_read {o : Nat} (h : m.length ≤ o) : (replyStored c q m rest s).buf.read o = s.buf.read o :=
  storeAll_read (s := awaitingReply c q s) (.inr ((Nat.zero_add m.length).symm ▸ h))

/-- Where the stored bytes end with the sentinel, `FINISH` works on them (rules R92, R100). -/
theorem exec_finish_replyStored (h : m.getLast? = some sentinel) :
    exec .finish (replyStored c q m rest s) = .next (finishFrame m (replyStored c q m rest s)) :=
  exec_finish (replyStored_phase ..) (replyStored_frame ..) h

end

/-! ### The transaction on one message -/

/-- A transaction whose reply is a message that fits is `FINISH` on the first message the transport holds (rules R92,
R95, R96). -/
theorem transact_message {c : CmdId} {s : State} {q : List TxAnswer} {pre : List Byte} {rest : List RxAnswer}
    (ha : s.accepts (.execute c.code) = true) (ht : s.txq = .ok :: q) (hb : ∀ b ∈ pre, b ≠ sentinel)
    (hl : pre.length < s.cfg.maxMsgLen) (hr : s.rxq = (pre ++ [sentinel]).map .byte ++ rest) :
    transact c s =
      .next (finishFrame (pre ++ [sentinel]) (replyStored c q (pre ++ [sentinel]) rest s)) := by
  have hanswers : s.rxq = pre.map .byte ++ .byte sentinel :: rest := by
    rw [hr, List.map_append, List.append_assoc]
    rfl
  have hstarted : transact c s = receive s.rxq (awaitingReply c q s) := transact_ok ha ht
  rw [hstarted, hanswers]
  have hroom : (awaitingReply c q s).len + pre.length < (awaitingReply c q s).cfg.maxMsgLen := by
    simpa only [awaitingReply_eq, Nat.zero_add] using hl
  exact receive_message (m := []) rfl hb hroom rfl

/-- Settles O36: the transaction is `finishFrame` on the state with the reply stored, which is `FINISH` by name there,
and `FINISH` leaves the buffer, its length and the rest of the answers. -/
theorem transactionReadsOneFrame : Obligations.TransactionReadsOneFrame := by
  intro c s q pre rest hlife hphase ht hb hl hr
  have haccepts : s.accepts (.execute c.code) = true := (accepts_execute_iff c s).mpr ⟨hlife, hphase⟩
  have htransact := transact_message haccepts ht hb hl hr
  have hlength : (pre ++ [sentinel]).length = pre.length + 1 := List.length_append
  have hfinish := exec_finish_replyStored c q (pre ++ [sentinel]) rest s List.getLast?_concat
  refine ⟨(replyStored c q (pre ++ [sentinel]) rest s).buf,
    finishFrame (pre ++ [sentinel]) (replyStored c q (pre ++ [sentinel]) rest s),
    ?command, ?execute, ?read, fun o ho => ?unread, ?finish, finishFrame_rxq .., finishFrame_buf .., ?length⟩
  case command => rw [exec_command, htransact]
  case execute => rw [exec_execute, htransact]
  case read => exact hlength ▸ replyStored_readRange ..
  case unread => exact replyStored_read c q _ rest s (hlength ▸ ho)
  case finish => rwa [← hlength, ← replyStored_eq]
  case length => rw [finishFrame_len, replyStored_len, hlength]

end Sys2Proof.Machine
end

section
/-! PROOFS. What `FINISH` does not read (rules R88, R138; decision D24): the address byte and the socket. A recipe
reads its frame from byte 2 on, the classifier the high nibble of byte 1; and where the frame is given, `FINISH` does
not read the buffer. -/

namespace Sys2Proof.Machine

/-! ### The data of a frame: what is read from byte 2 on -/

/-- Two messages from which every read at offset 2 or later gives the same. -/
def View.SameData (v w : View) : Prop := ∀ o n, 2 ≤ o → v.read o n = w.read o n

/-- The address and the envelope byte are not data (rule R30). -/
theorem View.framed_sameData (a a' e e' : Byte) (x : List Byte) :
    (View.framed (a :: e :: x)).SameData (.framed (a' :: e' :: x)) := by
  intro o n ho
  obtain ⟨k, rfl⟩ := Nat.exists_eq_add_of_le' ho
  rw [View.read_framed, View.read_framed]
  rfl

section
variable {v w : View} (h : v.SameData w)
include h

theorem decodeByte_sameData : decodeByte v 2 = decodeByte w 2 := by
  rw [decodeByte, decodeByte, h 2 1 (Nat.le_refl 2)]

theorem decodeWord_sameData {o : Nat} (ho : 2 ≤ o) : decodeWord v o = decodeWord w o := by
  rw [decodeWord, decodeWord, h o 4 ho]

theorem decodeShort_sameData (r : ShortRule) {o : Nat} (ho : 2 ≤ o) : decodeShort r v o = decodeShort r w o := by
  rw [decodeShort, decodeShort, h o 2 ho]

/-- Every recipe of the catalog reads data only (rules R70 to R81). -/
theorem decodeReply_sameData (cfg : Config) (c : CmdId) : decodeReply cfg c v = decodeReply cfg c w := by
  have hbyte := decodeByte_sameData h
  have hword := decodeWord_sameData h (o := 2) (by decide)
  have hword' := decodeWord_sameData h (o := 6) (by decide)
  have hshort := decodeShort_sameData h cfg.shortRule (o := 4) (by decide)
  cases c <;> simp only [decodeReply, catalog, runRecipe]
  case inqZoomPos | inqFocusPos => rw [hword]
  case inqPanTiltPos => rw [hword, hword']
  case inqFocusMode | inqWbMode | inqAeMode => rw [modeRecipe, modeRecipe, hbyte]
  case inqShutterPos | inqIrisPos | inqGainPos | inqBrightPos => rw [hshort]

end

/-! ### `FINISH` on a frame with another address byte and another socket -/

theorem classifyEnvelope_congr {e e' : Byte} (h : hi4 e = hi4 e') : classifyEnvelope e = classifyEnvelope e' := by
  rw [classifyEnvelope, classifyEnvelope, h]

theorem finishReply_header (cls : EnvClass) (a a' e e' : Byte) (x : List Byte) (s : State) :
    finishReply cls (a :: e :: x) s = finishReply cls (a' :: e' :: x) s := by
  rw [finishReply, finishReply, decodeReply_sameData (View.framed_sameData a a' e e' x)]

/-- The detail byte is byte 2 (rule R84). -/
theorem finishError_header (a a' e e' : Byte) (x : List Byte) (s : State) :
    finishError (a :: e :: x) s = finishError (a' :: e' :: x) s := rfl

theorem finishFrame_header (a a' : Byte) {e e' : Byte} (x : List Byte) (s : State) (h : hi4 e = hi4 e') :
    finishFrame (a :: e :: x) s = finishFrame (a' :: e' :: x) s := by
  simp only [finishFrame, List.length_cons, List.getD_cons_succ, List.getD_cons_zero, classifyEnvelope_congr h,
    finishError_header a a' e e', finishReply_header _ a a' e e']

/-! ### `FINISH` on a given frame with another buffer -/

theorem finishReply_withBuf (cls : EnvClass) (m : List Byte) (s : State) (buf : Memory) :
    finishReply cls m { s with buf := buf } = { finishReply cls m s with buf := buf } := by
  simp only [finishReply]
  cases decodeReply s.cfg s.cmd (.framed m) with
  | error k => rfl
  | ok p => rfl

theorem finishError_withBuf (m : List Byte) (s : State) (buf : Memory) :
    finishError m { s with buf := buf } = { finishError m s with buf := buf } := by
  simp only [finishError]
  split
  · rfl
  · rfl

theorem finishFrame_withBuf (m : List Byte) (s : State) (buf : Memory) :
    finishFrame m { s with buf := buf } = { finishFrame m s with buf := buf } := by
  simp only [finishFrame]
  split
  · rfl
  · cases classifyEnvelope (m.getD 1 0) with
    | error => exact finishError_withBuf m s buf
    | ack => exact finishReply_withBuf .ack m s buf
    | completion => exact finishReply_withBuf .completion m s buf

/-! ### The obligation on the address byte and the socket -/

/-- The sentinel at the end of the bytes from offset 2 on ends the frame. -/
theorem getLast?_header {x : List Byte} (a e : Byte) (h : x.getLast? = some sentinel) :
    (a :: e :: x).getLast? = some sentinel := by
  rw [List.getLast?_cons, List.getLast?_cons, h]
  rfl

/-- Settles O58: the other buffer is carried along, and the other address byte and socket are not read. -/
theorem addressAndSocketDoNotMatter : Obligations.AddressAndSocketDoNotMatter := by
  intro s buf a a' e e' x hp hf hf' hl he
  refine ⟨finishFrame (a :: e :: x) s, exec_finish hp hf (getLast?_header a e hl), ?_⟩
  calc exec .finish { s with buf := buf }
    _ = .next (finishFrame (a' :: e' :: x) { s with buf := buf }) := exec_finish hp hf' (getLast?_header a' e' hl)
    _ = .next { finishFrame (a' :: e' :: x) s with buf := buf } := by rw [finishFrame_withBuf]
    _ = .next { finishFrame (a :: e :: x) s with buf := buf } := by rw [finishFrame_header a a' x s he]

end Sys2Proof.Machine
end

section
/-! PROOFS. The invariant of the block: it holds at reset, every operation and so every step keeps it, and under it no
step faults and every reply ends within the buffer. -/

namespace Sys2Proof.Machine

/-! ### The two parts of the invariant that an ended transaction needs -/

/-- The part of the invariant about the receive buffer (rules R14, R15, R29). -/
structure State.BufferInv (s : State) : Prop where
  cfgValid : s.cfg.valid = true
  bufWf : s.buf.wf
  bufInside : ∀ c ∈ s.buf, c.1 < s.cfg.maxMsgLen
  bufWhole : ∀ i < s.cfg.maxMsgLen, (s.buf.read i).isSome
  lenBound : s.len ≤ s.cfg.maxMsgLen

/-- The result registers hold nothing, as `START` leaves them (rules R17 to R19, R98). -/
def State.Cleared (s : State) : Prop := s.rclass = .noClass ∧ s.val0 = 0 ∧ s.val1 = 0 ∧ s.mode = .unknown

theorem State.Inv.bufferInv {s : State} (h : s.Inv) : s.BufferInv :=
  ⟨h.cfgValid, h.bufWf, h.bufInside, h.bufWhole, h.lenBound⟩

theorem State.Inv.cleared {s : State} (h : s.Inv) (hs : s.status ≠ .ok) : s.Cleared :=
  ⟨by simpa [hs] using h.classOk, h.noPartial hs⟩

/-- In `Receiving` no transaction has succeeded yet (rule R16). -/
theorem State.Inv.cleared_receiving {s : State} (h : s.Inv) (hp : s.phase = .receiving) : s.Cleared :=
  h.cleared (by simp [← h.completedOk, hp])

/-- A store within the capacity (rule R91). -/
theorem State.BufferInv.storeByte {s : State} (h : s.BufferInv) (b : Byte) (hl : s.len < s.cfg.maxMsgLen) :
    (storeByte b s).BufferInv where
  cfgValid := h.cfgValid
  bufWf := Memory.write_wf s.len b h.bufWf
  bufInside c hc := by
    obtain rfl | hc := Memory.mem_write hc
    · exact hl
    · exact h.bufInside c hc
  bufWhole := Memory.write_whole s.len b h.bufWhole
  lenBound := hl

/-- The accumulated bytes are there (rule R14). -/
theorem State.BufferInv.frame {s : State} (h : s.BufferInv) : ∃ m, s.frame = some m :=
  Option.isSome_iff_exists.mp (frame_isSome h.lenBound h.bufWhole)

/-! ### Each operation gives the invariant -/

/-- `raise` rests in `Faulted` with no session opening and no result (rule R121). -/
theorem State.BufferInv.raise {s : State} (h : s.BufferInv) (hc : s.Cleared) (k : ErrKind) : (raise k s).Inv where
  __ := h
  sentEmpty := nofun
  receivingRoom := nofun
  receivingOpen := nofun
  completedOk := by simp
  faultedErr := by simp
  classOk := by simp [hc.1]
  noPartial _ := hc.2
  openingReset hl := by
    rw [raise_life] at hl
    split at hl <;> simp_all
  busySession := by simp

/-- `commit` rests in `Completed` with a class and the session no longer opening (rules R100, R103). -/
theorem State.BufferInv.commit {s : State} (h : s.BufferInv) {cls : EnvClass} (hc : cls ≠ .error) (p : Payload) :
    (commit cls p s).Inv where
  __ := h
  sentEmpty := nofun
  receivingRoom := nofun
  receivingOpen := nofun
  completedOk := by simp
  faultedErr := by simp
  classOk := by cases cls <;> simp_all [RClass.ofEnv]
  noPartial hs := absurd rfl hs
  openingReset hl := by
    rw [commit_life] at hl
    split at hl <;> simp_all
  busySession := by simp

theorem State.BufferInv.finishFrame {s : State} (h : s.BufferInv) (hc : s.Cleared) (m : List Byte) :
    (finishFrame m s).Inv := by
  obtain ⟨k, hk⟩ | ⟨cls, p, he, _, hk⟩ := finishFrame_cases m s
  · exact hk ▸ h.raise hc k
  · exact hk ▸ h.commit he p

/-- `START` in a session, or the forced `RESET` of one that opens (rules R98, R103). -/
theorem State.BufferInv.startCommand {s : State} (h : s.BufferInv) {c : CmdId}
    (hl : s.life = .opened ∨ s.life = .opening ∧ c = .reset) (t : TxAnswer) : (startCommand c t s).Inv := by
  have hbegin : (beginCommand c s).BufferInv := { h with lenBound := Nat.zero_le _ }
  cases t with
  | fail e => exact hbegin.raise ⟨rfl, rfl, rfl, rfl⟩ _
  | ok =>
    exact {
      hbegin with
      sentEmpty := fun _ => rfl
      receivingRoom := nofun
      receivingOpen := nofun
      completedOk := by simp [startCommand_ok]
      faultedErr := by simp [startCommand_ok]
      classOk := by simp [startCommand_ok]
      noPartial := fun _ => ⟨rfl, rfl, rfl⟩
      openingReset := fun ho => by
        have ho : s.life = .opening := ho
        exact ⟨.inl rfl, show c = .reset by simpa [ho] using hl⟩
      busySession := fun _ => by
        show s.life ≠ .closed
        obtain hl | ⟨hl, _⟩ := hl <;> simp [hl] }

/-- `OPEN` in its outcomes (rule R102). -/
theorem State.BufferInv.openWith {s : State} (h : s.BufferInv) (a : OpenAnswer) : (openWith a s).Inv := by
  cases a with
  | fail e =>
    have hcleared : State.BufferInv { s with len := 0, rclass := .noClass, val0 := 0, val1 := 0, mode := .unknown } :=
      { h with lenBound := Nat.zero_le _ }
    exact hcleared.raise ⟨rfl, rfl, rfl, rfl⟩ _
  | ok t =>
    have hopening : State.BufferInv { s with life := .opening, cFocus := .unknown, cWb := .unknown, cAe := .unknown } :=
      { h with }
    exact hopening.startCommand (.inr ⟨rfl, rfl⟩) t

/-- `SETTLE` enters `Receiving` with nothing received (rule R99). -/
theorem State.Inv.settlePhase {s : State} (h : s.Inv) (hp : s.phase = .sent) : (settlePhase s).Inv := by
  have hlen : s.len = 0 := h.sentEmpty hp
  have hroom : s.len < s.cfg.maxMsgLen := by have := Config.valid_maxMsgLen h.cfgValid; omega
  have hcompleted := h.completedOk
  have hfaulted := h.faultedErr
  exact {
    h with
    sentEmpty := nofun
    receivingRoom := fun _ => hroom
    receivingOpen := fun _ i hi => by simp [hlen] at hi
    completedOk := by simpa [hp] using hcompleted
    faultedErr := by simpa [hp] using hfaulted
    openingReset := fun ho => ⟨.inr rfl, (h.openingReset ho).2⟩
    busySession := fun _ => h.busySession (.inl hp) }

/-- `RX` of a byte that neither ends nor fills the frame (rules R91, R95). -/
theorem State.Inv.storeByte {s : State} (h : s.Inv) {b : Byte} (hp : s.phase = .receiving) (hb : b ≠ sentinel)
    (hl : s.len + 1 < s.cfg.maxMsgLen) : (storeByte b s).Inv := by
  have hbuf := h.bufferInv.storeByte b (Nat.lt_of_succ_lt hl)
  exact {
    h with
    bufWf := hbuf.bufWf
    bufInside := hbuf.bufInside
    bufWhole := hbuf.bufWhole
    lenBound := hbuf.lenBound
    sentEmpty := fun hs => by simp [hp] at hs
    receivingRoom := fun _ => hl
    receivingOpen := fun _ i hi => by
      rw [storeByte_buf]
      by_cases hil : i = s.len
      · rw [hil, Memory.read_write_same]
        simpa using hb
      · rw [Memory.read_write_other _ b hil]
        exact h.receivingOpen hp i (by simp only [storeByte_len] at hi; omega) }

/-- `RX` in each of its outcomes (rules R90 to R94). -/
theorem rxStep_inv {a : RxAnswer} {s s' : State} (h : s.Inv) (hx : rxStep a s = .next s') : s'.Inv := by
  obtain ⟨hp, ⟨e, _, rfl⟩ | ⟨b, _, hl, hcases⟩⟩ := rxStep_cases hx
  · exact h.bufferInv.raise (h.cleared_receiving hp) _
  · have hbuf := h.bufferInv.storeByte b hl
    have hcleared : (storeByte b s).Cleared := h.cleared_receiving hp
    obtain ⟨_, m, _, _, rfl⟩ | ⟨_, _, rfl⟩ | ⟨hb, hne, rfl⟩ := hcases
    · exact hbuf.finishFrame hcleared m
    · exact hbuf.raise hcleared _
    · exact h.storeByte hp hb (by omega)

/-- `START` of an accepted request, its answer taken from the transport. -/
theorem State.Inv.startAccepted {s : State} (h : s.Inv) {c : CmdId} (ha : s.accepts (.execute c.code) = true)
    (ts : List TxAnswer) (t : TxAnswer) : (Machine.startCommand c t { s with txq := ts }).Inv := by
  obtain ⟨hopen, _⟩ := (accepts_execute_iff c s).mp ha
  exact State.BufferInv.startCommand (s := { s with txq := ts }) { h.bufferInv with } (.inl hopen) t

/-- By induction on the transport's answers. -/
theorem receive_inv {as : List RxAnswer} {s s' : State} (h : s.Inv) (hx : receive as s = .next s') : s'.Inv := by
  induction as generalizing s with
  | nil =>
    cases hx
    exact { h with }
  | cons a as ih =>
    simp only [receive] at hx
    split at hx
    · next t hrx =>
      have ht : t.Inv := rxStep_inv (s := { s with rxq := as }) { h with } hrx
      split at hx
      · exact ih ht hx
      · cases hx
        exact ht
    · cases hx
    · cases hx

theorem transact_inv {c : CmdId} {s s' : State} (h : s.Inv) (hx : transact c s = .next s') : s'.Inv := by
  unfold transact at hx
  split at hx
  · next ha =>
    split at hx
    · cases hx
      exact h
    · cases hx
      exact h.startAccepted ha _ _
    · exact receive_inv ((h.startAccepted ha _ .ok).settlePhase rfl) hx
  · cases hx

/-- Whatever an instruction does, it keeps the invariant. -/
theorem Effect.inv {s s' : State} (h : s.Inv) (hx : Effect s s') : s'.Inv := by
  cases hx with
  | same => exact h
  | returns r => exact { h with }
  | faults k m hp => exact h.bufferInv.raise (h.cleared_receiving hp) k
  | commits cls p m hc => exact h.bufferInv.commit hc p
  | opens a => exact h.bufferInv.openWith a
  | closes ha =>
    have hresting : ¬ (s.phase = .sent ∨ s.phase = .receiving) := by
      simp only [State.accepts, Bool.and_eq_true] at ha
      rintro (hp | hp) <;> simp [hp, Phase.resting] at ha
    exact { h with openingReset := nofun, busySession := fun hp => absurd hp hresting }
  | starts c t _ hl => exact h.bufferInv.startCommand hl t
  | settles hp => exact h.settlePhase hp
  | receives a _ hx => exact rxStep_inv h hx
  | transacts c _ hx => exact transact_inv h hx

/-- The reset event leaves the reset values, whatever the state (rule R129). -/
theorem resetEvent_inv {s : State} (hv : s.cfg.valid = true) : (resetEvent s).Inv where
  cfgValid := hv
  bufWf := freshBuffer_wf _ _
  bufInside _ hc := freshBuffer_inside hc
  bufWhole _ hi := (freshBuffer_isSome _ _ _).mpr hi
  lenBound := Nat.zero_le _
  sentEmpty := nofun
  receivingRoom := nofun
  receivingOpen := nofun
  completedOk := by simp
  faultedErr := by simp
  classOk := by simp
  noPartial _ := ⟨rfl, rfl, rfl⟩
  openingReset := nofun
  busySession := by simp

/-- What the sequencer selects for a request is run in the state with its queues advanced. -/
theorem fetchRequest_run_ports {r : Request} {q : List Request} {s t : State} {i : Instr}
    (h : fetchRequest r q s = .run i t) : ∃ aq tq, t = { s with hostq := q, acqq := aq, txq := tq } := by
  obtain ⟨_, ⟨_, _, rfl⟩ | ⟨_, _, as, _, _, rfl⟩ | ⟨_, as, _, us, _, _, _, rfl⟩ | ⟨_, _, _, us, _, _, _, _, rfl⟩⟩ :=
    fetchRequest_run h
  · exact ⟨s.acqq, s.txq, rfl⟩
  · exact ⟨as, s.txq, rfl⟩
  · exact ⟨as, us, rfl⟩
  · exact ⟨s.acqq, us, rfl⟩

/-- The sequencer takes what it selects from the ports and leaves the registers. -/
theorem fetch_run_inv {s t : State} {i : Instr} (h : s.Inv) (hf : fetch s = .run i t) : t.Inv := by
  cases hs : s.slot with
  | some p =>
    have hp : fetchPresented p s = .run i t := by simpa only [fetch, hs] using hf
    rw [fetchPresented_run hp]
    exact { h with }
  | none =>
    obtain ⟨_, _, rfl⟩ | ⟨_, _, as, _, _, rfl⟩ | ⟨_, r, q, _, hr⟩ := fetch_run hs hf
    · exact h
    · exact { h with }
    · obtain ⟨aq, tq, rfl⟩ := fetchRequest_run_ports hr
      exact { h with }

/-! ### The obligations on the invariant -/

theorem step_inv {s s' : State} (h : s.Inv) (hx : step s = .next s') : s'.Inv := by
  obtain ⟨_, ⟨i, t, hf, hx⟩ | ⟨_, rfl⟩ | ⟨t, hf, rfl⟩⟩ := step_next hx
  · exact (exec_effect hx).inv (fetch_run_inv h hf)
  · exact h
  · obtain ⟨_, rfl⟩ := fetch_reset hf
    exact resetEvent_inv h.cfgValid

/-- Settles O49: what the sequencer selects runs in a state with the same registers, and each way an instruction can
change the state keeps the invariant. -/
theorem everyStepKeepsTheInvariant : Obligations.EveryStepKeepsTheInvariant := fun _ _ h hx => step_inv h hx

/-- Settles O48: the reset state is what the reset event leaves, but for the counter of free bytes. -/
theorem invariantHoldsAtReset : Obligations.InvariantHoldsAtReset := by
  have h : (resetEvent { State.reset with free := 0 }).Inv := resetEvent_inv (by decide)
  exact { h with }

end Sys2Proof.Machine
end

section
/-! PROOFS. The encodings (30_encoding.md): decoding and encoding agree at every place, in both directions, and the
templates of a configuration that is run meet their constraints. -/

namespace Sys2Proof

/-! ### From an instruction to its bytes and back -/

/-- Where the templates differ, a template names its command (rule R47). -/
theorem decodeOut5_template {cfg : Config} (hd : cfg.templatesDistinct = true) (c : CmdId) :
    decodeOut5 cfg (template cfg c) = some c.instr := by
  have hall (d : CmdId) : d ∈ CmdId.all := by cases d <;> decide
  have hinj (d : CmdId) (h : template cfg d = template cfg c) : d = c :=
    List.inj_on_of_nodup_map (of_decide_eq_true hd) (hall d) (hall c) h
  have hsame : (fun d => template cfg d == template cfg c) = (fun d => d == c) := by
    funext d
    rw [Bool.eq_iff_iff, beq_iff_eq, beq_iff_eq]
    exact ⟨hinj d, congrArg _⟩
  rw [decodeOut5, hsame]
  cases c <;> rfl

theorem decode_template {cfg : Config} (hv : cfg.valid = true) (hd : cfg.templatesDistinct = true) (c : CmdId)
    (rest : List Byte) : decode cfg .out5 (template cfg c ++ rest) = .ok (c.instr, rest) := by
  have hlength := Config.valid_length_template hv c
  have hout5 := decodeOut5_template hd c
  match ht : template cfg c, hlength with
  | [b0, b1, b2, b3, b4], _ =>
    rw [ht] at hout5
    simp [decode, hout5]

/-- At a one-byte place the decoder reads the row of the byte and leaves the rest. -/
theorem decoded_ok {i j : Instr} (rest : List Byte) (h : i = j) :
    (Except.ok (i, rest) : Except DecodeError (Instr × List Byte)) = .ok (j, rest) := by rw [h]

/-- The envelope rows by their high nibble (rule R83). -/
theorem decodeEnv_byteOf_ack (socket : Nibble) : decodeEnv (byteOf 4 socket) = .envAck socket := by
  simp only [decodeEnv, hi4_byteOf, lo4_byteOf, if_true]

theorem decodeEnv_byteOf_completion (socket : Nibble) : decodeEnv (byteOf 5 socket) = .envCompletion socket := by
  simp only [decodeEnv, hi4_byteOf, lo4_byteOf, if_true]
  rfl

theorem decodeEnv_byteOf_error {cls : Nibble} (h4 : cls ≠ 4) (h5 : cls ≠ 5) (socket : Nibble) :
    decodeEnv (byteOf cls socket) = .envError cls socket := by
  simp only [decodeEnv, hi4_byteOf, lo4_byteOf, h4, h5, if_false]

/-- The error-code rows by their low nibble, but for `0x41` (rule R52). -/
theorem decodeErrDet_byteOf : ∀ h : Nibble,
    (h ≠ 4 → decodeErrDet (byteOf h 1) = .errMessageLength h) ∧ decodeErrDet (byteOf h 2) = .errSyntax h ∧
    decodeErrDet (byteOf h 3) = .errBufferFull h ∧ decodeErrDet (byteOf h 4) = .errCancel h ∧
    decodeErrDet (byteOf h 5) = .errAddress h := by decide

theorem decodeErrDet_unknown {d : Byte} (h : ∀ n ∈ [(1 : Nibble), 2, 3, 4, 5], lo4 d ≠ n) :
    decodeErrDet d = .errUnknown d := by
  have hcommand : d ≠ 0x41 := by
    rintro rfl
    exact h 1 (by decide) (by decide)
  simp only [List.forall_mem_cons] at h
  simp only [decodeErrDet, hcommand, h, if_false]

/-- The keys of a table with parameters are distinct, so each is decoded as its own row (rules R54, R55). -/
theorem decodeWb_keys {cfg : Config} (h : (wbKeys cfg).Nodup) :
    decodeWb cfg cfg.wbAuto = .wbAuto ∧ decodeWb cfg cfg.wbIndoor = .wbIndoor ∧
    decodeWb cfg cfg.wbOutdoor = .wbOutdoor ∧ decodeWb cfg cfg.wbOnePush = .wbOnePush ∧
    decodeWb cfg 0x05 = .wbManual := by
  simp only [wbKeys, List.nodup_cons, List.mem_cons, List.not_mem_nil, or_false, not_or] at h
  refine ⟨if_pos rfl, ?_⟩
  simp only [decodeWb, eq_comm, h, if_false, if_true, and_self]

theorem decodeWb_other {cfg : Config} {b : Byte} (h : b ∉ wbKeys cfg) : decodeWb cfg b = .wbOther b := by
  simp only [wbKeys, List.mem_cons, List.not_mem_nil, or_false, not_or] at h
  simp only [decodeWb, h, if_false]

theorem decodeAe_keys {cfg : Config} (h : (aeKeys cfg).Nodup) :
    decodeAe cfg cfg.aeAuto = .aeAuto ∧ decodeAe cfg cfg.aeManual = .aeManual ∧
    decodeAe cfg cfg.aeShutter = .aeShutter ∧ decodeAe cfg cfg.aeIris = .aeIris ∧
    decodeAe cfg cfg.aeBright = .aeBright := by
  simp only [aeKeys, List.nodup_cons, List.mem_cons, List.not_mem_nil, or_false, not_or] at h
  simp only [decodeAe, eq_comm, h, if_false, if_true, and_self]

theorem decodeAe_other {cfg : Config} {b : Byte} (h : b ∉ aeKeys cfg) : decodeAe cfg b = .aeOther b := by
  simp only [aeKeys, List.mem_cons, List.not_mem_nil, or_false, not_or] at h
  simp only [decodeAe, h, if_false]

/-- Settles O2: a template names its command, a byte of nibbles is taken apart again, a key is found in its row, and a
default arm carries a byte that no earlier row matches. -/
theorem decodeInvertsEncode : Obligations.DecodeInvertsEncode := by
  intro cfg i f bs rest hv hd hwf he
  obtain ⟨hwbAuto, hwbIndoor, hwbOutdoor, hwbOnePush, hwbManual⟩ := decodeWb_keys (Config.valid_wbKeys hv)
  obtain ⟨haeAuto, haeManual, haeShutter, haeIris, haeBright⟩ := decodeAe_keys (Config.valid_aeKeys hv)
  cases i <;> cases he
  case reset => exact decode_template hv hd .reset rest
  case clear => exact decode_template hv hd .clear rest
  case inqZoomPos => exact decode_template hv hd .inqZoomPos rest
  case inqFocusPos => exact decode_template hv hd .inqFocusPos rest
  case inqFocusMode => exact decode_template hv hd .inqFocusMode rest
  case inqPanTiltPos => exact decode_template hv hd .inqPanTiltPos rest
  case inqWbMode => exact decode_template hv hd .inqWbMode rest
  case inqAeMode => exact decode_template hv hd .inqAeMode rest
  case inqShutterPos => exact decode_template hv hd .inqShutterPos rest
  case inqIrisPos => exact decode_template hv hd .inqIrisPos rest
  case inqGainPos => exact decode_template hv hd .inqGainPos rest
  case inqBrightPos => exact decode_template hv hd .inqBrightPos rest
  case envAck socket => exact decoded_ok rest (decodeEnv_byteOf_ack socket)
  case envCompletion socket => exact decoded_ok rest (decodeEnv_byteOf_completion socket)
  case envError cls socket =>
    simp only [Instr.wf, Bool.and_eq_true, bne_iff_ne] at hwf
    exact decoded_ok rest (decodeEnv_byteOf_error hwf.1 hwf.2 socket)
  case errCommand => rfl
  case errMessageLength h =>
    obtain ⟨hlength, _⟩ := decodeErrDet_byteOf h
    exact decoded_ok rest (hlength (bne_iff_ne.mp hwf))
  case errSyntax h =>
    obtain ⟨_, hsyntax, _⟩ := decodeErrDet_byteOf h
    exact decoded_ok rest hsyntax
  case errBufferFull h =>
    obtain ⟨_, _, hfull, _⟩ := decodeErrDet_byteOf h
    exact decoded_ok rest hfull
  case errCancel h =>
    obtain ⟨_, _, _, hcancel, _⟩ := decodeErrDet_byteOf h
    exact decoded_ok rest hcancel
  case errAddress h =>
    obtain ⟨_, _, _, _, haddress⟩ := decodeErrDet_byteOf h
    exact decoded_ok rest haddress
  case errUnknown d => exact decoded_ok rest (decodeErrDet_unknown (by simpa [Instr.wf] using hwf))
  case focusAuto => rfl
  case focusManual => rfl
  case focusOther b =>
    simp only [Instr.wf, Bool.and_eq_true, bne_iff_ne] at hwf
    exact decoded_ok rest ((if_neg hwf.1).trans (if_neg hwf.2))
  case wbAuto => exact decoded_ok rest hwbAuto
  case wbIndoor => exact decoded_ok rest hwbIndoor
  case wbOutdoor => exact decoded_ok rest hwbOutdoor
  case wbOnePush => exact decoded_ok rest hwbOnePush
  case wbManual => exact decoded_ok rest hwbManual
  case wbOther b => exact decoded_ok rest (decodeWb_other (by simpa [Instr.wf] using hwf))
  case aeAuto => exact decoded_ok rest haeAuto
  case aeManual => exact decoded_ok rest haeManual
  case aeShutter => exact decoded_ok rest haeShutter
  case aeIris => exact decoded_ok rest haeIris
  case aeBright => exact decoded_ok rest haeBright
  case aeOther b => exact decoded_ok rest (decodeAe_other (by simpa [Instr.wf] using hwf))
  case fieldWord | fieldShort => simp [decode]
  case fieldByte => rfl

/-! ### From a byte to its instruction and back -/

/-- An instruction whose pattern is the byte `b` at the place `f`. -/
def IsRowOf (cfg : Config) (f : Format) (b : Byte) (i : Instr) : Prop :=
  i.wf cfg = true ∧ encode cfg i = some (f, [b])

/-- A row whose pattern is two nibbles stands for the byte of these nibbles. -/
theorem isRowOf_byteOf {cfg : Config} {f : Format} {b : Byte} {h l : Nibble} {i : Instr} (hh : hi4 b = h)
    (hl : lo4 b = l) (hwf : i.wf cfg = true) (he : encode cfg i = some (f, [byteOf h l])) : IsRowOf cfg f b i := by
  subst hh hl
  exact ⟨hwf, by rw [he, byteOf_hi4_lo4]⟩

theorem decodeEnv_isRowOf (cfg : Config) (e : Byte) : IsRowOf cfg .env e (decodeEnv e) := by
  unfold decodeEnv
  split
  next h4 => exact isRowOf_byteOf h4 rfl rfl rfl
  split
  next h5 => exact isRowOf_byteOf h5 rfl rfl rfl
  next h4 h5 => exact isRowOf_byteOf rfl rfl (by simp only [Instr.wf, Bool.and_eq_true, bne_iff_ne]; exact ⟨h4, h5⟩) rfl

theorem decodeErrDet_isRowOf (cfg : Config) (d : Byte) : IsRowOf cfg .errDet d (decodeErrDet d) := by
  unfold decodeErrDet
  split
  next hd => exact hd ▸ ⟨rfl, rfl⟩
  next hd =>
  split
  next h1 =>
    have hhi : hi4 d ≠ 4 := fun h4 => hd (by rw [← byteOf_hi4_lo4 d, h4, h1]; rfl)
    exact isRowOf_byteOf rfl h1 (bne_iff_ne.mpr hhi) rfl
  split
  next h2 => exact isRowOf_byteOf rfl h2 rfl rfl
  split
  next h3 => exact isRowOf_byteOf rfl h3 rfl rfl
  split
  next h4 => exact isRowOf_byteOf rfl h4 rfl rfl
  split
  next h5 => exact isRowOf_byteOf rfl h5 rfl rfl
  next h1 h2 h3 h4 h5 => exact ⟨by simp_all [Instr.wf], rfl⟩

theorem decodeFocus_isRowOf (cfg : Config) (b : Byte) : IsRowOf cfg .enumFocus b (decodeFocus b) := by
  unfold decodeFocus IsRowOf
  (repeat' split) <;> simp_all [Instr.wf, encode]

theorem decodeWb_isRowOf (cfg : Config) (b : Byte) : IsRowOf cfg .enumWb b (decodeWb cfg b) := by
  unfold decodeWb IsRowOf
  (repeat' split) <;> simp_all [Instr.wf, encode, wbKeys]

theorem decodeAe_isRowOf (cfg : Config) (b : Byte) : IsRowOf cfg .enumAe b (decodeAe cfg b) := by
  unfold decodeAe IsRowOf
  (repeat' split) <;> simp_all [Instr.wf, encode, aeKeys]

/-- Settles O3: at each one-byte place the decoded row is a row of that byte. -/
theorem everyByteDecodesAndEncodesBack : Obligations.EveryByteDecodesAndEncodesBack := by
  intro cfg f b rest hf
  obtain rfl | rfl | rfl | rfl | rfl | rfl := hf
  · exact ⟨_, rfl, decodeEnv_isRowOf cfg b⟩
  · exact ⟨_, rfl, decodeErrDet_isRowOf cfg b⟩
  · exact ⟨_, rfl, decodeFocus_isRowOf cfg b⟩
  · exact ⟨_, rfl, decodeWb_isRowOf cfg b⟩
  · exact ⟨_, rfl, decodeAe_isRowOf cfg b⟩
  · exact ⟨.fieldByte b, rfl, rfl, rfl⟩

/-! ### The templates of a configuration -/

/-- Rule R48, read from the check `templateOk`. -/
theorem templateOk_constraints {t : List Byte} (h : templateOk t = true) :
    t ≠ [] ∧ t.getLast? = some 0xFF ∧ (∀ b ∈ t.dropLast, b ≠ 0xFF) ∧ t.head? = some 0x81 := by
  simp only [templateOk, isMessage, Bool.and_eq_true, beq_iff_eq, List.all_eq_true, bne_iff_ne] at h
  obtain ⟨⟨_, hhead⟩, hlast, hinner⟩ := h
  have hne : t ≠ [] := by
    rintro rfl
    cases hhead
  exact ⟨hne, hlast, hinner, hhead⟩

/-- Settles O4: a configuration that breaks a constraint is not valid, and no step runs in it. -/
theorem templatesMeetTheirConstraintsOrAreRefused : Obligations.TemplatesMeetTheirConstraintsOrAreRefused := by
  have hvalid (cfg : Config) (c : CmdId) (hv : cfg.valid = true) :=
    templateOk_constraints (Config.valid_templateOk hv c)
  refine ⟨hvalid, fun s c hbroken => if_neg fun hv => ?_⟩
  obtain ⟨hne, hlast, hinner, hhead⟩ := hvalid s.cfg c hv
  obtain h | h | ⟨b, hb, h⟩ | h := hbroken
  · exact hne h
  · exact h hlast
  · exact hinner b hb h
  · exact h hhead

/-- Settles O1: each pattern is decoded by computation. -/
theorem patternsDecodeToTheirRows : Obligations.PatternsDecodeToTheirRows :=
  ⟨rfl, rfl, rfl, rfl, rfl, rfl, rfl, rfl, rfl, rfl, rfl, rfl, rfl, rfl, rfl, rfl, rfl, rfl⟩

end Sys2Proof
end

section
/-! PROOFS. The encode functions and the short field (40_codec.md, rules R50, R61, R64 to R66), and the laws of the
codec (rule R68). -/

namespace Sys2Proof.Machine

/-! ### The functions by name -/

theorem exec_decodeShort (src : Source) (o : Nat) (s : State) :
    exec (.decodeShort src o) s = decodeWith src (fun v => .ofExcept .word (decodeShort s.cfg.shortRule v o)) s := rfl

/-- An encode function answers within its range and is refused outside (rules R61, R64, R66; decision D21). -/
theorem exec_encodeByte_inside {v : Nat} (w : Nat) (s : State) (h : v ≤ 0xFF) :
    exec (.encodeByte v w) s = .next (returning (.bytes (encodeByte (BitVec.ofNat 8 v))) s) := if_pos h

theorem exec_encodeByte_outside {v : Nat} (w : Nat) (s : State) (h : 0xFF < v) :
    exec (.encodeByte v w) s = .refused .operandOutOfRange := if_neg (Nat.not_le.mpr h)

theorem exec_encodeWord_inside {v : Nat} (s : State) (h : v ≤ 0xFFFF) :
    exec (.encodeWord v) s = .next (returning (.bytes (encodeWord (BitVec.ofNat 16 v))) s) := if_pos h

theorem exec_encodeWord_outside {v : Nat} (s : State) (h : 0xFFFF < v) :
    exec (.encodeWord v) s = .refused .operandOutOfRange := if_neg (Nat.not_le.mpr h)

theorem exec_encodeShort_inside {v : Nat} {s : State} (h : v ≤ shortLimit s.cfg) :
    exec (.encodeShort v) s = .next (returning (.bytes (encodeShort s.cfg.shortRule (BitVec.ofNat 16 v))) s) := if_pos h

theorem exec_encodeShort_outside {v : Nat} {s : State} (h : shortLimit s.cfg < v) :
    exec (.encodeShort v) s = .refused .operandOutOfRange := if_neg (Nat.not_le.mpr h)

/-! ### The bytes of a word and of a short -/

/-- The nibble of a number at bit `k`, widened to a byte. -/
theorem toNat_nibble_zeroExtend (v : Word) (k : Nat) :
    ((v.extractLsb' k 4).zeroExtend 8).toNat = v.toNat / 2 ^ k % 16 := by
  simp only [BitVec.toNat_setWidth, BitVec.extractLsb'_toNat, Nat.shiftRight_eq_div_pow]
  omega

theorem nibble_zeroExtend_eq {v : Word} {k : Nat} {b : Byte} (h : b.toNat = v.toNat / 2 ^ k % 16) :
    (v.extractLsb' k 4).zeroExtend 8 = b :=
  BitVec.eq_of_toNat_eq ((toNat_nibble_zeroExtend v k).trans h.symm)

theorem byte_extract_eq {v : Word} {k : Nat} {b : Byte} (h : b.toNat = v.toNat / 2 ^ k % 256) :
    v.extractLsb' k 8 = b := by
  apply BitVec.eq_of_toNat_eq
  rw [BitVec.extractLsb'_toNat, Nat.shiftRight_eq_div_pow, h]

/-- Settles O7: in range the byte is the operand, whatever the width. -/
theorem encodeByteReturnsTheByteOrRefuses : Obligations.EncodeByteReturnsTheByteOrRefuses :=
  fun _ w s => ⟨exec_encodeByte_inside w s, exec_encodeByte_outside w s⟩

/-- Settles O10: the four nibbles, extracted and widened, are the four digits of the operand to base 16. -/
theorem encodeWordPacksFourNibbles : Obligations.EncodeWordPacksFourNibbles := by
  refine fun v s => ⟨fun hv b0 b1 b2 b3 h0 h1 h2 h3 => ?_, exec_encodeWord_outside s⟩
  have hn : (BitVec.ofNat 16 v).toNat = v := by rw [BitVec.toNat_ofNat]; omega
  rw [exec_encodeWord_inside s hv, encodeWord, nibble_zeroExtend_eq (b := b0) (by rw [hn]; omega),
    nibble_zeroExtend_eq (b := b1) (by rw [hn]; omega), nibble_zeroExtend_eq (b := b2) (by rw [hn]; omega),
    nibble_zeroExtend_eq (b := b3) (by rw [hn]; omega)]
  rfl

/-- Settles O12: two digits of the operand, to base 16 with `NIBBLE8`, to base 256 with `BYTE16`. -/
theorem encodeShortPacksItsTwoBytes : Obligations.EncodeShortPacksItsTwoBytes := by
  refine fun v s => ⟨fun hr => ?nibble8, fun hr => ?byte16⟩
  case nibble8 =>
    have hlimit : shortLimit s.cfg = 0xFF := by rw [shortLimit, hr]
    refine ⟨fun hv => ?_, fun hv => exec_encodeShort_outside (hlimit ▸ hv)⟩
    have hn : (BitVec.ofNat 16 v).toNat = v := by rw [BitVec.toNat_ofNat]; omega
    rw [exec_encodeShort_inside (hlimit ▸ hv), hr, encodeShort,
      nibble_zeroExtend_eq (b := BitVec.ofNat 8 (v / 16)) (by rw [hn, BitVec.toNat_ofNat]; omega),
      nibble_zeroExtend_eq (b := BitVec.ofNat 8 (v % 16)) (by rw [hn, BitVec.toNat_ofNat]; omega)]
    rfl
  case byte16 =>
    have hlimit : shortLimit s.cfg = 0xFFFF := by rw [shortLimit, hr]
    refine ⟨fun hv => ?_, fun hv => exec_encodeShort_outside (hlimit ▸ hv)⟩
    have hn : (BitVec.ofNat 16 v).toNat = v := by rw [BitVec.toNat_ofNat]; omega
    rw [exec_encodeShort_inside (hlimit ▸ hv), hr, encodeShort,
      byte_extract_eq (b := BitVec.ofNat 8 (v / 256)) (by rw [hn, BitVec.toNat_ofNat]; omega),
      byte_extract_eq (b := BitVec.ofNat 8 (v % 256)) (by rw [hn, BitVec.toNat_ofNat]; omega)]
    rfl

/-! ### The short field -/

/-- A short layout is its two nibbles side by side, the upper 8 bits zero (rule R50). -/
theorem shortOfNibbles_eq_append (p q : Nibble) : shortOfNibbles p q = (0 : Byte) ++ (p ++ q) := by
  revert p q
  decide

/-- The short of two bytes as rule R65 and decision D7 write it. -/
theorem shortOfBytes_nibble8 (p q : Byte) :
    shortOfBytes .nibble8 p q = ((p &&& 0x0F).zeroExtend 16 <<< 4) ||| (q &&& 0x0F).zeroExtend 16 := by
  simp only [shortOfBytes, shortOfNibbles, zeroExtend_mask_eq_lo4]

theorem shortOfBytes_eq_match (r : ShortRule) (p q : Byte) :
    shortOfBytes r p q = match r with
      | .nibble8 => ((p &&& 0x0F).zeroExtend 16 <<< 4) ||| (q &&& 0x0F).zeroExtend 16
      | .byte16 => (p.zeroExtend 16 <<< 8) ||| q.zeroExtend 16 := by
  cases r with
  | nibble8 => exact shortOfBytes_nibble8 p q
  | byte16 => rfl

theorem decode_fieldShort (cfg : Config) (p q h0 h1 : Nibble) :
    decode cfg .fieldShort [byteOf h0 p, byteOf h1 q] = .ok (.fieldShort p q, []) := by
  simp only [decode, lo4_byteOf]

theorem exec_fieldShort (p q : Nibble) (s : State) :
    exec (.fieldShort p q) s = .next (returning (.word ((0 : Byte) ++ (p ++ q))) s) := by
  rw [← shortOfNibbles_eq_append]
  rfl

/-- Settles O11: as for `decode_word`, with the value by the short rule in force; the layout is that of its nibbles. -/
theorem decodeShortUnpacksItsTwoBytes : Obligations.DecodeShortUnpacksItsTwoBytes := by
  intro m o s
  simp only [exec_decodeShort]
  refine ⟨fun p q hp hq => ⟨?bareIn, fun hin => ?framedIn⟩, fun hout => ?bareOut, fun hout => ?framedOut,
    fun hp hf hl => decodeWith_buffer_eq_framed _ hp hf hl, fun p q h0 h1 => ⟨?decoded, rfl, ?run⟩⟩
  case bareIn =>
    rw [decodeWith_bare, decodeShort_inside (View.bare_limit_of_getElem? hq) hp hq, shortOfBytes_eq_match]
    rfl
  case framedIn =>
    rw [decodeWith_framed, decodeShort_inside (v := .framed m) hin hp hq, shortOfBytes_eq_match]
    rfl
  case bareOut =>
    rw [decodeWith_bare, decodeShort_outside (v := .bare m) hout]
    rfl
  case framedOut =>
    rw [decodeWith_framed, decodeShort_outside (v := .framed m) hout]
    rfl
  case decoded => exact decode_fieldShort s.cfg p q h0 h1
  case run => exact exec_fieldShort p q s

/-! ### The laws of the codec -/

theorem decodeWord_bare (b0 b1 b2 b3 : Byte) :
    decodeWord (.bare [b0, b1, b2, b3]) 0 = .ok (wordOfNibbles (lo4 b0) (lo4 b1) (lo4 b2) (lo4 b3)) := rfl

theorem decodeShort_bare (r : ShortRule) (p q : Byte) :
    decodeShort r (.bare [p, q]) 0 = .ok (shortOfBytes r p q) := rfl

/-- A nibble widened to a byte is the low nibble under a zero high nibble (rule R64). -/
theorem zeroExtend_eq_byteOf : ∀ n : Nibble, n.zeroExtend 8 = byteOf 0 n := by decide

theorem lo4_zeroExtend (n : Nibble) : lo4 (n.zeroExtend 8) = n := by rw [zeroExtend_eq_byteOf, lo4_byteOf]

theorem toNat_byteOf_zero : ∀ n : Nibble, (byteOf 0 n).toNat = n.toNat := by decide

/-- A byte is encoded back to itself exactly when its high nibble is zero (rule R34). -/
theorem byteOf_zero_lo4_eq_iff (b : Byte) : byteOf 0 (lo4 b) = b ↔ hi4 b = 0 := by
  constructor
  · intro h
    rw [← h, hi4_byteOf]
  · intro h
    rw [← h, byteOf_hi4_lo4]

theorem toNat_append_nibble {k : Nat} (x : BitVec k) (n : Nibble) : (x ++ n).toNat = x.toNat * 16 + n.toNat := by
  rw [BitVec.toNat_append, ← Nat.shiftLeft_add_eq_or_of_lt n.isLt, Nat.shiftLeft_eq]

/-- A word and a short as numbers in base 16. -/
theorem toNat_wordOfNibbles (a b c d : Nibble) :
    (wordOfNibbles a b c d).toNat = ((a.toNat * 16 + b.toNat) * 16 + c.toNat) * 16 + d.toNat := by
  rw [wordOfNibbles_eq_append]
  exact (toNat_append_nibble (a ++ b ++ c) d).trans
    (by rw [toNat_append_nibble (a ++ b) c, toNat_append_nibble a b])

theorem toNat_shortOfNibbles : ∀ p q : Nibble, (shortOfNibbles p q).toNat = p.toNat * 16 + q.toNat := by decide

theorem toNat_nibble (v : Word) (k : Nat) : (v.extractLsb' k 4).toNat = v.toNat / 2 ^ k % 16 := by
  rw [BitVec.extractLsb'_toNat, Nat.shiftRight_eq_div_pow]

/-- Law (a): a word is the word of its four nibbles. -/
theorem decodeWord_encodeWord (v : Word) : decodeWord (.bare (encodeWord v)) 0 = .ok v := by
  rw [encodeWord, decodeWord_bare]
  simp only [lo4_zeroExtend]
  congr 1
  apply BitVec.eq_of_toNat_eq
  simp only [toNat_wordOfNibbles, toNat_nibble]
  omega

/-- The encoding of a word of four nibbles is these nibbles. -/
theorem encodeWord_wordOfNibbles (a b c d : Nibble) :
    encodeWord (wordOfNibbles a b c d) = [byteOf 0 a, byteOf 0 b, byteOf 0 c, byteOf 0 d] := by
  have hw := toNat_wordOfNibbles a b c d
  have ha := a.isLt
  have hb := b.isLt
  have hc := c.isLt
  have hd := d.isLt
  rw [encodeWord, nibble_zeroExtend_eq (b := byteOf 0 a) (by rw [hw, toNat_byteOf_zero]; omega),
    nibble_zeroExtend_eq (b := byteOf 0 b) (by rw [hw, toNat_byteOf_zero]; omega),
    nibble_zeroExtend_eq (b := byteOf 0 c) (by rw [hw, toNat_byteOf_zero]; omega),
    nibble_zeroExtend_eq (b := byteOf 0 d) (by rw [hw, toNat_byteOf_zero]; omega)]

/-- Law (e): a short that fits in 8 bits is the short of its two nibbles. -/
theorem decodeShort_encodeShort {v : Word} (h : v.toNat ≤ 0xFF) :
    decodeShort .nibble8 (.bare (encodeShort .nibble8 v)) 0 = .ok v := by
  rw [encodeShort, decodeShort_bare, shortOfBytes]
  simp only [lo4_zeroExtend]
  congr 1
  apply BitVec.eq_of_toNat_eq
  simp only [toNat_shortOfNibbles, toNat_nibble]
  omega

/-- Law (f): a short is the word with two zero bytes before it. -/
theorem shortOfNibbles_eq_wordOfNibbles : ∀ p q : Nibble, shortOfNibbles p q = wordOfNibbles 0 0 p q := by decide

/-- Settles O13: decoding takes the low nibbles, and the nibbles of a word are its digits to base 16. -/
theorem codecLaws : Obligations.CodecLaws := by
  refine ⟨decodeWord_encodeWord, fun a b c d h0 h1 h2 h3 => ?append, fun b0 b1 b2 b3 c0 c1 c2 c3 e0 e1 e2 e3 => ?low,
    fun b0 b1 b2 b3 => ⟨_, decodeWord_bare b0 b1 b2 b3, encodeWord_wordOfNibbles .., ?back⟩,
    fun v => decodeShort_encodeShort, fun p q => ?short, fun v => rfl⟩
  case append =>
    rw [decodeWord_bare, ← wordOfNibbles_eq_append]
    simp only [lo4_byteOf]
  case low => rw [decodeWord_bare, decodeWord_bare, e0, e1, e2, e3]
  case back =>
    simp only [encodeWord_wordOfNibbles, List.cons.injEq, byteOf_zero_lo4_eq_iff, and_true]
  case short =>
    rw [decodeShort_bare, decodeWord_bare, shortOfBytes, shortOfNibbles_eq_wordOfNibbles]
    rfl

end Sys2Proof.Machine
end

section
/-! PROOFS. The catalog functions (41_catalog.md, rule R69): `build`, and `decode_reply` by the recipe of each command,
on a frame that holds what the recipe reads and on one too short for it. -/

namespace Sys2Proof.Machine

/-- Settles O17: `build` is the template table. -/
theorem buildReturnsTheTemplate : Obligations.BuildReturnsTheTemplate := by
  have hbuild (c : CmdId) (s : State) : exec (.build c) s = .next { s with ret := .bytes (template s.cfg c) } := by
    rw [← build_eq]
    rfl
  exact fun c s => ⟨hbuild c s, hbuild .reset s, hbuild .clear s, hbuild .inqZoomPos s⟩

/-! ### `decode_reply` by the recipe of the command -/

theorem decodeReply_action {cfg : Config} {c : CmdId} (v : View) (hc : c = .reset ∨ c = .clear) :
    decodeReply cfg c v = .ok {} := by
  obtain rfl | rfl := hc
  · rfl
  · rfl

theorem decodeReply_word {cfg : Config} {c : CmdId} (v : View) (hc : c = .inqZoomPos ∨ c = .inqFocusPos) :
    decodeReply cfg c v = (decodeWord v 2).map fun w => { val0 := some w } := by
  obtain rfl | rfl := hc <;> simp only [decodeReply, catalog, runRecipe] <;> cases decodeWord v 2 <;> rfl

theorem decodeReply_short {cfg : Config} {c : CmdId} (v : View)
    (hc : c = .inqShutterPos ∨ c = .inqIrisPos ∨ c = .inqGainPos ∨ c = .inqBrightPos) :
    decodeReply cfg c v = (decodeShort cfg.shortRule v 4).map fun w => { val0 := some w } := by
  obtain rfl | rfl | rfl | rfl := hc <;> simp only [decodeReply, catalog, runRecipe] <;>
    cases decodeShort cfg.shortRule v 4 <;> rfl

/-- A read raises nothing but `FramingError` (rule R31). -/
theorem View.read_error {v : View} {o n : Nat} {k : ErrKind} (h : v.read o n = .error k) : k = .framingError := by
  unfold View.read at h
  split at h
  · cases h
  · cases h
    rfl

theorem decodeWord_error {v : View} {o : Nat} {k : ErrKind} (h : decodeWord v o = .error k) : k = .framingError := by
  unfold decodeWord at h
  split at h
  · cases h
  · cases h
    rfl
  next hread =>
    cases h
    exact View.read_error hread

/-- Both words or neither (rule R75). -/
theorem decodeReply_panTilt_ok (cfg : Config) {v : View} {w w' : Word} (h : decodeWord v 2 = .ok w)
    (h' : decodeWord v 6 = .ok w') :
    decodeReply cfg .inqPanTiltPos v = .ok { val0 := some w, val1 := some w' } := by
  simp only [decodeReply, catalog, runRecipe, h, h']

theorem decodeReply_panTilt_short (cfg : Config) {v : View} (h : v.limit < 10) :
    decodeReply cfg .inqPanTiltPos v = .error .framingError := by
  have h' := decodeWord_outside (v := v) (o := 6) h
  simp only [decodeReply, catalog, runRecipe, h']
  cases h2 : decodeWord v 2 with
  | ok w => rfl
  | error k => rw [decodeWord_error h2]

/-- A mode recipe is its table on byte 2 (rules R74, R76, R77, R120). -/
theorem modeRecipe_key {table : Byte → Option ModeVal} {v : View} {b : Byte} {x : ModeVal} (h : decodeByte v 2 = .ok b)
    (ht : table b = some x) : modeRecipe table v 2 = .ok { mode := some x } := by
  simp only [modeRecipe, h, ht]

theorem modeRecipe_other {table : Byte → Option ModeVal} {v : View} {b : Byte} (h : decodeByte v 2 = .ok b)
    (ht : table b = none) : modeRecipe table v 2 = .error .unknownError := by
  simp only [modeRecipe, h, ht]

theorem modeRecipe_short (table : Byte → Option ModeVal) {v : View} (h : v.limit < 3) :
    modeRecipe table v 2 = .error .framingError := by
  simp only [modeRecipe, decodeByte_outside (v := v) (o := 2) h]

/-- Too short a frame for any mode inquiry (rule R57). -/
theorem decodeReply_mode_short (cfg : Config) {c : CmdId} {v : View}
    (hc : c = .inqFocusMode ∨ c = .inqWbMode ∨ c = .inqAeMode) (h : v.limit < 3) :
    decodeReply cfg c v = .error .framingError := by
  obtain rfl | rfl | rfl := hc
  · exact modeRecipe_short focusEnum h
  · exact modeRecipe_short (wbEnum cfg) h
  · exact modeRecipe_short (aeEnum cfg) h

/-! ### The data bytes of a frame, strictly before its last byte (rule R31) -/

section
variable (a e b2 b3 b4 b5 b6 b7 b8 b9 z : Byte) (x : List Byte)

theorem decodeByte_frame : decodeByte (.framed (a :: e :: b2 :: x ++ [z])) 2 = .ok b2 :=
  decodeByte_inside (by simp [View.framed]) rfl

theorem decodeWord_frame :
    decodeWord (.framed (a :: e :: b2 :: b3 :: b4 :: b5 :: x ++ [z])) 2 =
      .ok (wordOfNibbles (lo4 b2) (lo4 b3) (lo4 b4) (lo4 b5)) :=
  decodeWord_inside (by simp [View.framed]) rfl rfl rfl rfl

theorem decodeWord_frame_second :
    decodeWord (.framed (a :: e :: b2 :: b3 :: b4 :: b5 :: b6 :: b7 :: b8 :: b9 :: x ++ [z])) 6 =
      .ok (wordOfNibbles (lo4 b6) (lo4 b7) (lo4 b8) (lo4 b9)) :=
  decodeWord_inside (by simp [View.framed]) rfl rfl rfl rfl

theorem decodeShort_frame (r : ShortRule) :
    decodeShort r (.framed (a :: e :: b2 :: b3 :: b4 :: b5 :: x ++ [z])) 4 = .ok (shortOfBytes r b4 b5) :=
  decodeShort_inside (by simp [View.framed]) rfl rfl

/-- The position recipes on a frame that holds their bytes (rules R72, R73, R78 to R81). -/
theorem decodeReply_word_frame {cfg : Config} {c : CmdId} {w : Word} (hc : c = .inqZoomPos ∨ c = .inqFocusPos)
    (hw : wordOfNibbles (lo4 b2) (lo4 b3) (lo4 b4) (lo4 b5) = w) :
    decodeReply cfg c (.framed (a :: e :: b2 :: b3 :: b4 :: b5 :: x ++ [z])) = .ok { val0 := some w } := by
  rw [decodeReply_word _ hc, decodeWord_frame, hw]
  rfl

theorem decodeReply_short_frame {cfg : Config} {c : CmdId} {w : Word}
    (hc : c = .inqShutterPos ∨ c = .inqIrisPos ∨ c = .inqGainPos ∨ c = .inqBrightPos)
    (hw : shortOfBytes cfg.shortRule b4 b5 = w) :
    decodeReply cfg c (.framed (a :: e :: b2 :: b3 :: b4 :: b5 :: x ++ [z])) = .ok { val0 := some w } := by
  rw [decodeReply_short _ hc, decodeShort_frame, hw]
  rfl

end

theorem View.framed_limit_lt {m : List Byte} {n : Nat} (h : m.length < n + 2) : (View.framed m).limit < n + 1 := by
  show m.length - 1 < n + 1
  omega

/-! ### The tables of modes -/

theorem focusEnum_key {b : Byte} {v : ModeVal} (h : (b, v) ∈ [((0x02 : Byte), ModeVal.auto), (0x03, .manual)]) :
    focusEnum b = some v := by
  simp only [List.mem_cons, Prod.mk.injEq, List.not_mem_nil, or_false] at h
  obtain ⟨rfl, rfl⟩ | ⟨rfl, rfl⟩ := h
  · rfl
  · rfl

theorem focusEnum_other {b : Byte} (h : b ∉ [(0x02 : Byte), 0x03]) : focusEnum b = none := by
  simp only [List.mem_cons, List.not_mem_nil, or_false, not_or] at h
  simp only [focusEnum, h, if_false]

/-- The pairs of the white-balance table (rule R54) and of the auto-exposure table (rule R55). -/
def wbTable (cfg : Config) : List (Byte × ModeVal) :=
  [(cfg.wbAuto, .auto), (cfg.wbIndoor, .indoor), (cfg.wbOutdoor, .outdoor), (cfg.wbOnePush, .onePush), (0x05, .manual)]

def aeTable (cfg : Config) : List (Byte × ModeVal) :=
  [(cfg.aeAuto, .auto), (cfg.aeManual, .manual), (cfg.aeShutter, .shutter), (cfg.aeIris, .iris),
    (cfg.aeBright, .bright)]

theorem wbEnum_key {cfg : Config} (hk : (wbKeys cfg).Nodup) {b : Byte} {v : ModeVal} (h : (b, v) ∈ wbTable cfg) :
    wbEnum cfg b = some v := by
  simp only [wbKeys, List.nodup_cons, List.mem_cons, List.not_mem_nil, or_false, not_or] at hk
  simp only [wbTable, List.mem_cons, Prod.mk.injEq, List.not_mem_nil, or_false] at h
  obtain ⟨rfl, rfl⟩ | ⟨rfl, rfl⟩ | ⟨rfl, rfl⟩ | ⟨rfl, rfl⟩ | ⟨rfl, rfl⟩ := h <;>
    simp only [wbEnum, eq_comm, hk, if_false, if_true]

theorem wbEnum_other {cfg : Config} {b : Byte} (h : b ∉ wbKeys cfg) : wbEnum cfg b = none := by
  simp only [wbKeys, List.mem_cons, List.not_mem_nil, or_false, not_or] at h
  simp only [wbEnum, h, if_false]

theorem aeEnum_key {cfg : Config} (hk : (aeKeys cfg).Nodup) {b : Byte} {v : ModeVal} (h : (b, v) ∈ aeTable cfg) :
    aeEnum cfg b = some v := by
  simp only [aeKeys, List.nodup_cons, List.mem_cons, List.not_mem_nil, or_false, not_or] at hk
  simp only [aeTable, List.mem_cons, Prod.mk.injEq, List.not_mem_nil, or_false] at h
  obtain ⟨rfl, rfl⟩ | ⟨rfl, rfl⟩ | ⟨rfl, rfl⟩ | ⟨rfl, rfl⟩ | ⟨rfl, rfl⟩ := h <;>
    simp only [aeEnum, eq_comm, hk, if_false, if_true]

theorem aeEnum_other {cfg : Config} {b : Byte} (h : b ∉ aeKeys cfg) : aeEnum cfg b = none := by
  simp only [aeKeys, List.mem_cons, List.not_mem_nil, or_false, not_or] at h
  simp only [aeEnum, h, if_false]

/-! ### The obligations on `decode_reply` -/

/-- `BYTE16` puts the two bytes side by side (decision D7). -/
theorem shortOfBytes_byte16 (p q : Byte) : shortOfBytes .byte16 p q = p ++ q := by
  unfold shortOfBytes
  ext i hi
  change _ = (p ++ q : BitVec (8 + 8))[i]
  simp only [BitVec.getElem_append, BitVec.getElem_or, BitVec.getElem_shiftLeft, BitVec.getElem_setWidth]
  interval_cases i <;> simp

/-- `decode_reply` by name is its pure function on the operand (rule R69). -/
theorem exec_decodeReply (c : CmdId) (src : Source) (s : State) :
    exec (.decodeReply c src) s = decodeWith src (fun v => .ofExcept .payload (decodeReply s.cfg c v)) s := rfl

theorem exec_decodeReply_framed {c : CmdId} {m : List Byte} {s : State} {r : Except ErrKind Payload}
    (h : decodeReply s.cfg c (.framed m) = r) :
    exec (.decodeReply c (.framed m)) s = .next { s with ret := .ofExcept .payload r } := by
  rw [exec_decodeReply, decodeWith_framed, h]
  rfl

/-- Settles O18: each recipe on a frame that holds its bytes, and out of bounds on a shorter one. -/
theorem decodeReplyYieldsPositions : Obligations.DecodeReplyYieldsPositions := by
  intro a e b2 b3 b4 b5 b6 b7 b8 b9 x m s w
  have hw (p q r t : Byte) : wordOfNibbles (lo4 p) (lo4 q) (lo4 r) (lo4 t) = w p q r t := wordOfNibbles_eq_append ..
  refine ⟨fun c hc => ?action, fun c hc => ⟨?word, fun hm => ?wordOut⟩, ?panTilt, fun hm => ?panTiltOut,
    fun c hc => ⟨fun hr => ?nibble8, fun hr => ?byte16, fun hm => ?shortOut⟩, fun hp hf hl c => ?buffer⟩
  case action => exact exec_decodeReply_framed (decodeReply_action _ hc)
  case word => exact exec_decodeReply_framed (r := .ok _) (decodeReply_word_frame _ _ _ _ _ _ _ _ hc (hw ..))
  case wordOut =>
    refine exec_decodeReply_framed (r := .error _) ?_
    rw [decodeReply_word _ hc, decodeWord_outside (View.framed_limit_lt hm)]
    rfl
  case panTilt =>
    refine exec_decodeReply_framed (r := .ok _) ?_
    rw [decodeReply_panTilt_ok s.cfg (decodeWord_frame ..) (decodeWord_frame_second ..), hw, hw]
  case panTiltOut => exact exec_decodeReply_framed (decodeReply_panTilt_short s.cfg (View.framed_limit_lt hm))
  case nibble8 =>
    refine exec_decodeReply_framed (r := .ok _) (decodeReply_short_frame _ _ _ _ _ _ _ _ hc ?_)
    rw [hr, shortOfBytes, shortOfNibbles_eq_append]
  case byte16 =>
    refine exec_decodeReply_framed (r := .ok _) (decodeReply_short_frame _ _ _ _ _ _ _ _ hc ?_)
    rw [hr, shortOfBytes_byte16]
  case shortOut =>
    refine exec_decodeReply_framed (r := .error _) ?_
    rw [decodeReply_short _ hc, decodeShort_outside (View.framed_limit_lt hm)]
    rfl
  case buffer =>
    rw [exec_decodeReply, exec_decodeReply]
    exact decodeWith_buffer_eq_framed _ hp hf hl

/-- Settles O19: byte 2 of the frame is looked up in the table of the inquiry, whose keys are distinct. -/
theorem decodeReplyYieldsModes : Obligations.DecodeReplyYieldsModes := by
  intro a e b x m s hv reply
  have hbyte := decodeByte_frame a e b 0xFF x
  refine ⟨fun c hc hm => ?short, fun v h => ?focusKey, fun h => ?focusOther, fun v h => ?wbKey, fun h => ?wbOther,
    fun v h => ?aeKey, fun h => ?aeOther⟩
  case short => exact exec_decodeReply_framed (decodeReply_mode_short s.cfg hc (View.framed_limit_lt hm))
  case focusKey => exact exec_decodeReply_framed (r := .ok _) (modeRecipe_key hbyte (focusEnum_key h))
  case focusOther => exact exec_decodeReply_framed (r := .error _) (modeRecipe_other hbyte (focusEnum_other h))
  case wbKey =>
    exact exec_decodeReply_framed (r := .ok _) (modeRecipe_key hbyte (wbEnum_key (Config.valid_wbKeys hv) h))
  case wbOther => exact exec_decodeReply_framed (r := .error _) (modeRecipe_other hbyte (wbEnum_other h))
  case aeKey =>
    exact exec_decodeReply_framed (r := .ok _) (modeRecipe_key hbyte (aeEnum_key (Config.valid_aeKeys hv) h))
  case aeOther => exact exec_decodeReply_framed (r := .error _) (modeRecipe_other hbyte (aeEnum_other h))

end Sys2Proof.Machine
end

section
/-! PROOFS. Under the invariant every read of the receive buffer is of an offset that exists (rules R14, R29), and in
`Receiving` an answered read request brings the transaction one byte further or to its end (rule R142). -/

namespace Sys2Proof.Machine

/-! ### No operation faults -/

/-- An outcome that is no fault. -/
def Faultless (r : Result) : Prop := ∀ f, r ≠ .fault f

@[simp] theorem faultless_next (s : State) : Faultless (.next s) := nofun

@[simp] theorem faultless_refused (r : Refusal) : Faultless (.refused r) := nofun

theorem faultless_ite {p : Prop} [Decidable p] {r r' : Result} (h : Faultless r) (h' : Faultless r') :
    Faultless (if p then r else r') := by
  split
  · exact h
  · exact h'

section
variable {s : State} (h : s.BufferInv)
include h

/-- The accumulated frame is there, so what reads it faults only by itself. -/
theorem withFrame_faultless {k : List Byte → Result} (hk : ∀ m, Faultless (k m)) : Faultless (withFrame s k) := by
  obtain ⟨m, hm⟩ := h.frame
  unfold withFrame
  rw [hm]
  exact faultless_ite (faultless_ite (hk m) (faultless_refused _)) (faultless_refused _)

theorem decodeWith_faultless (src : Source) (f : View → Ret) : Faultless (decodeWith src f s) := by
  cases src with
  | bare m => exact faultless_next _
  | framed m => exact faultless_next _
  | buffer => exact withFrame_faultless h fun m => faultless_next _

theorem atReplyByte_faultless {o : Nat} {b : Byte} {k : List Byte → Result} (hk : ∀ m, Faultless (k m)) :
    Faultless (atReplyByte o b s k) :=
  withFrame_faultless h fun m => faultless_ite (hk m) (faultless_refused _)

theorem atErrorDetail_faultless (d : Byte) (k : ErrKind) : Faultless (atErrorDetail d k s) :=
  atReplyByte_faultless h fun _ => faultless_ite (faultless_next _) (faultless_refused _)

theorem atModeByte_faultless (c : CmdId) (b : Byte) (v : Option ModeVal) : Faultless (atModeByte c b v s) :=
  atReplyByte_faultless h fun _ => faultless_ite (by cases v <;> exact faultless_next _) (faultless_refused _)

theorem rxStep_faultless (a : RxAnswer) : Faultless (rxStep a s) := by
  refine faultless_ite ?_ (faultless_refused _)
  cases a with
  | fail e => exact faultless_next _
  | byte b =>
    show Faultless (if s.len < s.cfg.maxMsgLen then _ else _)
    split
    next hroom =>
      exact faultless_ite (withFrame_faultless (h.storeByte b hroom) fun m => faultless_next _)
        (faultless_ite (faultless_next _) (faultless_next _))
    next => exact faultless_refused _

end

theorem receive_faultless {as : List RxAnswer} {s : State} (h : s.Inv) : Faultless (receive as s) := by
  induction as generalizing s with
  | nil => exact faultless_next _
  | cons a as ih =>
    have hs : State.Inv { s with rxq := as } := { h with }
    simp only [receive]
    split
    next t hrx => exact faultless_ite (ih (rxStep_inv hs hrx)) (faultless_next _)
    next f hrx => exact absurd hrx (rxStep_faultless hs.bufferInv a f)
    next => exact faultless_refused _

theorem transact_faultless {s : State} (h : s.Inv) (c : CmdId) : Faultless (transact c s) := by
  unfold transact
  split
  next ha =>
    split
    next => exact faultless_next _
    next => exact faultless_next _
    next ts _ =>
      exact receive_faultless ((h.startAccepted ha ts .ok).settlePhase rfl)
  next => exact faultless_refused _

/-- No instruction faults in a state that meets the invariant. -/
theorem exec_faultless {s : State} (h : s.Inv) (i : Instr) : Faultless (exec i s) := by
  have hb := h.bufferInv
  cases i
  case envAck => exact atReplyByte_faultless hb fun _ => faultless_next _
  case envCompletion => exact atReplyByte_faultless hb fun _ => faultless_next _
  case envError =>
    exact atReplyByte_faultless hb fun _ => faultless_ite (faultless_refused _) (faultless_next _)
  case errMessageLength => exact faultless_ite (faultless_refused _) (atErrorDetail_faultless hb _ _)
  case errUnknown => exact faultless_ite (faultless_refused _) (atErrorDetail_faultless hb _ _)
  case errCommand | errSyntax | errBufferFull | errCancel | errAddress => exact atErrorDetail_faultless hb _ _
  case focusOther | wbOther | aeOther => exact faultless_ite (faultless_refused _) (atModeByte_faultless hb _ _ _)
  case focusAuto | wbAuto | aeAuto => exact atModeByte_faultless hb _ _ (some .auto)
  case focusManual | wbManual | aeManual => exact atModeByte_faultless hb _ _ (some .manual)
  case wbIndoor => exact atModeByte_faultless hb _ _ (some .indoor)
  case wbOutdoor => exact atModeByte_faultless hb _ _ (some .outdoor)
  case wbOnePush => exact atModeByte_faultless hb _ _ (some .onePush)
  case aeShutter => exact atModeByte_faultless hb _ _ (some .shutter)
  case aeIris => exact atModeByte_faultless hb _ _ (some .iris)
  case aeBright => exact atModeByte_faultless hb _ _ (some .bright)
  case fieldWord | fieldShort | fieldByte | classifyEnvelope | classifyError | build => exact faultless_next _
  case openSession | closeSession | start | settle | encodeByte | encodeWord | encodeShort =>
    exact faultless_ite (faultless_next _) (faultless_refused _)
  case execute id =>
    show Faultless (execExecute id s)
    unfold execExecute
    split
    next c _ => exact transact_faultless h c
    next => exact faultless_refused _
  case rx a => exact rxStep_faultless hb a
  case finish => exact withFrame_faultless hb fun _ => faultless_next _
  case decodeByte => exact exec_decodeByte .. ▸ decodeWith_faultless hb _ _
  case decodeWord => exact exec_decodeWord .. ▸ decodeWith_faultless hb _ _
  case decodeShort => exact exec_decodeShort .. ▸ decodeWith_faultless hb _ _
  case decodeReply => exact exec_decodeReply .. ▸ decodeWith_faultless hb _ _
  all_goals exact transact_faultless h _

/-- Settles O50: a step that is no wait and no reset event is an instruction in a state that meets the invariant. -/
theorem noStepFromTheInvariantFaults : Obligations.NoStepFromTheInvariantFaults := by
  intro s h f hx
  rw [step_eq h.cfgValid] at hx
  split at hx
  next i t hf => exact exec_faultless (fetch_run_inv h hf) i f hx
  all_goals cases hx

/-! ### A reply ends within the buffer -/

/-- `RX` of a byte that fills the buffer (rule R93, decision D4). -/
theorem rxStep_full {s : State} {b : Byte} (hp : s.phase = .receiving) (hl : s.len + 1 = s.cfg.maxMsgLen)
    (hb : b ≠ sentinel) : rxStep (.byte b) s = .next (raise .framingError (storeByte b s)) := by
  have hroom : s.len < s.cfg.maxMsgLen := by omega
  simp only [rxStep, hp, hroom, hb, hl, if_true, if_false]

/-- `RX` in `Receiving` under the invariant: it stores a byte and goes on, or the transaction ends. -/
theorem rxStep_progress {s : State} (h : s.Inv) (hp : s.phase = .receiving) (a : RxAnswer) :
    (∃ b, b ≠ sentinel ∧ rxStep a s = .next (storeByte b s)) ∨
    ∃ t, rxStep a s = .next t ∧ (t.phase = .completed ∨ t.phase = .faulted) := by
  have hroom := h.receivingRoom hp
  cases a with
  | fail e => exact .inr ⟨_, rxStep_fail e hp, .inr rfl⟩
  | byte b =>
    by_cases hb : b = sentinel
    · subst hb
      obtain ⟨m, hm⟩ := h.bufferInv.frame
      exact .inr ⟨_, rxStep_sentinel hp hroom hm, finishFrame_phase _ _⟩
    · by_cases hfull : s.len + 1 = s.cfg.maxMsgLen
      · exact .inr ⟨_, rxStep_full hp hfull hb, .inr rfl⟩
      · exact .inl ⟨b, hb, rxStep_byte hp (by omega) hb⟩

/-- The step of the machine in `Receiving` is `RX` of the transport's next answer. -/
theorem step_receiving {s : State} {a : RxAnswer} {as : List RxAnswer} (hv : s.cfg.valid = true) (hs : s.slot = none)
    (hp : s.phase = .receiving) (hq : s.rxq = a :: as) : step s = rxStep a { s with rxq := as } := by
  rw [step_eq hv]
  simp only [fetch, hs, hp, hq]
  rfl

/-- A run takes its first step first. -/
theorem run_succ {s s' : State} (h : step s = .next s') (k : Nat) : core.run (k + 1) s = core.run k s' := by
  have hstep : core.step s = .next s' := h
  simp only [Host.Core.run, hstep]

theorem run_one (s : State) : core.run 1 s = step s := by
  have hstep : core.step s = step s := rfl
  simp only [Host.Core.run, hstep]
  cases step s <;> rfl

/-- By induction on the room left in the buffer. -/
theorem receiving_ends {n : Nat} {s : State} (h : s.Inv) (hs : s.slot = none) (hp : s.phase = .receiving)
    (hn : s.cfg.maxMsgLen - s.len = n) (hq : n ≤ s.rxq.length) :
    ∃ k ≤ n, ∃ t, core.run k s = .next t ∧ (t.phase = .completed ∨ t.phase = .faulted) := by
  induction n generalizing s with
  | zero =>
    have := h.receivingRoom hp
    omega
  | succ n ih =>
    obtain ⟨a, as, has⟩ : ∃ a as, s.rxq = a :: as := List.exists_cons_of_length_pos (by omega)
    have hstep := step_receiving h.cfgValid hs hp has
    have hs' : State.Inv { s with rxq := as } := { h with }
    obtain ⟨b, hb, hrx⟩ | ⟨t, hrx, ht⟩ := rxStep_progress hs' hp a
    · rw [hrx] at hstep
      have hlength : as.length + 1 = s.rxq.length := by rw [has]; rfl
      obtain ⟨k, hk, t, hrun, ht⟩ := ih (rxStep_inv hs' hrx) hs hp
        (show s.cfg.maxMsgLen - (s.len + 1) = n by omega) (show n ≤ as.length by omega)
      exact ⟨k + 1, Nat.succ_le_succ hk, t, (run_succ hstep k).trans hrun, ht⟩
    · rw [hrx] at hstep
      exact ⟨1, Nat.succ_le_succ (Nat.zero_le n), t, (run_one s).trans hstep, ht⟩

/-- Settles O57: each answered read request stores a byte or ends the transaction. -/
theorem receivingEndsWithinTheBuffer : Obligations.ReceivingEndsWithinTheBuffer :=
  fun _ h hs hp hq => receiving_ends h hs hp rfl hq

end Sys2Proof.Machine
end

section
/-! PROOFS. `FINISH` (44_session.md, rule R100) and the reply patterns beside it (30_encoding.md sections 4 to 6): what
each does on a complete frame, that they agree, and where they are not enabled. -/

namespace Sys2Proof.Machine

/-! ### `FINISH` in the order of its tests -/

section
variable {m : List Byte} {s : State}

theorem finishFrame_short (h : m.length < 3) : finishFrame m s = raise .framingError s := if_pos h

theorem finishFrame_error (h : 3 ≤ m.length) (he : classifyEnvelope (m.getD 1 0) = .error) :
    finishFrame m s = finishError m s := by
  simp only [finishFrame, if_neg (Nat.not_lt.mpr h), he]

theorem finishFrame_reply (h : 3 ≤ m.length) {cls : EnvClass} (hne : cls ≠ .error)
    (he : classifyEnvelope (m.getD 1 0) = cls) : finishFrame m s = finishReply cls m s := by
  simp only [finishFrame, if_neg (Nat.not_lt.mpr h), he]
  cases cls with
  | error => exact absurd rfl hne
  | ack => rfl
  | completion => rfl

theorem finishReply_ok {cls : EnvClass} {p : Payload} (h : decodeReply s.cfg s.cmd (.framed m) = .ok p) :
    finishReply cls m s = commit cls p s := by
  simp only [finishReply, h]

theorem finishReply_fault {cls : EnvClass} {k : ErrKind} (h : decodeReply s.cfg s.cmd (.framed m) = .error k) :
    finishReply cls m s = raise k s := by
  simp only [finishReply, h]

theorem finishError_short (h : m.length < 4) : finishError m s = raise .framingError s := if_pos h

theorem finishError_detail (h : 4 ≤ m.length) {d : Byte} (hd : m[2]? = some d) :
    finishError m s = raise (classifyError d) s := by
  have hget : m.getD 2 0 = d := by
    rw [List.getD_eq_getElem?_getD, hd]
    rfl
  rw [finishError, if_neg (Nat.not_lt.mpr h), hget]

end

/-! ### A complete frame with an envelope byte -/

/-- A reply of the classes 4 and 5 is no error (rule R83). -/
theorem classifyEnvelope_ne_error {e : Byte} (h : hi4 e = 4 ∨ hi4 e = 5) : classifyEnvelope e ≠ .error := by
  obtain h4 | h5 := h
  · rw [classifyEnvelope_ack h4]
    nofun
  · rw [classifyEnvelope_completion h5]
    nofun

/-- `FINISH` is enabled on the frame `m`, whose envelope byte, before the sentinel, is `e`. -/
structure EnvelopeFrame (s : State) (m : List Byte) (e : Byte) : Prop where
  receiving : s.phase = .receiving
  frame : s.frame = some m
  ends : m.getLast? = some sentinel
  length : 3 ≤ m.length
  envelope : m[1]? = some e

namespace EnvelopeFrame

variable {s : State} {m : List Byte} {e : Byte}

theorem getD_envelope (h : EnvelopeFrame s m e) : m.getD 1 0 = e := by
  rw [List.getD_eq_getElem?_getD, h.envelope]
  rfl

theorem atReplyByte_eq (h : EnvelopeFrame s m e) (k : List Byte → Result) : atReplyByte 1 e s k = k m :=
  atReplyByte_of k h.receiving h.frame h.ends h.length h.envelope

theorem withByte (h : EnvelopeFrame s m e) {d : Byte} (hl : 4 ≤ m.length) (hd : m[2]? = some d) :
    ReplyFrame s m e d :=
  ⟨h.receiving, h.frame, h.ends, hl, h.envelope, hd⟩

theorem exec_finish_error (h : EnvelopeFrame s m e) (he : classifyEnvelope e = .error) :
    exec .finish s = .next (finishError m s) := by
  rw [exec_finish h.receiving h.frame h.ends, finishFrame_error h.length (h.getD_envelope ▸ he)]

theorem exec_finish_reply (h : EnvelopeFrame s m e) {cls : EnvClass} (hne : cls ≠ .error)
    (he : classifyEnvelope e = cls) : exec .finish s = .next (finishReply cls m s) := by
  rw [exec_finish h.receiving h.frame h.ends, finishFrame_reply h.length hne (h.getD_envelope ▸ he)]

/-- The rows of format `ENV` at their place (rules R83, R84). -/
theorem exec_envAck {socket : Nibble} (h : EnvelopeFrame s m (byteOf 4 socket)) :
    exec (.envAck socket) s = .next (finishReply .ack m s) := h.atReplyByte_eq _

theorem exec_envCompletion {socket : Nibble} (h : EnvelopeFrame s m (byteOf 5 socket)) :
    exec (.envCompletion socket) s = .next (finishReply .completion m s) := h.atReplyByte_eq _

theorem exec_envError {cls socket : Nibble} (h : EnvelopeFrame s m (byteOf cls socket)) (h4 : cls ≠ 4) (h5 : cls ≠ 5) :
    exec (.envError cls socket) s = .next (finishError m s) :=
  (h.atReplyByte_eq _).trans (if_neg (not_or.mpr ⟨h4, h5⟩))

/-- `FINISH` is the row of the envelope byte. -/
theorem exec_finish_eq_decodeEnv (h : EnvelopeFrame s m e) : exec .finish s = exec (decodeEnv e) s := by
  have hbyte : EnvelopeFrame s m (byteOf (hi4 e) (lo4 e)) := (byteOf_hi4_lo4 e).symm ▸ h
  by_cases h4 : hi4 e = 4
  · rw [h.exec_finish_reply (cls := .ack) nofun (classifyEnvelope_ack h4), decodeEnv, if_pos h4,
      exec_envAck (h4 ▸ hbyte)]
  by_cases h5 : hi4 e = 5
  · rw [h.exec_finish_reply (cls := .completion) nofun (classifyEnvelope_completion h5), decodeEnv, if_neg h4,
      if_pos h5, exec_envCompletion (h5 ▸ hbyte)]
  · rw [h.exec_finish_error (classifyEnvelope_error h4 h5), decodeEnv, if_neg h4, if_neg h5,
      hbyte.exec_envError h4 h5]

end EnvelopeFrame

/-! ### The rows at byte 2 by the byte they are decoded from -/

/-- The error-code row of a byte raises the kind `classify_error` gives it (rules R52, R85). -/
theorem exec_decodeErrDet (d : Byte) (s : State) :
    exec (decodeErrDet d) s = atErrorDetail d (classifyError d) s := by
  by_cases hd : d = 0x41
  · rw [hd]
    rfl
  have hbyte {n : Nibble} (h : lo4 d = n) : d = byteOf (hi4 d) n := by rw [← h, byteOf_hi4_lo4]
  obtain ⟨rlength, rsyntax, rfull, rcancel, raddress⟩ := decodeErrDet_byteOf (hi4 d)
  obtain ⟨klength, ksyntax, kfull, kcancel, kaddress⟩ := classifyError_byteOf (hi4 d)
  generalize hi4 d = hi at *
  by_cases h1 : lo4 d = 1
  · obtain rfl := hbyte h1
    have hhi : hi ≠ 4 := by
      rintro rfl
      exact hd rfl
    rw [rlength hhi, klength hhi]
    exact if_neg hhi
  by_cases h2 : lo4 d = 2
  · obtain rfl := hbyte h2
    rw [rsyntax, ksyntax]
    rfl
  by_cases h3 : lo4 d = 3
  · obtain rfl := hbyte h3
    rw [rfull, kfull]
    rfl
  by_cases h4 : lo4 d = 4
  · obtain rfl := hbyte h4
    rw [rcancel, kcancel]
    rfl
  by_cases h5 : lo4 d = 5
  · obtain rfl := hbyte h5
    rw [raddress, kaddress]
    rfl
  have hdefault : ∀ n ∈ [(1 : Nibble), 2, 3, 4, 5], lo4 d ≠ n := by
    simp only [List.forall_mem_cons]
    exact ⟨h1, h2, h3, h4, h5, nofun⟩
  have hlow : d.toNat % 16 = 0 ∨ 6 ≤ d.toNat % 16 := by
    simp only [lo4_eq_iff, BitVec.reduceToNat] at h1 h2 h3 h4 h5
    omega
  rw [decodeErrDet_unknown hdefault, classifyError_unknown hlow]
  exact if_neg (by simp only [h1, h2, h3, h4, h5, or_self, not_false_eq_true])

/-- A test of a mode table, beside the same test of the decoder. -/
theorem exec_ite_eq_atModeByte {p : Prop} [Decidable p] {i j : Instr} {c : CmdId} {b : Byte} {v w : Option ModeVal}
    {s : State} (hpos : p → exec i s = atModeByte c b v s) (hneg : ¬ p → exec j s = atModeByte c b w s) :
    exec (if p then i else j) s = atModeByte c b (if p then v else w) s := by
  split
  next h => exact hpos h
  next h => exact hneg h

/-- The mode row of a byte commits the mode its table gives it, or raises `UnknownError` (rules R53 to R55). -/
theorem exec_decodeFocus (b : Byte) (s : State) :
    exec (decodeFocus b) s = atModeByte .inqFocusMode b (focusEnum b) s := by
  refine exec_ite_eq_atModeByte (fun h => h ▸ rfl) fun hauto => ?_
  refine exec_ite_eq_atModeByte (fun h => h ▸ rfl) fun hmanual => ?_
  exact if_neg (not_or.mpr ⟨hauto, hmanual⟩)

theorem exec_wbOther {b : Byte} {s : State} (h : b ∉ wbKeys s.cfg) :
    exec (.wbOther b) s = atModeByte .inqWbMode b none s := if_neg (mt List.contains_iff_mem.mp h)

theorem exec_aeOther {b : Byte} {s : State} (h : b ∉ aeKeys s.cfg) :
    exec (.aeOther b) s = atModeByte .inqAeMode b none s := if_neg (mt List.contains_iff_mem.mp h)

theorem exec_decodeWb (b : Byte) (s : State) :
    exec (decodeWb s.cfg b) s = atModeByte .inqWbMode b (wbEnum s.cfg b) s := by
  refine exec_ite_eq_atModeByte (fun h => h ▸ rfl) fun hauto => ?_
  refine exec_ite_eq_atModeByte (fun h => h ▸ rfl) fun hindoor => ?_
  refine exec_ite_eq_atModeByte (fun h => h ▸ rfl) fun houtdoor => ?_
  refine exec_ite_eq_atModeByte (fun h => h ▸ rfl) fun honePush => ?_
  refine exec_ite_eq_atModeByte (fun h => h ▸ rfl) fun hmanual => exec_wbOther ?_
  simp only [wbKeys, List.mem_cons, List.not_mem_nil, or_false, not_or]
  exact ⟨hauto, hindoor, houtdoor, honePush, hmanual⟩

theorem exec_decodeAe (b : Byte) (s : State) :
    exec (decodeAe s.cfg b) s = atModeByte .inqAeMode b (aeEnum s.cfg b) s := by
  refine exec_ite_eq_atModeByte (fun h => h ▸ rfl) fun hauto => ?_
  refine exec_ite_eq_atModeByte (fun h => h ▸ rfl) fun hmanual => ?_
  refine exec_ite_eq_atModeByte (fun h => h ▸ rfl) fun hshutter => ?_
  refine exec_ite_eq_atModeByte (fun h => h ▸ rfl) fun hiris => ?_
  refine exec_ite_eq_atModeByte (fun h => h ▸ rfl) fun hbright => exec_aeOther ?_
  simp only [aeKeys, List.mem_cons, List.not_mem_nil, or_false, not_or]
  exact ⟨hauto, hmanual, hshutter, hiris, hbright⟩

/-! ### The obligations on the rows and on `FINISH` -/

/-- Settles O25: `FINISH` is the row of the envelope byte; with a byte 2 it raises the kind of the error code or is the
mode pattern of the table's answer, and so does the row decoded from that byte. -/
theorem finishRunsTheDecodedPatterns : Obligations.FinishRunsTheDecodedPatterns := by
  intro s m e hp hf hl hlen he
  have h : EnvelopeFrame s m e := ⟨hp, hf, hl, hlen, he⟩
  refine ⟨h.exec_finish_eq_decodeEnv, fun d hd4 hd => ?_⟩
  have hr := h.withByte hd4 hd
  refine ⟨fun h4 h5 => ?detail, fun hclass => ?mode⟩
  case detail =>
    have herr := classifyEnvelope_error h4 h5
    rw [exec_decodeErrDet, hr.atErrorDetail_eq herr, hr.exec_finish_error herr]
  case mode =>
    have hne := classifyEnvelope_ne_error hclass
    refine ⟨fun hc => ?_, fun hc => ?_, fun hc => ?_⟩
    · rw [exec_decodeFocus, hr.exec_finish_focus hne hc]
    · rw [exec_decodeWb, hr.exec_finish_mode hne (table := wbEnum s.cfg) (fun _ => by rw [hc]; rfl), hc]
    · rw [exec_decodeAe, hr.exec_finish_mode hne (table := aeEnum s.cfg) (fun _ => by rw [hc]; rfl), hc]

/-- Settles O20: the row runs the recipe on the frame, which commits or raises. -/
theorem ackAndCompletionRunTheRecipe : Obligations.AckAndCompletionRunTheRecipe := by
  intro s m socket i e cls hrow hp hf hl hlen he
  obtain ⟨rfl, rfl, rfl⟩ | ⟨rfl, rfl, rfl⟩ := hrow
  · have hexec := EnvelopeFrame.exec_envAck ⟨hp, hf, hl, hlen, he⟩
    refine ⟨fun p hdec => ?_, fun k hdec => ?_⟩
    · rw [hexec, finishReply_ok hdec]
      rfl
    · rw [hexec, finishReply_fault hdec]
      rfl
  · have hexec := EnvelopeFrame.exec_envCompletion ⟨hp, hf, hl, hlen, he⟩
    refine ⟨fun p hdec => ?_, fun k hdec => ?_⟩
    · rw [hexec, finishReply_ok hdec]
      rfl
    · rw [hexec, finishReply_fault hdec]
      rfl

/-- Settles O21: the row classifies the detail byte, if there is one before the sentinel. -/
theorem errorEnvelopeRaises : Obligations.ErrorEnvelopeRaises := by
  intro s m cls socket h4 h5 hp hf hl hlen he
  have hexec := EnvelopeFrame.exec_envError ⟨hp, hf, hl, hlen, he⟩ h4 h5
  refine ⟨fun h3 => ?_, fun d hd4 hd => ?_⟩
  · rw [hexec, finishError_short (by omega)]
    rfl
  · rw [hexec, finishError_detail hd4 hd]
    rfl

namespace ReplyFrame

variable {s : State} {m : List Byte} {e b : Byte}

/-- The commit of a white-balance or auto-exposure mode writes the mode and its own cache register (rule R106). -/
theorem atModeByte_wb (h : ReplyFrame s m e b) (he : classifyEnvelope e ≠ .error) (hc : s.cmd = .inqWbMode)
    (v : ModeVal) :
    atModeByte .inqWbMode b (some v) s = .next { s with
      phase := .completed, status := .ok, rclass := RClass.ofEnv (classifyEnvelope e), mode := v, cWb := v
      life := if s.life = .opening then .opened else s.life } := by
  rw [← hc, h.atModeByte_some he]
  simp [commit, hc]

theorem atModeByte_ae (h : ReplyFrame s m e b) (he : classifyEnvelope e ≠ .error) (hc : s.cmd = .inqAeMode)
    (v : ModeVal) :
    atModeByte .inqAeMode b (some v) s = .next { s with
      phase := .completed, status := .ok, rclass := RClass.ofEnv (classifyEnvelope e), mode := v, cAe := v
      life := if s.life = .opening then .opened else s.life } := by
  rw [← hc, h.atModeByte_some he]
  simp [commit, hc]

end ReplyFrame

/-- Settles O24: each key row is the mode pattern of its key, the default row that of a byte with no mode. -/
theorem wbAndAeRowsCommitOrRaise : Obligations.WbAndAeRowsCommitOrRaise := by
  intro s m e b cls hp hf hl hlen he hcls hb
  have h : ReplyFrame s m e b := ⟨hp, hf, hl, hlen, he, hb⟩
  obtain ⟨hne, rfl⟩ := classifyEnvelope_of_success_nibble hcls
  refine ⟨fun hc => ⟨fun i v hrow => ?wbKey, fun hother => ?wbOther⟩,
    fun hc => ⟨fun i v hrow => ?aeKey, fun hother => ?aeOther⟩⟩
  case wbKey =>
    rw [← h.atModeByte_wb hne hc v]
    simp only [List.mem_cons, Prod.mk.injEq, List.not_mem_nil, or_false] at hrow
    obtain ⟨rfl, rfl, rfl⟩ | ⟨rfl, rfl, rfl⟩ | ⟨rfl, rfl, rfl⟩ | ⟨rfl, rfl, rfl⟩ | ⟨rfl, rfl, rfl⟩ := hrow <;> rfl
  case wbOther =>
    rw [exec_wbOther hother, ← hc, h.atModeByte_none hne]
    rfl
  case aeKey =>
    rw [← h.atModeByte_ae hne hc v]
    simp only [List.mem_cons, Prod.mk.injEq, List.not_mem_nil, or_false] at hrow
    obtain ⟨rfl, rfl, rfl⟩ | ⟨rfl, rfl, rfl⟩ | ⟨rfl, rfl, rfl⟩ | ⟨rfl, rfl, rfl⟩ | ⟨rfl, rfl, rfl⟩ := hrow <;> rfl
  case aeOther =>
    rw [exec_aeOther hother, ← hc, h.atModeByte_none hne]
    rfl

/-- Settles O34: each test of the rule on the frame, and what `execute` returns in the state it ends in. -/
theorem finishInTheOrderOfItsTests : Obligations.FinishInTheOrderOfItsTests := by
  intro s m hp hf hl fault
  have hfinish := exec_finish hp hf hl
  refine ⟨fun k => returnValue_raise k s, fun hm => ?short, fun e hlen he h4 h5 => ?error,
    fun e cls hlen he hcls => ?reply⟩
  case short =>
    rw [hfinish, finishFrame_short hm]
    rfl
  case error =>
    have h : EnvelopeFrame s m e := ⟨hp, hf, hl, hlen, he⟩
    have herr := h.exec_finish_error (classifyEnvelope_of_error_nibble h4 h5)
    refine ⟨fun hm => ?_, fun d hd4 hd => ?_⟩
    · rw [herr, finishError_short hm]
      rfl
    · rw [herr, finishError_detail hd4 hd]
      rfl
  case reply =>
    have h : EnvelopeFrame s m e := ⟨hp, hf, hl, hlen, he⟩
    obtain ⟨hne, rfl⟩ := classifyEnvelope_of_success_nibble hcls
    have hreply := h.exec_finish_reply hne rfl
    refine ⟨fun k hk => ?_, fun p hdec => ?_⟩
    · rw [hreply, finishReply_fault hk]
      rfl
    · exact ⟨commit (classifyEnvelope e) p s, by rw [hreply, finishReply_ok hdec], returnValue_commit hdec, rfl⟩

end Sys2Proof.Machine
end

section
/-! PROOFS. Where a step or a pattern is not enabled (rules R36, R39, R59; log entries 9 and 17), and the framer on a
byte (43_framer.md, rules R91 to R93). -/

namespace Sys2Proof.Machine

/-! ### The rows of a reply, by the byte they are encoded as -/

section
variable {s : State} {i : Instr} {b : Byte}

/-- A row of format `ENV` reads byte 1. -/
theorem exec_envRow (h : encode s.cfg i = some (.env, [b])) : ∃ k, exec i s = atReplyByte 1 b s k := by
  cases i <;> cases h
  case envAck => exact ⟨_, rfl⟩
  case envCompletion => exact ⟨_, rfl⟩
  case envError => exact ⟨_, rfl⟩

/-- A row of format `ERRDET` is an error-code pattern, or its operand belongs to an earlier row. -/
theorem exec_errDetRow (h : encode s.cfg i = some (.errDet, [b])) :
    exec i s = .refused .notEnabled ∨ ∃ k, exec i s = atErrorDetail b k s := by
  cases i <;> cases h
  case errMessageLength hi =>
    by_cases hhi : hi = 4
    · exact .inl (if_pos hhi)
    · exact .inr ⟨_, if_neg hhi⟩
  case errUnknown =>
    by_cases hlow : lo4 b = 1 ∨ lo4 b = 2 ∨ lo4 b = 3 ∨ lo4 b = 4 ∨ lo4 b = 5
    · exact .inl (if_pos hlow)
    · exact .inr ⟨_, if_neg hlow⟩
  case errCommand => exact .inr ⟨_, rfl⟩
  case errSyntax => exact .inr ⟨_, rfl⟩
  case errBufferFull => exact .inr ⟨_, rfl⟩
  case errCancel => exact .inr ⟨_, rfl⟩
  case errAddress => exact .inr ⟨_, rfl⟩

/-- A row of a mode format is a mode pattern of its inquiry, or its operand is a key of an earlier row. -/
theorem exec_focusRow (h : encode s.cfg i = some (.enumFocus, [b])) :
    exec i s = .refused .notEnabled ∨ ∃ v, exec i s = atModeByte .inqFocusMode b v s := by
  cases i <;> cases h
  case focusOther =>
    by_cases hkey : b = 0x02 ∨ b = 0x03
    · exact .inl (if_pos hkey)
    · exact .inr ⟨none, if_neg hkey⟩
  case focusAuto => exact .inr ⟨some .auto, rfl⟩
  case focusManual => exact .inr ⟨some .manual, rfl⟩

theorem exec_wbRow (h : encode s.cfg i = some (.enumWb, [b])) :
    exec i s = .refused .notEnabled ∨ ∃ v, exec i s = atModeByte .inqWbMode b v s := by
  cases i <;> cases h
  case wbOther =>
    by_cases hkey : (wbKeys s.cfg).contains b = true
    · exact .inl (if_pos hkey)
    · exact .inr ⟨none, if_neg hkey⟩
  case wbAuto => exact .inr ⟨some .auto, rfl⟩
  case wbIndoor => exact .inr ⟨some .indoor, rfl⟩
  case wbOutdoor => exact .inr ⟨some .outdoor, rfl⟩
  case wbOnePush => exact .inr ⟨some .onePush, rfl⟩
  case wbManual => exact .inr ⟨some .manual, rfl⟩

theorem exec_aeRow (h : encode s.cfg i = some (.enumAe, [b])) :
    exec i s = .refused .notEnabled ∨ ∃ v, exec i s = atModeByte .inqAeMode b v s := by
  cases i <;> cases h
  case aeOther =>
    by_cases hkey : (aeKeys s.cfg).contains b = true
    · exact .inl (if_pos hkey)
    · exact .inr ⟨none, if_neg hkey⟩
  case aeAuto => exact .inr ⟨some .auto, rfl⟩
  case aeManual => exact .inr ⟨some .manual, rfl⟩
  case aeShutter => exact .inr ⟨some .shutter, rfl⟩
  case aeIris => exact .inr ⟨some .iris, rfl⟩
  case aeBright => exact .inr ⟨some .bright, rfl⟩

/-- The places of the mode patterns, each with its inquiry (rules R53 to R55). -/
def modePlaces : List (Format × CmdId) :=
  [(.enumFocus, .inqFocusMode), (.enumWb, .inqWbMode), (.enumAe, .inqAeMode)]

theorem exec_modeRow {f : Format} {c : CmdId} (hf : (f, c) ∈ modePlaces) (h : encode s.cfg i = some (f, [b])) :
    exec i s = .refused .notEnabled ∨ ∃ v, exec i s = atModeByte c b v s := by
  simp only [modePlaces, List.mem_cons, Prod.mk.injEq, List.not_mem_nil, or_false] at hf
  obtain ⟨rfl, rfl⟩ | ⟨rfl, rfl⟩ | ⟨rfl, rfl⟩ := hf
  · exact exec_focusRow h
  · exact exec_wbRow h
  · exact exec_aeRow h

/-- The mode formats of the statement are the places of the mode patterns. -/
theorem exists_modePlace {f : Format} (h : f ∈ [Format.enumFocus, .enumWb, .enumAe]) : ∃ c, (f, c) ∈ modePlaces := by
  simp only [List.mem_cons, List.not_mem_nil, or_false] at h
  obtain rfl | rfl | rfl := h
  · exact ⟨.inqFocusMode, by decide⟩
  · exact ⟨.inqWbMode, by decide⟩
  · exact ⟨.inqAeMode, by decide⟩

end

/-! ### What reads the buffer goes through the complete frame -/

/-- Refused as not enabled, or a reader of the complete frame. -/
def ReadsFrame (s : State) (r : Result) : Prop := r = .refused .notEnabled ∨ ∃ k, r = withFrame s k

theorem ReadsFrame.not_receiving {s : State} {r : Result} (h : ReadsFrame s r) (hp : s.phase ≠ .receiving) :
    r = .refused .notEnabled := by
  obtain h | ⟨k, rfl⟩ := h
  · exact h
  · exact withFrame_idle k hp

theorem ReadsFrame.not_complete {s : State} {r : Result} (h : ReadsFrame s r) {m : List Byte} (hf : s.frame = some m)
    (hl : m.getLast? ≠ some sentinel) : r = .refused .notEnabled := by
  obtain h | ⟨k, rfl⟩ := h
  · exact h
  · exact withFrame_partial k hf hl

/-- Every reply row at a one-byte place reads the complete frame. -/
theorem exec_replyRow_readsFrame {s : State} {i : Instr} {f : Format} {b : Byte}
    (hf : f ∈ [Format.env, .errDet, .enumFocus, .enumWb, .enumAe]) (h : encode s.cfg i = some (f, [b])) :
    ReadsFrame s (exec i s) := by
  obtain rfl | hf := List.mem_cons.mp hf
  · obtain ⟨k, hk⟩ := exec_envRow h
    exact .inr ⟨_, hk⟩
  obtain rfl | hf := List.mem_cons.mp hf
  · obtain hk | ⟨k, hk⟩ := exec_errDetRow h
    · exact .inl hk
    · exact .inr ⟨_, hk⟩
  · obtain ⟨c, hc⟩ := exists_modePlace hf
    obtain hk | ⟨v, hk⟩ := exec_modeRow hc h
    · exact .inl hk
    · exact .inr ⟨_, hk⟩

/-! ### A pattern on a frame it does not belong to -/

section
variable {s : State} {m : List Byte} {b : Byte} (hp : s.phase = .receiving) (hf : s.frame = some m)
  (hl : m.getLast? = some sentinel)
include hp hf hl

theorem atReplyByte_misplaced {o : Nat} (k : List Byte → Result) (hb : m[o]? ≠ some b) :
    atReplyByte o b s k = .refused .notEnabled :=
  (withFrame_of _ hp hf hl).trans (if_neg fun h => hb h.2)

/-- A pattern refuses a frame that its continuation refuses. -/
theorem atReplyByte_refused {o : Nat} {k : List Byte → Result} (hk : k m = .refused .notEnabled) :
    atReplyByte o b s k = .refused .notEnabled := by
  rw [atReplyByte, withFrame_of _ hp hf hl, hk, ite_self]

theorem atErrorDetail_no_error (k : ErrKind) (he : classifyEnvelope (m.getD 1 0) ≠ .error) :
    atErrorDetail b k s = .refused .notEnabled :=
  atReplyByte_refused hp hf hl (if_neg he)

theorem atModeByte_error {c : CmdId} (v : Option ModeVal) (he : classifyEnvelope (m.getD 1 0) = .error) :
    atModeByte c b v s = .refused .notEnabled :=
  atReplyByte_refused hp hf hl (if_neg fun h => h.2 he)

theorem atModeByte_other_command {c : CmdId} (v : Option ModeVal) (hc : s.cmd ≠ c) :
    atModeByte c b v s = .refused .notEnabled :=
  atReplyByte_refused hp hf hl (if_neg fun h => hc h.1)

/-- The rows at byte 2 refuse another byte there. -/
theorem exec_row_misplaced {i : Instr} {f : Format} (hplace : f ∈ [Format.errDet, .enumFocus, .enumWb, .enumAe])
    (h : encode s.cfg i = some (f, [b])) (hb : m[2]? ≠ some b) : exec i s = .refused .notEnabled := by
  obtain rfl | hplace := List.mem_cons.mp hplace
  · obtain hk | ⟨k, hk⟩ := exec_errDetRow h
    · exact hk
    · exact hk.trans (atReplyByte_misplaced hp hf hl _ hb)
  · obtain ⟨c, hc⟩ := exists_modePlace hplace
    obtain hk | ⟨v, hk⟩ := exec_modeRow hc h
    · exact hk
    · exact hk.trans (atReplyByte_misplaced hp hf hl _ hb)

theorem exec_modeRow_other_command {i : Instr} {f : Format} {c : CmdId} (hc : (f, c) ∈ modePlaces)
    (h : encode s.cfg i = some (f, [b])) (hcmd : s.cmd ≠ c) : exec i s = .refused .notEnabled := by
  obtain hk | ⟨v, hk⟩ := exec_modeRow hc h
  · exact hk
  · exact hk.trans (atModeByte_other_command hp hf hl v hcmd)

end

/-- Settles O26: what reads the buffer goes through the complete frame, and on one a row tests its byte, the class of
the reply and its inquiry. -/
theorem patternsOutsideTheirPlaceAreNotEnabled : Obligations.PatternsOutsideTheirPlaceAreNotEnabled := by
  intro s i readsBuffer
  have hreads (h : readsBuffer) : ReadsFrame s (exec i s) := by
    obtain rfl | ⟨f, b, he, hf⟩ | ⟨o, rfl | rfl | rfl⟩ | ⟨c, rfl⟩ := h
    · exact .inr ⟨_, rfl⟩
    · exact exec_replyRow_readsFrame hf he
    · exact .inr ⟨_, exec_decodeByte ..⟩
    · exact .inr ⟨_, exec_decodeWord ..⟩
    · exact .inr ⟨_, exec_decodeShort ..⟩
    · exact .inr ⟨_, exec_decodeReply ..⟩
  refine ⟨fun hp h => ?phase, fun m hf hl h => (hreads h).not_complete hf hl, fun m f b hp hf hl he =>
    ⟨fun hplace hb => ?env, fun hplace hb => exec_row_misplaced hp hf hl hplace he hb,
      fun e hm => ⟨fun hplace hclass => ?noError, fun hplace h4 h5 => ?error⟩,
      fun hplace hc => ?_, fun hplace hc => ?_, fun hplace hc => ?_⟩⟩
  case phase =>
    obtain ⟨a, rfl⟩ | h := h
    · exact if_neg hp
    · exact (hreads h).not_receiving hp
  case env =>
    obtain ⟨k, hk⟩ := exec_envRow (hplace ▸ he)
    exact hk.trans (atReplyByte_misplaced hp hf hl k hb)
  case noError =>
    have hget : m.getD 1 0 = e := by
      rw [List.getD_eq_getElem?_getD, hm]
      rfl
    have hne : classifyEnvelope (m.getD 1 0) ≠ .error := by
      rw [hget]
      exact classifyEnvelope_ne_error hclass
    obtain hk | ⟨k, hk⟩ := exec_errDetRow (hplace ▸ he)
    · exact hk
    · exact hk.trans (atErrorDetail_no_error hp hf hl k hne)
  case error =>
    have herr : classifyEnvelope (m.getD 1 0) = .error := by
      rw [List.getD_eq_getElem?_getD, hm]
      exact classifyEnvelope_error h4 h5
    obtain ⟨c, hc⟩ := exists_modePlace hplace
    obtain hk | ⟨v, hk⟩ := exec_modeRow hc he
    · exact hk
    · exact hk.trans (atModeByte_error hp hf hl v herr)
  · exact exec_modeRow_other_command hp hf hl (f := .enumFocus) (by decide) (hplace ▸ he) hc
  · exact exec_modeRow_other_command hp hf hl (f := .enumWb) (by decide) (hplace ▸ he) hc
  · exact exec_modeRow_other_command hp hf hl (f := .enumAe) (by decide) (hplace ▸ he) hc

/-! ### The framer on a byte -/

/-- Settles O31: the byte is stored at `len` in both outcomes. -/
theorem rxStoresAByteOrOverflows : Obligations.RxStoresAByteOrOverflows := by
  intro b s hb hp hl
  refine ⟨s.buf.write s.len b, Memory.read_write_same .., fun o ho => Memory.read_write_other _ b ho,
    fun hroom => ?_, fun hfull => ?_⟩
  · rw [exec_rx, rxStep_byte hp hroom hb]
    rfl
  · rw [exec_rx, rxStep_full hp hfull hb]
    rfl

/-- Settles O32: the state with the sentinel stored holds the complete frame, and `FINISH` keeps its buffer. -/
theorem rxOfTheSentinelFinishes : Obligations.RxOfTheSentinelFinishes := by
  intro s m hp hl hf
  have hstored := frame_storeByte sentinel hf
  refine ⟨s.buf.write s.len sentinel, finishFrame (m ++ [sentinel]) (storeByte sentinel s),
    Memory.read_write_same .., fun o ho => Memory.read_write_other _ _ ho, hstored, rxStep_sentinel hp hl hf,
    exec_finish (s := storeByte sentinel s) hp hstored List.getLast?_concat, finishFrame_phase .., ?_, ?_, ?_⟩
  · rw [finishFrame_rxq, storeByte_rxq]
  · rw [finishFrame_buf, storeByte_buf]
  · rw [finishFrame_len, storeByte_len]

end Sys2Proof.Machine
end

section
/-! PROOFS. The session operations and the sequencer's choice (44_session.md): `OPEN`, `CLOSE`, `START`, `SETTLE`, the
requests that are refused, the reset event, and what a step runs. -/

namespace Sys2Proof.Machine

/-! ### Which requests are accepted (rule R105) -/

theorem accepts_open_iff (s : State) : s.accepts .openSession = true ↔ s.life = .closed ∧ s.phase.resting = true := by
  simp [State.accepts]

theorem accepts_close_iff (s : State) :
    s.accepts .closeSession = true ↔ (s.life = .opened ∨ s.life = .closed) ∧ s.phase.resting = true := by
  simp [State.accepts]

theorem CmdId.ofCode_none : ∀ id : Nibble, ¬ id.toNat ≤ 11 → CmdId.ofCode id = none := by decide

theorem CmdId.ofCode_some {id : Nibble} {c : CmdId} (h : CmdId.ofCode id = some c) : id.toNat ≤ 11 := by
  by_contra hid
  rw [CmdId.ofCode_none id hid] at h
  cases h

/-- A command whose request is not accepted is refused (rule R105). -/
theorem transact_refused {c : CmdId} {s : State} (h : ¬ (s.life = .opened ∧ s.phase.resting = true)) :
    transact c s = .refused .requestNotAccepted := if_neg (mt (accepts_execute_iff c s).mp h)

theorem fetchRequest_refused {r : Request} {s : State} (q : List Request) (h : s.accepts r = false) :
    fetchRequest r q s = .refuse .requestNotAccepted := if_neg (by rw [h]; nofun)

/-- Settles O35: each operation tests the row of its request, and so does the sequencer. -/
theorem requestsOutsideTheTableAreRefused : Obligations.RequestsOutsideTheTableAreRefused := by
  intro s
  refine ⟨fun id h => ?execute, fun a h => if_neg (mt (accepts_open_iff s).mp h),
    fun h => if_neg (mt (accepts_close_iff s).mp h), fun hs hv hr r q hq ha => ?step⟩
  case execute =>
    show execExecute id s = _
    unfold execExecute
    split
    next c hc => exact transact_refused fun ⟨hl, hp⟩ => h ⟨hl, hp, CmdId.ofCode_some hc⟩
    next => rfl
  case step =>
    rw [step_eq hv, fetch_resting hs hr hq, fetchRequest_refused q ha]

/-! ### The operations in their outcomes -/

/-- Settles O27: `OPEN` raises, or is `START` of the forced `RESET` in the opening session. -/
theorem openAcquiresAndStartsReset : Obligations.OpenAcquiresAndStartsReset := by
  intro s hl hr
  have hopen (a : OpenAnswer) : exec (.openSession a) s = .next (openWith a s) :=
    exec_open a ((accepts_open_iff s).mpr ⟨hl, hr⟩)
  refine ⟨fun e => ?acquire, ?written, fun e => ?write⟩
  case acquire =>
    rw [hopen, openWith, raise]
    simp only [hl]
    rfl
  case written =>
    rw [hopen]
    rfl
  case write =>
    rw [hopen, openWith, startCommand_fail, raise]
    simp only [beginCommand, if_true, hl]
    rfl

/-- Settles O28: `CLOSE` writes `life`, which is `Closed` already in the second case. -/
theorem closeWritesOnlyLife : Obligations.CloseWritesOnlyLife := by
  intro s hr
  refine ⟨fun hl => exec_close ((accepts_close_iff s).mpr ⟨.inl hl, hr⟩), fun hl => ?_⟩
  rw [exec_close ((accepts_close_iff s).mpr ⟨.inr hl, hr⟩), ← hl]

theorem exec_start_of {c : CmdId} {s : State} (t : TxAnswer) (hr : s.phase.resting = true)
    (hl : s.life = .opened ∨ s.life = .opening ∧ c = .reset) :
    exec (.start c t) s = .next (startCommand c t s) := by
  refine if_pos ?_
  simp only [Bool.or_eq_true, accepts_execute_iff, Bool.and_eq_true, beq_iff_eq]
  obtain hl | ⟨hl, hc⟩ := hl
  · exact .inl ⟨hl, hr⟩
  · exact .inr ⟨⟨hl, hr⟩, hc⟩

/-- Settles O29: the writes of `START`, then the phase of its answer or `raise`. -/
theorem startLatchesClearsAndWrites : Obligations.StartLatchesClearsAndWrites := by
  intro c s hr hl
  refine ⟨?_, fun e => ?_⟩
  · rw [exec_start_of .ok hr hl, startCommand_ok]
    simp only [beginCommand, build_eq]
  · rw [exec_start_of (.fail e) hr hl, startCommand_fail, raise]
    simp only [beginCommand, build_eq]

/-- Settles O30: the one test of the step is its phase. -/
theorem settleOnlyEntersReceiving : Obligations.SettleOnlyEntersReceiving :=
  fun _ => ⟨exec_settle, fun hp => if_neg hp⟩

/-! ### Reset -/

/-- Settles O5: the values are those of the reset state, and in it only `OPEN` and `CLOSE` are accepted. -/
theorem resetStateAndWhatItAccepts : Obligations.ResetStateAndWhatItAccepts := by
  refine ⟨rfl, rfl, rfl, rfl, rfl, rfl, rfl, rfl, rfl, rfl, rfl, rfl, freshBuffer_isSome 0 _, fun r => ?_, rfl⟩
  cases r <;> simp [State.accepts, State.reset, Phase.resting]

/-- Settles O6: the sequencer takes the event from the slot, and it writes every register. -/
theorem resetEventInAnyState : Obligations.ResetEventInAnyState := by
  intro s hv hs
  rw [step_eq hv]
  simp only [fetch, hs, fetchPresented]
  rfl

/-! ### The sequencer's choice -/

/-- Settles O47: in both cases the sequencer waits. -/
theorem waitingChangesNothing : Obligations.WaitingChangesNothing := by
  intro s hv hs h
  have hwait : fetch s = .wait := by
    obtain ⟨hp, hq⟩ | ⟨hr, hq⟩ := h
    · simp only [fetch, hs, hp, hq]
    · cases hp : s.phase <;> simp only [hp, Phase.resting, Bool.false_eq_true] at hr <;>
        simp only [fetch, hs, hp, hq]
  rw [step_eq hv, hwait]

/-- In `Sent` the step is `SETTLE`. -/
theorem step_sent {s : State} (hv : s.cfg.valid = true) (hs : s.slot = none) (hp : s.phase = .sent) :
    step s = exec .settle s := by
  rw [step_eq hv]
  simp only [fetch, hs, hp]

/-- An accepted `EXECUTE` whose write is answered begins with `START` (rule R98). -/
theorem step_execute {s : State} {c : CmdId} {q : List Request} {t : TxAnswer} {ts : List TxAnswer}
    (hv : s.cfg.valid = true) (hs : s.slot = none) (ha : s.accepts (.execute c.code) = true)
    (hq : s.hostq = .execute c.code :: q) (ht : s.txq = t :: ts) :
    step s = exec (.start c t) { s with hostq := q, txq := ts } := by
  obtain ⟨_, hr⟩ := (accepts_execute_iff c s).mp ha
  rw [step_eq hv, fetch_resting hs hr hq, fetchRequest, if_pos ha]
  simp only [CmdId.ofCode_code, ht]

/-- Settles O46: what is in the slot comes first; else the phase selects, and a request is taken with its answers. -/
theorem stepRunsTheSelectedInstruction : Obligations.StepRunsTheSelectedInstruction := by
  intro s hv
  refine ⟨fun f bs i hs hd => ?wire, fun i hs => ?op, fun hs => ⟨step_sent hv hs,
    fun a as hp hq => step_receiving hv hs hp hq, fun c q t ts hr hl hq ht =>
      step_execute hv hs ((accepts_execute_iff c s).mpr ⟨hl, hr⟩) hq ht,
    fun q e as hr hl hq ha => ?acquire, fun q as t ts hr hl hq ha ht => ?opens, fun q hr hl hq => ?close⟩⟩
  case wire =>
    rw [step_eq hv]
    simp only [fetch, hs, fetchPresented, hd]
  case op =>
    rw [step_eq hv]
    simp only [fetch, hs, fetchPresented]
  case acquire =>
    rw [step_eq hv, fetch_resting hs hr hq, fetchRequest, if_pos ((accepts_open_iff s).mpr ⟨hl, hr⟩)]
    simp only [ha]
  case opens =>
    rw [step_eq hv, fetch_resting hs hr hq, fetchRequest, if_pos ((accepts_open_iff s).mpr ⟨hl, hr⟩)]
    simp only [ha, ht]
  case close =>
    have hlife : s.life = .opened ∨ s.life = .closed := by
      cases h : s.life with
      | opening => exact absurd h hl
      | opened => exact .inl rfl
      | closed => exact .inr rfl
    rw [step_eq hv, fetch_resting hs hr hq, fetchRequest, if_pos ((accepts_close_iff s).mpr ⟨hlife, hr⟩)]

end Sys2Proof.Machine
end

section
/-! PROOFS. What a step of the block itself writes (nothing is presented from outside): the transitions of `phase` and
`life`, the frame of a fault, the cache registers, and the traffic at the ports. Each is read off the own steps. -/

namespace Sys2Proof.Machine

/-! ### The end of a transaction -/

/-- `FINISH` completes with `Ok`, or faults with a kind (rules R16, R100). -/
theorem finishFrame_outcome (m : List Byte) (s : State) :
    (finishFrame m s).phase = .completed ∧ (finishFrame m s).status = .ok ∨
    (finishFrame m s).phase = .faulted ∧ ∃ k, (finishFrame m s).status = .err k := by
  obtain ⟨k, h⟩ | ⟨cls, p, _, _, h⟩ := finishFrame_cases m s
  · rw [h]
    exact .inr ⟨rfl, k, rfl⟩
  · rw [h]
    exact .inl ⟨rfl, rfl⟩

@[simp] theorem finishFrame_written (m : List Byte) (s : State) : (finishFrame m s).written = s.written := by
  obtain ⟨k, h⟩ | ⟨cls, p, _, _, h⟩ := finishFrame_cases m s
  · rw [h, raise_written]
  · rw [h, commit_written]

/-- `START` in its two outcomes. -/
theorem startCommand_phase (c : CmdId) (u : TxAnswer) (s : State) :
    u = .ok ∧ (startCommand c u s).phase = .sent ∨ (∃ e, u = .fail e) ∧ (startCommand c u s).phase = .faulted := by
  cases u with
  | ok => exact .inl ⟨rfl, rfl⟩
  | fail e => exact .inr ⟨⟨e, rfl⟩, rfl⟩

/-! ### The obligations on the own steps -/

/-- Settles O51: the own steps are the rows of the phase table. -/
theorem phaseTransitionsAreTheTable : Obligations.PhaseTransitionsAreTheTable := by
  intro s s' hs hx
  cases step_own hs hx with
  | waits => exact .inl rfl
  | settles hp => exact .inr (.inr (.inr (.inr (.inl ⟨hp, rfl⟩))))
  | starts id c u us q hr hl hq hc ht =>
    refine .inr (.inl ⟨hr, hl, ⟨id, q, hq⟩, ?_⟩)
    obtain ⟨rfl, hp⟩ | ⟨⟨e, rfl⟩, hp⟩ := startCommand_phase c u { s with hostq := q, txq := us }
    · exact .inl ⟨⟨us, ht⟩, hp⟩
    · exact .inr ⟨⟨e, us, ht⟩, hp⟩
  | acquireFails e as q hr hl hq ha =>
    exact .inr (.inr (.inl ⟨hr, hl, ⟨q, hq⟩, .inl ⟨⟨e, as, ha⟩, rfl⟩⟩))
  | opens as u us q hr hl hq ha ht =>
    refine .inr (.inr (.inl ⟨hr, hl, ⟨q, hq⟩, .inr ?_⟩))
    cases u with
    | ok => exact .inl ⟨⟨as, us, ha, ht⟩, rfl⟩
    | fail e => exact .inr ⟨⟨as, e, us, ha, ht⟩, rfl⟩
  | closes q hr hl hq => exact .inr (.inr (.inr (.inl ⟨hr, ⟨q, hq⟩, rfl⟩)))
  | receives a as _ hp hq hrx =>
    refine .inr (.inr (.inr (.inr (.inr ⟨hp, ?_⟩))))
    obtain ⟨_, ⟨e, rfl, rfl⟩ | ⟨b, rfl, hl, ⟨rfl, m, _, _, rfl⟩ | ⟨hb, hfull, rfl⟩ | ⟨hb, hroom, rfl⟩⟩⟩ :=
      rxStep_cases hrx
    · exact .inr (.inr (.inr ⟨⟨e, as, hq⟩, rfl⟩))
    · exact .inr (.inr (.inl ⟨⟨as, hq⟩, finishFrame_outcome m _⟩))
    · exact .inr (.inl ⟨⟨b, as, hq, hb, hfull⟩, rfl⟩)
    · exact .inl ⟨⟨b, as, hq, hb, lt_of_le_of_ne hl hroom⟩, hp⟩

/-- The end of a transaction moves `life` only where it was `Opening` (rules R103, R121). -/
theorem finishFrame_life (m : List Byte) (s : State) :
    (finishFrame m s).life = s.life ∨
    s.life = .opening ∧ (finishFrame m s).life = .opened ∧ (finishFrame m s).phase = .completed ∨
    s.life = .opening ∧ (finishFrame m s).life = .closed ∧ (finishFrame m s).phase = .faulted := by
  obtain ⟨k, h⟩ | ⟨cls, p, _, _, h⟩ := finishFrame_cases m s <;> rw [h] <;> by_cases ho : s.life = .opening
  · exact .inr (.inr ⟨ho, if_pos ho, rfl⟩)
  · exact .inl (if_neg ho)
  · exact .inr (.inl ⟨ho, if_pos ho, rfl⟩)
  · exact .inl (if_neg ho)

theorem raise_life_cases (k : ErrKind) (s : State) :
    (raise k s).life = s.life ∨ s.life = .opening ∧ (raise k s).life = .closed := by
  by_cases ho : s.life = .opening
  · exact .inr ⟨ho, if_pos ho⟩
  · exact .inl (if_neg ho)

/-- `RX` moves `life` only where it was `Opening`, at the end of the forced `RESET`. -/
theorem rxStep_life {a : RxAnswer} {s s' : State} (h : rxStep a s = .next s') :
    s'.life = s.life ∨ s.life = .opening ∧ s'.life = .opened ∧ s'.phase = .completed ∨
    s.life = .opening ∧ s'.life = .closed ∧ s'.phase = .faulted := by
  obtain ⟨_, ⟨e, rfl, rfl⟩ | ⟨b, rfl, hl, ⟨rfl, m, _, _, rfl⟩ | ⟨hb, hfull, rfl⟩ | ⟨hb, hroom, rfl⟩⟩⟩ := rxStep_cases h
  · obtain h | ⟨ho, h⟩ := raise_life_cases (.transportError e) s
    · exact .inl h
    · exact .inr (.inr ⟨ho, h, rfl⟩)
  · exact finishFrame_life m (storeByte sentinel s)
  · obtain h | ⟨ho, h⟩ := raise_life_cases .framingError (storeByte b s)
    · exact .inl h
    · exact .inr (.inr ⟨ho, h, rfl⟩)
  · exact .inl rfl

/-- Settles O52: `OPEN` opens, `RX` ends the opening, `CLOSE` closes, and no other own step moves `life`. -/
theorem lifeTransitionsAreTheLegalOnes : Obligations.LifeTransitionsAreTheLegalOnes := by
  intro s s' hs hx
  cases step_own hs hx with
  | waits => exact .inl rfl
  | settles => exact .inl rfl
  | starts id c u us q hr hl =>
    cases u with
    | ok => exact .inl rfl
    | fail e => exact .inl (if_neg (by rw [beginCommand_life, hl]; nofun))
  | acquireFails e as q hr hl => exact .inl (if_neg (by rw [hl]; nofun))
  | opens as u us q hr hl hq =>
    cases u with
    | ok => exact .inr (.inl ⟨hl, rfl, ⟨q, hq⟩, rfl⟩)
    | fail e => exact .inl hl.symm
  | closes q hr hl hq =>
    obtain hl | hl := hl
    · exact .inr (.inr (.inr (.inr ⟨hl, rfl, ⟨q, hq⟩⟩)))
    · exact .inl hl.symm
  | receives a as _ hp hq hrx =>
    obtain h | h | h := rxStep_life hrx
    · exact .inl h
    · exact .inr (.inr (.inl h))
    · exact .inr (.inr (.inr (.inl h)))

/-- What a fault of `RX` writes (rules R91, R121): the registers of `raise` and, where it consumed a byte, the byte. -/
theorem rxStep_faulted {a : RxAnswer} {s s' : State} (h : rxStep a s = .next s') (hp : s'.phase = .faulted) :
    ∃ k, (∃ b, a = .byte b ∧ s' = raise k (storeByte b s)) ∨
      (∃ e, a = .fail e ∧ k = .transportError e ∧ s' = raise k s) := by
  obtain ⟨hrec, ⟨e, rfl, rfl⟩ | ⟨b, rfl, hl, ⟨rfl, m, _, _, rfl⟩ | ⟨hb, hfull, rfl⟩ | ⟨hb, hroom, rfl⟩⟩⟩ :=
    rxStep_cases h
  · exact ⟨_, .inr ⟨e, rfl, rfl, rfl⟩⟩
  · obtain ⟨k, hk⟩ | ⟨cls, p, _, _, hk⟩ := finishFrame_cases m (storeByte sentinel s)
    · exact ⟨k, .inl ⟨sentinel, rfl, hk⟩⟩
    · rw [hk] at hp
      cases hp
  · exact ⟨_, .inl ⟨b, rfl, rfl⟩⟩
  · rw [storeByte_phase, hrec] at hp
    cases hp

/-- Settles O53: in `Receiving` the step is `RX` of the next answer, and a fault of it is `raise`, after the store where
a byte was consumed. -/
theorem aFaultWhileReceivingWritesNothingElse : Obligations.AFaultWhileReceivingWritesNothingElse := by
  intro s s' hs hp hx hfault
  cases step_own hs hx with
  | waits => rw [hp] at hfault; cases hfault
  | settles h => rw [hp] at h; cases h
  | starts _ _ _ _ _ h => rw [hp] at h; cases h
  | acquireFails _ _ _ h => rw [hp] at h; cases h
  | opens _ _ _ _ h => rw [hp] at h; cases h
  | closes _ h => rw [hp] at h; cases h
  | receives a as _ _ hq hrx =>
    obtain ⟨k, ⟨b, rfl, rfl⟩ | ⟨e, rfl, hk, rfl⟩⟩ := rxStep_faulted hrx hfault
    · exact ⟨k, .byte b, hq, rfl, fun o ho => Memory.read_write_other _ b ho,
        .inl ⟨b, rfl, Memory.read_write_same .., rfl⟩⟩
    · exact ⟨k, .fail e, hq, rfl, fun o _ => rfl, .inr ⟨e, rfl, hk, rfl, rfl⟩⟩

/-- The three cache registers are the same in two states. -/
def SameCache (s t : State) : Prop := t.cFocus = s.cFocus ∧ t.cWb = s.cWb ∧ t.cAe = s.cAe

/-- `RX` writes a cache register only by a commit (rule R106). -/
theorem rxStep_cache {a : RxAnswer} {s s' : State} (h : rxStep a s = .next s') :
    SameCache s s' ∨ ∃ cls p b, s' = commit cls p (storeByte b s) := by
  obtain ⟨_, ⟨e, rfl, rfl⟩ | ⟨b, rfl, hl, ⟨rfl, m, _, _, rfl⟩ | ⟨hb, hfull, rfl⟩ | ⟨hb, hroom, rfl⟩⟩⟩ := rxStep_cases h
  · exact .inl ⟨rfl, rfl, rfl⟩
  · obtain ⟨k, hk⟩ | ⟨cls, p, _, _, hk⟩ := finishFrame_cases m (storeByte sentinel s)
    · rw [hk]
      exact .inl ⟨rfl, rfl, rfl⟩
    · exact .inr ⟨cls, p, sentinel, hk⟩
  · exact .inl ⟨rfl, rfl, rfl⟩
  · exact .inl ⟨rfl, rfl, rfl⟩

/-- A commit writes the cache register of its own inquiry, and writes it with the mode (rules R20, R106). -/
theorem commit_cache_own (cls : EnvClass) (p : Payload) (s : State) :
    ((commit cls p s).cFocus ≠ s.cFocus → s.cmd = .inqFocusMode ∧ (commit cls p s).cFocus = (commit cls p s).mode) ∧
    ((commit cls p s).cWb ≠ s.cWb → s.cmd = .inqWbMode ∧ (commit cls p s).cWb = (commit cls p s).mode) ∧
    ((commit cls p s).cAe ≠ s.cAe → s.cmd = .inqAeMode ∧ (commit cls p s).cAe = (commit cls p s).mode) := by
  simp only [commit_cFocus, commit_cWb, commit_cAe, commit_mode]
  refine ⟨fun h => ?_, fun h => ?_, fun h => ?_⟩ <;> split at h
  · exact ⟨‹_›, if_pos ‹_›⟩
  · exact absurd rfl h
  · exact ⟨‹_›, if_pos ‹_›⟩
  · exact absurd rfl h
  · exact ⟨‹_›, if_pos ‹_›⟩
  · exact absurd rfl h

/-- `START` leaves the cache alone. -/
theorem startCommand_cache (c : CmdId) (u : TxAnswer) (s : State) : SameCache s (startCommand c u s) := by
  cases u with
  | ok => exact ⟨rfl, rfl, rfl⟩
  | fail e => exact ⟨rfl, rfl, rfl⟩

/-- Settles O54: of the own steps only a commit and an acquiring `OPEN` write a cache register. -/
theorem cacheIsWrittenByItsOwnInquiryOnly : Obligations.CacheIsWrittenByItsOwnInquiryOnly := by
  intro s s' hs hx byOpen
  cases step_own hs hx with
  | waits => exact ⟨absurd rfl, absurd rfl, absurd rfl⟩
  | settles => exact ⟨absurd rfl, absurd rfl, absurd rfl⟩
  | acquireFails => exact ⟨absurd rfl, absurd rfl, absurd rfl⟩
  | closes => exact ⟨absurd rfl, absurd rfl, absurd rfl⟩
  | starts id c u us q =>
    obtain ⟨hfocus, hwb, hae⟩ := startCommand_cache c u { s with hostq := q, txq := us }
    exact ⟨absurd hfocus, absurd hwb, absurd hae⟩
  | opens as u us q hr hl hq ha ht =>
    have hopen : byOpen := ⟨hr, q, as, hq, ha⟩
    obtain ⟨hfocus, hwb, hae⟩ := startCommand_cache .reset u { s with
      hostq := q, acqq := as, txq := us, life := .opening, cFocus := .unknown, cWb := .unknown, cAe := .unknown }
    exact ⟨fun _ => .inr ⟨hopen, hfocus⟩, fun _ => .inr ⟨hopen, hwb⟩, fun _ => .inr ⟨hopen, hae⟩⟩
  | receives a as _ hp hq hrx =>
    obtain ⟨hfocus, hwb, hae⟩ | ⟨cls, p, b, rfl⟩ := rxStep_cache hrx
    · exact ⟨absurd hfocus, absurd hwb, absurd hae⟩
    · obtain ⟨hfocus, hwb, hae⟩ := commit_cache_own cls p (storeByte b { s with rxq := as })
      refine ⟨fun h => ?_, fun h => ?_, fun h => ?_⟩
      · obtain ⟨hc, hm⟩ := hfocus h
        exact .inl ⟨hc, rfl, hm⟩
      · obtain ⟨hc, hm⟩ := hwb h
        exact .inl ⟨hc, rfl, hm⟩
      · obtain ⟨hc, hm⟩ := hae h
        exact .inl ⟨hc, rfl, hm⟩

/-- `RX` takes no further answer and presents nothing on the write port. -/
theorem rxStep_ports {a : RxAnswer} {s s' : State} (h : rxStep a s = .next s') :
    s'.rxq = s.rxq ∧ s'.written = s.written := by
  obtain ⟨_, ⟨e, rfl, rfl⟩ | ⟨b, rfl, hl, ⟨rfl, m, _, _, rfl⟩ | ⟨hb, hfull, rfl⟩ | ⟨hb, hroom, rfl⟩⟩⟩ := rxStep_cases h
  · exact ⟨rfl, rfl⟩
  · exact ⟨finishFrame_rxq m _, finishFrame_written m _⟩
  · exact ⟨rfl, rfl⟩
  · exact ⟨rfl, rfl⟩

/-- `START` presents the template of the command it latches, and reads nothing (rule R98). -/
theorem startCommand_ports (c : CmdId) (u : TxAnswer) (s : State) :
    (startCommand c u s).rxq = s.rxq ∧
    (startCommand c u s).written = s.written ++ [template s.cfg (startCommand c u s).cmd] := by
  cases u with
  | ok => exact ⟨rfl, beginCommand_written c s⟩
  | fail e => exact ⟨rfl, beginCommand_written c s⟩

/-- Settles O55: `RX` is the own step that reads, `START` and an acquiring `OPEN` the ones that write. -/
theorem oneAnswerReadAndOneMessageWritten : Obligations.OneAnswerReadAndOneMessageWritten := by
  intro s s' hs hx
  cases step_own hs hx with
  | waits => exact ⟨.inl rfl, .inl rfl⟩
  | settles => exact ⟨.inl rfl, .inl rfl⟩
  | acquireFails => exact ⟨.inl rfl, .inl rfl⟩
  | closes => exact ⟨.inl rfl, .inl rfl⟩
  | starts id c u us q hr =>
    obtain ⟨hread, hwritten⟩ := startCommand_ports c u { s with hostq := q, txq := us }
    exact ⟨.inl hread, .inr ⟨hr, hwritten⟩⟩
  | opens as u us q hr =>
    obtain ⟨hread, hwritten⟩ := startCommand_ports .reset u { s with
      hostq := q, acqq := as, txq := us, life := .opening, cFocus := .unknown, cWb := .unknown, cAe := .unknown }
    exact ⟨.inl hread, .inr ⟨hr, hwritten⟩⟩
  | receives a as _ hp hq hrx =>
    obtain ⟨hread, hwritten⟩ := rxStep_ports hrx
    exact ⟨.inr ⟨hp, a, by rw [hread]; exact hq⟩, .inl hwritten⟩

end Sys2Proof.Machine
end

section
/-! PROOFS. Whole transactions (44_session.md, rules R96 to R106): what a command does with a reply that is a message,
with one that is none, and where the transport stops answering; and the transaction as the run of its steps. -/

namespace Sys2Proof.Machine

/-! ### The stored reply -/

/-- Storing bytes lays them out in the buffer from `len` on. -/
theorem storeAll_buf (x : List Byte) (s : State) : (storeAll x s).buf = s.buf.writeBytes s.len x := by
  induction x generalizing s with
  | nil => rfl
  | cons b x ih => exact ih (storeByte b s)

section
variable (c : CmdId) (q : List TxAnswer) (m : List Byte) (rest : List RxAnswer) (s : State)

theorem replyStored_buf : (replyStored c q m rest s).buf = s.buf.writeBytes 0 m := by
  show (storeAll m (awaitingReply c q s)).buf = _
  rw [storeAll_buf, awaitingReply_eq]

/-- The buffer with the reply in it, in the terms of the statements. -/
theorem writeBytes_readRange (m : List Byte) (s : State) :
    (s.buf.writeBytes 0 m).readRange 0 m.length = some m :=
  replyStored_buf .reset [] m [] s ▸ replyStored_readRange .reset [] m [] s

theorem writeBytes_read (m : List Byte) (s : State) {o : Nat} (h : m.length ≤ o) :
    (s.buf.writeBytes 0 m).read o = s.buf.read o :=
  replyStored_buf .reset [] m [] s ▸ replyStored_read .reset [] m [] s h

theorem replyStored_eq_writeBytes :
    replyStored c q m rest s = { s with
      txq := q, rxq := rest, written := s.written ++ [template s.cfg c], cmd := c
      buf := s.buf.writeBytes 0 m, len := m.length, phase := .receiving, status := .none
      rclass := .noClass, val0 := 0, val1 := 0, mode := .unknown } :=
  replyStored_buf c q m rest s ▸ replyStored_eq c q m rest s

/-- A fault of the transaction in an open session (rule R121). -/
theorem raise_replyStored (k : ErrKind) (h : s.life = .opened) :
    raise k (replyStored c q m rest s) = { s with
      txq := q, rxq := rest, written := s.written ++ [template s.cfg c], cmd := c
      buf := s.buf.writeBytes 0 m, len := m.length, phase := .faulted, status := .err k
      rclass := .noClass, val0 := 0, val1 := 0, mode := .unknown } := by
  rw [replyStored_eq_writeBytes, raise]
  simp only [h]
  rfl

/-- A commit of the transaction in an open session (rules R100, R106). -/
theorem commit_replyStored (cls : EnvClass) (p : Payload) (h : s.life = .opened) :
    commit cls p (replyStored c q m rest s) = { s with
      txq := q, rxq := rest, written := s.written ++ [template s.cfg c], cmd := c
      buf := s.buf.writeBytes 0 m, len := m.length, phase := .completed, status := .ok
      rclass := RClass.ofEnv cls
      val0 := p.val0.getD 0, val1 := p.val1.getD 0, mode := p.mode.getD .unknown
      cFocus := if c = .inqFocusMode then p.mode.getD .unknown else s.cFocus
      cWb := if c = .inqWbMode then p.mode.getD .unknown else s.cWb
      cAe := if c = .inqAeMode then p.mode.getD .unknown else s.cAe } := by
  rw [replyStored_eq_writeBytes, commit]
  simp only [h]
  rfl

end

/-! ### A reply that is a message -/

/-- The request of a command is accepted, its write is answered, and the transport holds the message `pre ++ [0xFF]`,
which fits, and then `rest`. -/
structure ReplyArrives (s : State) (q : List TxAnswer) (pre : List Byte) (rest : List RxAnswer) : Prop where
  opened : s.life = .opened
  resting : s.phase.resting = true
  answered : s.txq = .ok :: q
  bytes : ∀ b ∈ pre, b ≠ sentinel
  fits : pre.length < s.cfg.maxMsgLen
  arrives : s.rxq = (pre ++ [sentinel]).map .byte ++ rest

namespace ReplyArrives

variable {s : State} {q : List TxAnswer} {a e : Byte} {x pre : List Byte} {rest : List RxAnswer}

theorem exec_command_eq (h : ReplyArrives s q pre rest) (c : CmdId) :
    exec c.instr s = .next (finishFrame (pre ++ [sentinel]) (replyStored c q (pre ++ [sentinel]) rest s)) := by
  rw [exec_command]
  exact transact_message ((accepts_execute_iff c s).mpr ⟨h.opened, h.resting⟩) h.answered h.bytes h.fits h.arrives

/-- The buffer holds the message, and past it what it held. -/
theorem readRange (pre : List Byte) (s : State) :
    (s.buf.writeBytes 0 (pre ++ [sentinel])).readRange 0 (pre.length + 1) = some (pre ++ [sentinel]) := by
  have h := writeBytes_readRange (pre ++ [sentinel]) s
  rwa [List.length_append] at h

theorem read (pre : List Byte) (s : State) (o : Nat) (ho : pre.length + 1 ≤ o) :
    (s.buf.writeBytes 0 (pre ++ [sentinel])).read o = s.buf.read o :=
  writeBytes_read _ s (by rwa [List.length_append])

theorem length_frame (a e : Byte) (x : List Byte) : (a :: e :: x ++ [sentinel]).length = x.length + 3 := by simp

/-- A reply that is not an error is decoded by the recipe of the command (rules R69, R100). -/
theorem exec_reply_eq (h : ReplyArrives s q (a :: e :: x) rest) (he : classifyEnvelope e ≠ .error) (c : CmdId) :
    exec c.instr s = .next (finishReply (classifyEnvelope e) (a :: e :: x ++ [sentinel])
      (replyStored c q (a :: e :: x ++ [sentinel]) rest s)) := by
  have hlength : 3 ≤ (a :: e :: x ++ [sentinel]).length := by
    rw [length_frame]
    omega
  have henv : classifyEnvelope ((a :: e :: x ++ [sentinel]).getD 1 0) = classifyEnvelope e := rfl
  rw [h.exec_command_eq, finishFrame_reply hlength he henv]

/-- The recipe of the transaction is that of its command, in its configuration. -/
theorem decodeReply_replyStored (c : CmdId) (q : List TxAnswer) (m : List Byte) (rest : List RxAnswer) (s : State)
    (v : View) :
    decodeReply (replyStored c q m rest s).cfg (replyStored c q m rest s).cmd v = decodeReply s.cfg c v := by
  rw [replyStored_eq_writeBytes]

/-- A reply that is not an error and that the recipe decodes is committed. -/
theorem exec_commits (h : ReplyArrives s q (a :: e :: x) rest) {cls : RClass}
    (hcls : e.toNat / 16 = 4 ∧ cls = .ack ∨ e.toNat / 16 = 5 ∧ cls = .completion) {c : CmdId} {p : Payload}
    (hdec : decodeReply s.cfg c (.framed (a :: e :: x ++ [sentinel])) = .ok p) :
    exec c.instr s = .next { s with
      txq := q, rxq := rest, written := s.written ++ [template s.cfg c], cmd := c
      buf := s.buf.writeBytes 0 (a :: e :: x ++ [sentinel]), len := x.length + 3
      phase := .completed, status := .ok, rclass := cls
      val0 := p.val0.getD 0, val1 := p.val1.getD 0, mode := p.mode.getD .unknown
      cFocus := if c = .inqFocusMode then p.mode.getD .unknown else s.cFocus
      cWb := if c = .inqWbMode then p.mode.getD .unknown else s.cWb
      cAe := if c = .inqAeMode then p.mode.getD .unknown else s.cAe } := by
  obtain ⟨hne, rfl⟩ := classifyEnvelope_of_success_nibble hcls
  rw [← decodeReply_replyStored c q (a :: e :: x ++ [sentinel]) rest s] at hdec
  rw [h.exec_reply_eq hne, finishReply_ok hdec, commit_replyStored _ _ _ _ _ _ _ h.opened, length_frame]

/-- A reply that is not an error and on which the recipe raises. -/
theorem exec_recipe_faults (h : ReplyArrives s q (a :: e :: x) rest) {cls : RClass}
    (hcls : e.toNat / 16 = 4 ∧ cls = .ack ∨ e.toNat / 16 = 5 ∧ cls = .completion) {c : CmdId} {k : ErrKind}
    (hdec : decodeReply s.cfg c (.framed (a :: e :: x ++ [sentinel])) = .error k) :
    exec c.instr s = .next { s with
      txq := q, rxq := rest, written := s.written ++ [template s.cfg c], cmd := c
      buf := s.buf.writeBytes 0 (a :: e :: x ++ [sentinel]), len := x.length + 3
      phase := .faulted, status := .err k, rclass := .noClass, val0 := 0, val1 := 0, mode := .unknown } := by
  obtain ⟨hne, rfl⟩ := classifyEnvelope_of_success_nibble hcls
  rw [← decodeReply_replyStored c q (a :: e :: x ++ [sentinel]) rest s] at hdec
  rw [h.exec_reply_eq hne, finishReply_fault hdec, raise_replyStored _ _ _ _ _ _ h.opened, length_frame]

/-- An error reply with a detail byte raises its kind (rules R84, R85). -/
theorem exec_error_faults {d : Byte} (h : ReplyArrives s q (a :: e :: d :: x) rest) (h4 : e.toNat / 16 ≠ 4)
    (h5 : e.toNat / 16 ≠ 5) (c : CmdId) :
    exec c.instr s = .next { s with
      txq := q, rxq := rest, written := s.written ++ [template s.cfg c], cmd := c
      buf := s.buf.writeBytes 0 (a :: e :: d :: x ++ [sentinel]), len := x.length + 4
      phase := .faulted, status := .err (classifyError d), rclass := .noClass
      val0 := 0, val1 := 0, mode := .unknown } := by
  have hlength : (a :: e :: d :: x ++ [sentinel]).length = x.length + 4 := length_frame a e (d :: x)
  have herr : classifyEnvelope ((a :: e :: d :: x ++ [sentinel]).getD 1 0) = .error :=
    classifyEnvelope_of_error_nibble h4 h5
  rw [h.exec_command_eq, finishFrame_error (by rw [hlength]; omega) herr,
    finishError_detail (by rw [hlength]; omega) rfl, raise_replyStored _ _ _ _ _ _ h.opened, hlength]

end ReplyArrives

/-! ### The obligations on replies that are messages -/

/-- Settles O37: an action decodes nothing. -/
theorem actionTransactionsSucceed : Obligations.ActionTransactionsSucceed := by
  intro s q a e x rest cls hlife hrest ht hb hfit hr hcls i c m hrow
  have h : ReplyArrives s q (a :: e :: x) rest := ⟨hlife, hrest, ht, hb, hfit, hr⟩
  refine ⟨_, ?_, ReplyArrives.readRange (a :: e :: x) s, ReplyArrives.read (a :: e :: x) s⟩
  simp only [List.mem_cons, Prod.mk.injEq, List.not_mem_nil, or_false] at hrow
  obtain ⟨rfl, rfl, rfl⟩ | ⟨rfl, rfl, rfl⟩ := hrow
  · exact h.exec_commits hcls (decodeReply_action _ (.inl rfl))
  · exact h.exec_commits hcls (decodeReply_action _ (.inr rfl))

/-- Settles O38: the word at offset 2. -/
theorem wordInquiriesDeliverTheirPosition : Obligations.WordInquiriesDeliverTheirPosition := by
  intro s q a e b2 b3 b4 b5 x rest cls hlife hrest ht hb hfit hr hcls i c m hrow
  have h : ReplyArrives s q (a :: e :: b2 :: b3 :: b4 :: b5 :: x) rest := ⟨hlife, hrest, ht, hb, hfit, hr⟩
  have hdec {c : CmdId} (hc : c = .inqZoomPos ∨ c = .inqFocusPos) :=
    decodeReply_word_frame (cfg := s.cfg) a e b2 b3 b4 b5 sentinel x hc (wordOfNibbles_lo4 ..)
  refine ⟨_, ?_, ReplyArrives.readRange (a :: e :: b2 :: b3 :: b4 :: b5 :: x) s,
    ReplyArrives.read (a :: e :: b2 :: b3 :: b4 :: b5 :: x) s⟩
  simp only [List.mem_cons, Prod.mk.injEq, List.not_mem_nil, or_false] at hrow
  obtain ⟨rfl, rfl, rfl⟩ | ⟨rfl, rfl, rfl⟩ := hrow
  · exact h.exec_commits hcls (hdec (.inl rfl))
  · exact h.exec_commits hcls (hdec (.inr rfl))

/-- Settles O39: both words where the second is in bounds, else neither. -/
theorem panTiltDeliversBothOrNeither : Obligations.PanTiltDeliversBothOrNeither := by
  intro s q a e b2 b3 b4 b5 x rest cls hlife hrest ht hb hfit hr hcls
  have h : ReplyArrives s q (a :: e :: b2 :: b3 :: b4 :: b5 :: x) rest := ⟨hlife, hrest, ht, hb, hfit, hr⟩
  refine ⟨_, ReplyArrives.readRange (a :: e :: b2 :: b3 :: b4 :: b5 :: x) s,
    ReplyArrives.read (a :: e :: b2 :: b3 :: b4 :: b5 :: x) s, fun b6 b7 b8 b9 y hx => ?both, fun hx => ?neither⟩
  case both =>
    subst hx
    refine h.exec_commits (c := .inqPanTiltPos) hcls (p := { val0 := some _, val1 := some _ }) ?_
    rw [decodeReply_panTilt_ok s.cfg (decodeWord_frame ..) (decodeWord_frame_second ..), wordOfNibbles_lo4,
      wordOfNibbles_lo4]
  case neither =>
    refine h.exec_recipe_faults (c := .inqPanTiltPos) hcls (decodeReply_panTilt_short s.cfg (View.framed_limit_lt ?_))
    rw [ReplyArrives.length_frame]
    show x.length + 4 + 3 < 11
    omega

/-- Settles O40: the short at offset 4. -/
theorem shortInquiriesDeliverTheirPosition : Obligations.ShortInquiriesDeliverTheirPosition := by
  intro s q a e b2 b3 b4 b5 x rest cls hlife hrest ht hb hfit hr hcls i c m hrow
  have h : ReplyArrives s q (a :: e :: b2 :: b3 :: b4 :: b5 :: x) rest := ⟨hlife, hrest, ht, hb, hfit, hr⟩
  have hdec {c : CmdId} (hc : c = .inqShutterPos ∨ c = .inqIrisPos ∨ c = .inqGainPos ∨ c = .inqBrightPos) :=
    decodeReply_short_frame (cfg := s.cfg) a e b2 b3 b4 b5 sentinel x hc (shortOfBytes_eq_match ..)
  refine ⟨_, ?_, ReplyArrives.readRange (a :: e :: b2 :: b3 :: b4 :: b5 :: x) s,
    ReplyArrives.read (a :: e :: b2 :: b3 :: b4 :: b5 :: x) s⟩
  simp only [List.mem_cons, Prod.mk.injEq, List.not_mem_nil, or_false] at hrow
  obtain ⟨rfl, rfl, rfl⟩ | ⟨rfl, rfl, rfl⟩ | ⟨rfl, rfl, rfl⟩ | ⟨rfl, rfl, rfl⟩ := hrow
  · exact h.exec_commits hcls (hdec (.inl rfl))
  · exact h.exec_commits hcls (hdec (.inr (.inl rfl)))
  · exact h.exec_commits hcls (hdec (.inr (.inr (.inl rfl))))
  · exact h.exec_commits hcls (hdec (.inr (.inr (.inr rfl))))

/-- Settles O41: byte 2 is looked up in the table of the inquiry, whose keys are distinct. -/
theorem modeInquiriesDeliverTheirMode : Obligations.ModeInquiriesDeliverTheirMode := by
  intro s q a e b x rest cls hv hlife hrest ht hb hfit hr hcls
  have h : ReplyArrives s q (a :: e :: b :: x) rest := ⟨hlife, hrest, ht, hb, hfit, hr⟩
  have hbyte := decodeByte_frame a e b sentinel x
  refine ⟨_, ReplyArrives.readRange (a :: e :: b :: x) s, ReplyArrives.read (a :: e :: b :: x) s, ?_⟩
  intro done failed
  refine ⟨fun v hk => ?focusKey, fun hk => ?focusOther, fun v hk => ?wbKey, fun hk => ?wbOther, fun v hk => ?aeKey,
    fun hk => ?aeOther⟩
  case focusKey => exact h.exec_commits (c := .inqFocusMode) hcls (modeRecipe_key hbyte (focusEnum_key hk))
  case focusOther => exact h.exec_recipe_faults (c := .inqFocusMode) hcls (modeRecipe_other hbyte (focusEnum_other hk))
  case wbKey =>
    exact h.exec_commits (c := .inqWbMode) hcls (modeRecipe_key hbyte (wbEnum_key (Config.valid_wbKeys hv) hk))
  case wbOther => exact h.exec_recipe_faults (c := .inqWbMode) hcls (modeRecipe_other hbyte (wbEnum_other hk))
  case aeKey =>
    exact h.exec_commits (c := .inqAeMode) hcls (modeRecipe_key hbyte (aeEnum_key (Config.valid_aeKeys hv) hk))
  case aeOther => exact h.exec_recipe_faults (c := .inqAeMode) hcls (modeRecipe_other hbyte (aeEnum_other hk))

/-- Settles O42: the error classifier is consulted and the recipe is not run. -/
theorem errorRepliesFaultEveryCommand : Obligations.ErrorRepliesFaultEveryCommand := by
  intro c s q a e d x rest hlife hrest ht hb hfit hr h4 h5
  have h : ReplyArrives s q (a :: e :: d :: x) rest := ⟨hlife, hrest, ht, hb, hfit, hr⟩
  exact ⟨_, h.exec_error_faults h4 h5 c, ReplyArrives.readRange (a :: e :: d :: x) s,
    ReplyArrives.read (a :: e :: d :: x) s⟩

end Sys2Proof.Machine
end

section
/-! PROOFS. A transaction that is no message: the transport fails, the buffer fills, or an answer does not come (rules
R93, R94, R97, R98); and the transaction as the run of its steps (rule R96). -/

namespace Sys2Proof.Machine

/-! ### Replies that are no frame -/

/-- `receive` on bytes that fill the buffer with no sentinel (rule R93, decision D4). -/
theorem receive_overflow {pre : List Byte} {b : Byte} {rest : List RxAnswer} {s : State} (hp : s.phase = .receiving)
    (hb : ∀ y ∈ pre ++ [b], y ≠ sentinel) (hl : s.len + (pre.length + 1) = s.cfg.maxMsgLen) :
    receive ((pre ++ [b]).map .byte ++ rest) s =
      .next (raise .framingError { storeAll (pre ++ [b]) s with rxq := rest }) := by
  have hanswers : (pre ++ [b]).map RxAnswer.byte ++ rest = pre.map .byte ++ .byte b :: rest := by
    rw [List.map_append, List.append_assoc]
    rfl
  have hpre : ∀ y ∈ pre, y ≠ sentinel := fun y hy => hb y (List.mem_append_left _ hy)
  have hlast : b ≠ sentinel := hb b (List.mem_append_right _ (List.mem_singleton_self b))
  rw [hanswers, receive_bytes hp hpre (by omega), receive]
  have hphase : (storeAll pre s).phase = .receiving := by
    rw [storeAll_eq]
    exact hp
  have hfull : (storeAll pre s).len + 1 = (storeAll pre s).cfg.maxMsgLen := by
    rw [storeAll_eq]
    exact hl
  rw [rxStep_full (s := { storeAll pre s with rxq := rest }) hphase hfull hlast, storeAll_append]
  exact if_neg nofun

section
variable {c : CmdId} {s : State} {q : List TxAnswer}

/-- A transaction whose write is answered receives from the state `awaitingReply`. -/
theorem exec_command_receive (hl : s.life = .opened) (hr : s.phase.resting = true) (ht : s.txq = .ok :: q) :
    exec c.instr s = receive s.rxq (awaitingReply c q s) := by
  rw [exec_command]
  exact transact_ok ((accepts_execute_iff c s).mpr ⟨hl, hr⟩) ht

theorem awaitingReply_room {n : Nat} : (awaitingReply c q s).len + n = n := by
  rw [awaitingReply_eq]
  exact Nat.zero_add n

theorem awaitingReply_cfg : (awaitingReply c q s).cfg = s.cfg := by rw [awaitingReply_eq]

end

/-- Settles O43: `raise` in the state with the received bytes stored. -/
theorem repliesThatAreNoFrameFault : Obligations.RepliesThatAreNoFrameFault := by
  intro c s q pre rest hlife hrest ht hb faulted
  have hexec := exec_command_receive (c := c) hlife hrest ht
  refine ⟨fun e hfit hr => ⟨s.buf.writeBytes 0 pre, ?fails, writeBytes_readRange pre s, fun o => writeBytes_read pre s⟩,
    fun hne hfull hr => ⟨s.buf.writeBytes 0 pre, ?fills, writeBytes_readRange pre s, fun o => writeBytes_read pre s⟩⟩
  case fails =>
    rw [hexec, hr, receive_failure rfl hb (by rwa [awaitingReply_room, awaitingReply_cfg])]
    exact congrArg _ (raise_replyStored c q pre rest s _ hlife)
  case fills =>
    obtain ⟨init, b, rfl⟩ := (List.eq_nil_or_concat' pre).resolve_left hne
    have hroom : (awaitingReply c q s).len + (init.length + 1) = (awaitingReply c q s).cfg.maxMsgLen := by
      rw [awaitingReply_room, awaitingReply_cfg, ← hfull, List.length_append]
      rfl
    rw [hexec, hr, receive_overflow rfl hb hroom]
    exact congrArg _ (raise_replyStored c q (init ++ [b]) rest s _ hlife)

/-- Settles O44: each case of the answer to the write; with it, the bytes that come are stored. -/
theorem transactionStopsWhereTheTransportDoes : Obligations.TransactionStopsWhereTheTransportDoes := by
  intro c s hlife hrest
  have haccepts : s.accepts (.execute c.code) = true := (accepts_execute_iff c s).mpr ⟨hlife, hrest⟩
  refine ⟨by rw [exec_execute, exec_command], fun e q ht => ?refused, fun ht => ?unanswered,
    fun q pre ht hb hfit hr => ⟨s.buf.writeBytes 0 pre, ?waits, writeBytes_readRange pre s,
      fun o => writeBytes_read pre s⟩⟩
  case refused =>
    rw [exec_command, transact_fail haccepts ht, startCommand_fail, raise]
    simp only [beginCommand, build_eq, hlife]
    rfl
  case unanswered =>
    rw [exec_command]
    simp only [transact, haccepts, if_true, ht]
  case waits =>
    have hreceive := receive_bytes (rest := []) (s := awaitingReply c q s) rfl hb
      (by rwa [awaitingReply_room, awaitingReply_cfg])
    rw [List.append_nil] at hreceive
    rw [exec_command_receive hlife hrest ht, hr, hreceive]
    exact congrArg _ (replyStored_eq_writeBytes c q pre [] s)

/-! ### The transaction as the run of its steps -/

/-- Where `RX` stays in `Receiving` it has stored a byte. -/
theorem rxStep_receiving {a : RxAnswer} {s s' : State} (h : rxStep a s = .next s') (hp : s'.phase = .receiving) :
    ∃ b, s' = storeByte b s := by
  obtain ⟨_, ⟨e, rfl, rfl⟩ | ⟨b, rfl, hl, ⟨rfl, m, _, _, rfl⟩ | ⟨hb, hfull, rfl⟩ | ⟨hb, hroom, rfl⟩⟩⟩ := rxStep_cases h
  · cases hp
  · obtain h | h := finishFrame_phase m (storeByte sentinel s) <;> rw [h] at hp <;> cases hp
  · cases hp
  · exact ⟨b, rfl⟩

/-- In `Receiving` the steps of the machine come to what `receive` comes to, by induction on the transport's answers. -/
theorem run_eq_receive {as : List RxAnswer} {s : State} (hv : s.cfg.valid = true) (hs : s.slot = none)
    (hp : s.phase = .receiving) (hq : s.rxq = as) : ∃ k, core.run k s = receive as s := by
  induction as generalizing s with
  | nil =>
    refine ⟨0, ?_⟩
    rw [receive, ← hq]
    rfl
  | cons a as ih =>
    have hstep := step_receiving hv hs hp hq
    simp only [receive]
    split
    next t hrx =>
      rw [hrx] at hstep
      split
      next ht =>
        obtain ⟨b, rfl⟩ := rxStep_receiving hrx ht
        obtain ⟨k, hk⟩ := ih (s := storeByte b { s with rxq := as }) hv hs ht rfl
        exact ⟨k + 1, (run_succ hstep k).trans hk⟩
      next => exact ⟨1, (run_one s).trans hstep⟩
    next f hrx => exact ⟨1, (run_one s).trans (hstep.trans hrx)⟩
    next r hrx => exact ⟨1, (run_one s).trans (hstep.trans hrx)⟩

/-- Settles O45: `START` is one step, `SETTLE` the next, and then the steps are those of `receive`. -/
theorem executeIsTheRunOfItsSteps : Obligations.ExecuteIsTheRunOfItsSteps := by
  intro c s q hv hs ha hq ht
  have ha' : State.accepts { s with hostq := q } (.execute c.code) = true := ha
  obtain ⟨t, ts, hts⟩ := List.exists_cons_of_ne_nil ht
  have hstart : step s = .next (startCommand c t { s with hostq := q, txq := ts }) :=
    (step_execute hv hs ha hq hts).trans (exec_start t (by exact ha))
  suffices h : ∃ k, core.run k s = exec c.instr { s with hostq := q } by
    obtain ⟨k, hk⟩ := h
    exact ⟨k, hk, by rw [exec_execute, exec_command]⟩
  rw [exec_command]
  cases t with
  | fail e => exact ⟨1, by rw [run_one, hstart, transact_fail ha' hts]⟩
  | ok =>
    have hsettle := (step_sent (s := startCommand c .ok { s with hostq := q, txq := ts }) hv hs rfl).trans
      (exec_settle rfl)
    obtain ⟨k, hk⟩ := run_eq_receive (as := s.rxq)
      (s := settlePhase (startCommand c .ok { s with hostq := q, txq := ts })) hv hs rfl rfl
    refine ⟨k + 2, ?_⟩
    rw [run_succ hstart, run_succ hsettle, hk, transact_ok ha' hts]

end Sys2Proof.Machine
end

section
/-! PROOFS. What the host reads (10_state.md section 9, rules R27 and R60), and the high nibbles of a position reply,
which nothing reads (rules R34, R139). -/

namespace Sys2Proof.Machine

/-! ### The result port -/

theorem ModeVal.code_of_mem {v : ModeVal} {n : Nat}
    (h : (v, n) ∈ [(ModeVal.unknown, 0), (.auto, 1), (.manual, 2), (.indoor, 3), (.outdoor, 4), (.onePush, 5),
      (.shutter, 6), (.iris, 7), (.bright, 8)]) : v.code = n := by
  cases v <;> simpa [ModeVal.code, eq_comm] using h

/-- What `execute` returns in a state that is no success, and in one that is. -/
theorem returnValue_not_ok {s : State} (h : s.status ≠ .ok) : s.returnValue = ⟨s.status, {}⟩ := by
  simp only [State.returnValue, h, if_false]

theorem returnValue_ok {s : State} (h : s.status = .ok) :
    s.returnValue = ⟨.ok, (catalog s.cfg s.cmd).recipe.named s⟩ := by
  simp only [State.returnValue, h, if_true]

/-- Settles O60: each register by its code, and the recipe of the command by the registers it names. -/
theorem resultPortShowsTheCodes : Obligations.ResultPortShowsTheCodes := by
  intro s k
  refine ⟨fun h => ?none, fun h => ?ok, fun h => ?err, ?life, ?phase, ?rclass, rfl, rfl, fun v n hv => ?modes,
    returnValue_not_ok, fun h => ?returned⟩
  case none => simp only [State.resultPort, h, Status.code, and_self]
  case ok => simp only [State.resultPort, h, Status.code, and_self]
  case err =>
    simp only [State.resultPort, h, Status.code, true_and, Option.some.injEq]
    cases k with
    | transportError e => cases e <;> rfl
    | _ => rfl
  case life => cases h : s.life <;> simp only [State.resultPort, h, Life.code]
  case phase => cases h : s.phase <;> simp only [State.resultPort, h, Phase.code]
  case rclass => cases h : s.rclass <;> simp only [State.resultPort, h, RClass.code]
  case modes =>
    have hcode := ModeVal.code_of_mem hv
    have hshown {w : ModeVal} (h : w = v) : w.code = n := (congrArg ModeVal.code h).trans hcode
    exact ⟨hshown, hshown, hshown, hshown⟩
  case returned =>
    rw [returnValue_ok h]
    cases hc : s.cmd <;> simp only [catalog, Recipe.named]

/-! ### The high nibbles of a position reply -/

section
variable {m m' : List Byte} (h : m.map lo4 = m'.map lo4)
include h

theorem length_eq_of_map_lo4 : m.length = m'.length := by
  simpa only [List.length_map] using congrArg List.length h

/-- Two messages with the same low nibbles have bytes with the same low nibble at each offset. -/
theorem exists_getElem?_lo4 {i : Nat} (hi : i < m.length) :
    ∃ b b', m[i]? = some b ∧ m'[i]? = some b' ∧ lo4 b = lo4 b' := by
  have hi' : i < m'.length := length_eq_of_map_lo4 h ▸ hi
  refine ⟨m[i], m'[i], List.getElem?_eq_getElem hi, List.getElem?_eq_getElem hi', ?_⟩
  simpa only [List.getElem?_map, List.getElem?_eq_getElem hi, List.getElem?_eq_getElem hi', Option.map_some,
    Option.some.injEq] using congrArg (·[i]?) h

/-- A word reads the low nibbles of its four bytes (rule R63). -/
theorem decodeWord_low (o : Nat) : decodeWord (.framed m) o = decodeWord (.framed m') o := by
  have hlength := length_eq_of_map_lo4 h
  by_cases hin : o + 4 ≤ m.length - 1
  · have hin' : o + 4 ≤ m'.length - 1 := hlength ▸ hin
    obtain ⟨b0, c0, hb0, hc0, e0⟩ := exists_getElem?_lo4 h (i := o) (by omega)
    obtain ⟨b1, c1, hb1, hc1, e1⟩ := exists_getElem?_lo4 h (i := o + 1) (by omega)
    obtain ⟨b2, c2, hb2, hc2, e2⟩ := exists_getElem?_lo4 h (i := o + 2) (by omega)
    obtain ⟨b3, c3, hb3, hc3, e3⟩ := exists_getElem?_lo4 h (i := o + 3) (by omega)
    rw [decodeWord_inside (v := .framed m) hin hb0 hb1 hb2 hb3,
      decodeWord_inside (v := .framed m') hin' hc0 hc1 hc2 hc3, e0, e1, e2, e3]
  · have hout : m.length - 1 < o + 4 := Nat.not_le.mp hin
    have hout' : m'.length - 1 < o + 4 := hlength ▸ hout
    rw [decodeWord_outside (v := .framed m) hout, decodeWord_outside (v := .framed m') hout']

/-- So does a short of the rule `NIBBLE8` (rule R65, decision D7). -/
theorem decodeShort_low (o : Nat) : decodeShort .nibble8 (.framed m) o = decodeShort .nibble8 (.framed m') o := by
  have hlength := length_eq_of_map_lo4 h
  by_cases hin : o + 2 ≤ m.length - 1
  · have hin' : o + 2 ≤ m'.length - 1 := hlength ▸ hin
    obtain ⟨b0, c0, hb0, hc0, e0⟩ := exists_getElem?_lo4 h (i := o) (by omega)
    obtain ⟨b1, c1, hb1, hc1, e1⟩ := exists_getElem?_lo4 h (i := o + 1) (by omega)
    rw [decodeShort_inside (v := .framed m) hin hb0 hb1,
      decodeShort_inside (v := .framed m') hin' hc0 hc1, shortOfBytes, shortOfBytes, e0, e1]
  · have hout : m.length - 1 < o + 2 := Nat.not_le.mp hin
    have hout' : m'.length - 1 < o + 2 := hlength ▸ hout
    rw [decodeShort_outside (v := .framed m) hout, decodeShort_outside (v := .framed m') hout']

/-- The position inquiries read words, and shorts by the short rule in force. -/
theorem decodeReply_low {cfg : Config} {c : CmdId}
    (hc : c = .inqZoomPos ∨ c = .inqFocusPos ∨ c = .inqPanTiltPos ∨
      cfg.shortRule = .nibble8 ∧ (c = .inqShutterPos ∨ c = .inqIrisPos ∨ c = .inqGainPos ∨ c = .inqBrightPos)) :
    decodeReply cfg c (.framed m) = decodeReply cfg c (.framed m') := by
  obtain hc | hc | rfl | ⟨hr, hc⟩ := hc
  · rw [decodeReply_word _ (.inl hc), decodeReply_word _ (.inl hc), decodeWord_low h]
  · rw [decodeReply_word _ (.inr hc), decodeReply_word _ (.inr hc), decodeWord_low h]
  · simp only [decodeReply, catalog, runRecipe, decodeWord_low h]
  · rw [decodeReply_short _ hc, decodeReply_short _ hc, hr, decodeShort_low h]

end

/-- `FINISH` on a reply that is not an error is the recipe's result. -/
theorem finishFrame_congr {a e : Byte} {x y : List Byte} {s : State} (he : classifyEnvelope e ≠ .error)
    (h : decodeReply s.cfg s.cmd (.framed (a :: e :: x ++ [sentinel])) =
      decodeReply s.cfg s.cmd (.framed (a :: e :: y ++ [sentinel]))) :
    finishFrame (a :: e :: x ++ [sentinel]) s = finishFrame (a :: e :: y ++ [sentinel]) s := by
  have hreply (z : List Byte) : finishFrame (a :: e :: z ++ [sentinel]) s =
      finishReply (classifyEnvelope e) (a :: e :: z ++ [sentinel]) s :=
    finishFrame_reply (by rw [ReplyArrives.length_frame]; omega) he rfl
  rw [hreply, hreply, finishReply, finishReply, h]

/-- Settles O59: the other buffer is carried along, and the recipe reads low nibbles. -/
theorem highNibblesOfPositionsDoNotMatter : Obligations.HighNibblesOfPositionsDoNotMatter := by
  intro s buf a e x y hp hf hf' hclass hlow hcmd
  have he := classifyEnvelope_ne_error hclass
  have hframes : (a :: e :: x ++ [sentinel]).map lo4 = (a :: e :: y ++ [sentinel]).map lo4 := by
    simp only [List.map_append, List.map_cons, hlow]
  refine ⟨finishFrame (a :: e :: x ++ [sentinel]) s, exec_finish hp hf List.getLast?_concat, ?_⟩
  calc exec .finish { s with buf := buf }
    _ = .next (finishFrame (a :: e :: y ++ [sentinel]) { s with buf := buf }) :=
      exec_finish hp hf' List.getLast?_concat
    _ = .next { finishFrame (a :: e :: y ++ [sentinel]) s with buf := buf } := by rw [finishFrame_withBuf]
    _ = .next { finishFrame (a :: e :: x ++ [sentinel]) s with buf := buf } := by
      rw [finishFrame_congr he (decodeReply_low hframes hcmd)]

end Sys2Proof.Machine
end
